-- ==== Sys2Proof/Word.lean ====
section
/-! DEFINITION. The byte, the only datum LZSS-CORE moves (R9, R70). Every other quantity of the spec is an unsigned
natural that never wraps (R11, R141). -/

namespace Sys2Proof

/-- R9: "A byte is 8 bits and holds an unsigned value 0 to 255." -/
abbrev Byte := BitVec 8

end Sys2Proof
end

