-- ==== Sys2Proof/Config.lean ====
section
/-! DEFINITION. What is fixed for one machine: the constants of R5, the open parameters of R6, and the free values, which
the spec leaves unspecified and which no proof can evaluate. -/

namespace Sys2Proof

/-- The open parameters of R6 (D2, U13). `none` is "infinite" for a capacity and "unbounded natural" for the width. -/
structure Config where
  /-- IN_CAP: capacity of IBUF in bytes. -/
  inCap : Option Nat
  /-- OUT_CAP: capacity of OBUF in bytes. -/
  outCap : Option Nat
  /-- LENW: width in bits of every cursor and length register that indexes a buffer. -/
  lenw : Option Nat
  deriving DecidableEq, Repr

/-- R6: IN_CAP is at least 1; `2^LENW > max(IN_CAP, OUT_CAP)`, and a finite LENW needs finite capacities. -/
def Config.wf (c : Config) : Bool :=
  (match c.inCap with
    | none => true
    | some a => decide (1 ≤ a)) &&
  (match c.lenw, c.inCap, c.outCap with
    | none, _, _ => true
    | some w, some a, some b => decide (a < 2 ^ w) && decide (b < 2 ^ w)
    | some _, _, _ => false)

/-- R6: "A model that wants the source's pure functions takes IN_CAP = OUT_CAP = infinity" (log 1, DESIGN CHOICE for
State.reset; every statement quantifies over the configuration). -/
def Config.unbounded : Config := { inCap := none, outCap := none, lenw := none }

/-! The constants of R5. -/

/-- Largest back-reference distance and window reach of the matcher. -/
abbrev Config.maxDist : Nat := 32767
/-- Cap on the match length the matcher extends to. -/
abbrev Config.maxLen : Nat := 32767
/-- Smallest match length emitted as a back-reference. -/
abbrev Config.minMatch : Nat := 7
/-- Largest literal chunk and the accumulator's flush threshold (C1). -/
abbrev Config.litMax : Nat := 65535
/-- Largest value of the 16-bit long-form length field. -/
abbrev Config.lenFieldMax : Nat := 65535
/-- Largest length held in bits 5..0 of a short-form tag. -/
abbrev Config.shortLenMax : Nat := 63
/-- Largest distance held in the one-byte distance form. -/
abbrev Config.shortDistMax : Nat := 127
/-- Largest value of the two-byte distance form, 7 + 8 bits (R97). -/
abbrev Config.distFieldMax : Nat := 32767

/-! Free values: constants with no body. The spec says "any value" (R40, U2, U4, U8), so nothing constrains them. -/

/-- The byte IBUF holds at an offset that nothing has written since reset number `epoch` (R40, R293, U8; log 3). -/
opaque Config.ibufUnwritten (epoch offset : Nat) : Byte
/-- The byte OBUF holds at an offset that nothing has written since reset number `epoch` (R40, U8; log 3). -/
opaque Config.obufUnwritten (epoch offset : Nat) : Byte
/-- The byte a host read of OBUF returns where the spec says "unspecified value" (R245, U2; log 4). -/
opaque Config.unspecifiedByte (draw : Nat) : Byte
/-- The value a host read of OUT_LEN returns while BUSY (R238, U4; log 5), before it is cut to LENW bits. -/
opaque Config.unspecifiedLength (draw : Nat) : Nat

end Sys2Proof
end

