-- ==== Sys2Proof/Syntax.lean ====
section
/-! DEFINITION. The instructions: the six chunk forms of the encoded stream (R91, R100) and the three host commands (R230).
Beside them the chunk as a value (R121), which carries no form, and the error causes (R251). -/

namespace Sys2Proof

/-- One constructor per row of spec/opcode_table.json. A chunk carries the fields of its header; the payload of a literal
is data in IBUF after the header, not part of the instruction. Operand order is the source's pair order, distance first
(R111). Fields are naturals (R11); WellFormed holds their ranges. -/
inductive Instr where
  /-- LIT.S, R93, R196. -/
  | litS (length : Nat)
  /-- LIT.L, R94, R197. -/
  | litL (length : Nat)
  /-- REF.S1, R95, R198. -/
  | refS1 (distance length : Nat)
  /-- REF.S2, R96, R199. -/
  | refS2 (distance length : Nat)
  /-- REF.L1, R98, R200. -/
  | refL1 (distance length : Nat)
  /-- REF.L2, R99, R201. -/
  | refL2 (distance length : Nat)
  /-- NOP, CMD code 0, R231. -/
  | nop
  /-- COMPRESS, CMD code 1, R232. -/
  | compress
  /-- DECOMPRESS, CMD code 2, R233. -/
  | decompress
  deriving DecidableEq, Repr

/-- R121: "a tagged union/sum type { Literal(bytes), BackRef(distance, length) }"; the value carries no form. -/
inductive ChunkValue where
  | literal (bytes : List Byte)
  | backRef (distance length : Nat)
  deriving DecidableEq, Repr

/-- R251: the causes written to ERR. -/
inductive Cause where
  /-- 0: no error. -/
  | none
  /-- 1: COMPRESS of an empty buffer, R254. -/
  | invalidInput
  /-- 2: the stream ends inside a chunk header, R252. -/
  | truncHeader
  /-- 3: a literal's payload extends beyond N, R253. -/
  | truncPayload
  /-- 4: a distance of 0 or beyond the output produced, R255. -/
  | badDistance
  /-- 5: a tag byte 0x41 to 0x7F or 0xC1 to 0xFF, R256. -/
  | reservedTag
  /-- 6: a field outside the format, raised by Encode, R258. -/
  | encodingRange
  /-- 7: a chunk does not fit below OUT_CAP, R257. -/
  | outOverflow
  /-- 8: N above IN_CAP at the start, R257. -/
  | inOverflow
  deriving DecidableEq, Repr

end Sys2Proof
end

