-- ==== Sys2Proof/WellFormed.lean ====
section
/-! DEFINITION. The field ranges of the six chunk forms (R100, R109): what a header of that form can hold. Distance 0 is
encodable in the layout (R107 (b)) and so well formed as syntax; its rejection is the decompressor's (R203). -/

namespace Sys2Proof

/-- R101: a short-form length is 6 bits. -/
def shortLengthFits (length : Nat) : Bool := decide (length ≤ Config.shortLenMax)
/-- R101: a long-form length is 16 bits. -/
def longLengthFits (length : Nat) : Bool := decide (length ≤ Config.lenFieldMax)
/-- R102: a one-byte distance is 7 bits. -/
def shortDistanceFits (distance : Nat) : Bool := decide (distance ≤ Config.shortDistMax)
/-- R102: a two-byte distance is 15 bits. -/
def longDistanceFits (distance : Nat) : Bool := decide (distance ≤ Config.distFieldMax)

/-- R109 and R111: each value fits its form's field; a command has no operand (R230). -/
def WellFormed : Instr → Bool
  | .litS length => shortLengthFits length
  | .litL length => longLengthFits length
  | .refS1 distance length => shortDistanceFits distance && shortLengthFits length
  | .refS2 distance length => longDistanceFits distance && shortLengthFits length
  | .refL1 distance length => shortDistanceFits distance && longLengthFits length
  | .refL2 distance length => longDistanceFits distance && longLengthFits length
  | .nop => true
  | .compress => true
  | .decompress => true

end Sys2Proof
end

