-- ==== Sys2Proof/Decode.lean ====
section
/-! DEFINITION. Bits to instructions and back (30_encoding.md, 40_chunk_codec.md). There are two encodings of instructions:
a chunk header is bytes of the stream (R92 to R103), a command is a 2-bit code written to CMD (R22, R230). The decoder is
total and rejects by name. After it, the encoder of instructions (every form, minimal or not), and the codec's own Encode,
which spells a chunk value in its minimal form (R123 to R127). -/

namespace Sys2Proof

/-! ## Bit fields -/

/-- R9: `b[hi:lo]`, "the unsigned value of bits hi down to lo of b, both ends included". -/
def bits (b : Byte) (hi lo : Nat) : Nat := b.toNat / 2 ^ lo % 2 ^ (hi - lo + 1)

/-- The byte that holds the natural `v`, `v < 256`. -/
def byteOf (v : Nat) : Byte := BitVec.ofNat 8 v

/-- R67: two bytes, most significant first, as one number. -/
def bigEndian (hi lo : Nat) : Nat := hi * 256 + lo

/-! ## Decoding (R92, R101 to R104, R130 to R136) -/

/-- R102, R133, R136: the distance from the bytes after the length bytes. `one` and `two` build the instruction of the
one-byte and the two-byte form. -/
def decodeDistance (one two : Nat → Instr) : List Byte → Except Cause Instr
  | [] => .error .truncHeader
  | e :: rest =>
    if bits e 7 7 = 1 then
      match rest with
      | [] => .error .truncHeader
      | d :: _ => .ok (two (bigEndian (bits e 6 0) d.toNat))
    else .ok (one (bits e 6 0))

/-- R132, R135: the two big-endian length bytes of a long form, and what follows them. -/
def decodeLongLength : List Byte → Except Cause (Nat × List Byte)
  | hi :: lo :: rest => .ok (bigEndian hi.toNat lo.toNat, rest)
  | _ => .error .truncHeader

/-- R138 up to the header's end, in its order: reserved tag, length bytes, distance bytes (R259). The argument is the
stream from the tag byte on. The payload bound of a literal (R137) is checked by the meaning of the form (log 19). The
empty argument never arises (R130). -/
def decodeChunk : List Byte → Except Cause Instr
  | [] => .error .truncHeader
  | t :: rest =>
    if bits t 6 6 = 1 then
      if bits t 5 0 ≠ 0 then .error .reservedTag
      else
        match decodeLongLength rest with
        | .error c => .error c
        | .ok (length, rest) =>
          if bits t 7 7 = 1 then
            decodeDistance (fun d => .refL1 d length) (fun d => .refL2 d length) rest
          else .ok (.litL length)
    else if bits t 7 7 = 1 then
      decodeDistance (fun d => .refS1 d (bits t 5 0)) (fun d => .refS2 d (bits t 5 0)) rest
    else .ok (.litS (bits t 5 0))

/-- R22, R230: CMD[1:0]; code 3 is reserved (R234). -/
def decodeCommand (code : BitVec 2) : Option Instr :=
  match code.toNat with
  | 0 => some .nop
  | 1 => some .compress
  | 2 => some .decompress
  | _ => none

/-- The two places an instruction is read from. -/
inductive Encoding where
  /-- Bytes of the chunk stream, from a tag byte on. -/
  | stream (bytes : List Byte)
  /-- A value written to CMD. -/
  | command (code : BitVec 2)
  deriving DecidableEq, Repr

/-- Why the decoder answers no instruction. -/
inductive Reject where
  /-- The stream raises this cause, RESERVED_TAG or TRUNC_HEADER (R131, R135, R136). -/
  | malformed (cause : Cause)
  /-- CMD code 3 (R234). -/
  | reservedCommand
  deriving DecidableEq, Repr

/-- The decoder, total on any encoding. -/
def decode : Encoding → Except Reject Instr
  | .stream bytes =>
    match decodeChunk bytes with
    | .ok i => .ok i
    | .error c => .error (.malformed c)
  | .command code =>
    match decodeCommand code with
    | some i => .ok i
    | none => .error .reservedCommand

/-! ## Sizes (R100) -/

/-- Header bytes of a form (R100, column "header bytes"); 0 for a command, which is no bytes of the stream. -/
def Instr.headerSize : Instr → Nat
  | .litS _ => 1
  | .litL _ => 3
  | .refS1 _ _ => 2
  | .refS2 _ _ => 3
  | .refL1 _ _ => 4
  | .refL2 _ _ => 5
  | .nop => 0
  | .compress => 0
  | .decompress => 0

/-- Payload bytes in the stream: `length` for a literal; "A back-reference never has a payload" (R100). -/
def Instr.payloadSize : Instr → Nat
  | .litS length => length
  | .litL length => length
  | .refS1 _ _ => 0
  | .refS2 _ _ => 0
  | .refL1 _ _ => 0
  | .refL2 _ _ => 0
  | .nop => 0
  | .compress => 0
  | .decompress => 0

/-! ## Encoding instructions (R93 to R99) -/

/-- R92: the tag byte with variant `v` and a short length. -/
def shortTag (v length : Nat) : Byte := byteOf (v * 128 + length)
/-- R92: the fixed long-form tag, 0x40 or 0xC0. -/
def longTag (v : Nat) : Byte := byteOf (v * 128 + 64)
/-- R67, R101: the two length bytes of a long form. -/
def longLengthBytes (length : Nat) : List Byte := [byteOf (length / 256), byteOf (length % 256)]
/-- R102: the one-byte distance form. -/
def shortDistanceBytes (distance : Nat) : List Byte := [byteOf distance]
/-- R67, R102: the two-byte distance form. -/
def longDistanceBytes (distance : Nat) : List Byte := [byteOf (128 + distance / 256), byteOf (distance % 256)]

/-- The words of a well-formed instruction: the header's bytes in stream order, or the CMD code. -/
def encode : Instr → Encoding
  | .litS length => .stream [shortTag 0 length]
  | .litL length => .stream (longTag 0 :: longLengthBytes length)
  | .refS1 distance length => .stream (shortTag 1 length :: shortDistanceBytes distance)
  | .refS2 distance length => .stream (shortTag 1 length :: longDistanceBytes distance)
  | .refL1 distance length => .stream (longTag 1 :: (longLengthBytes length ++ shortDistanceBytes distance))
  | .refL2 distance length => .stream (longTag 1 :: (longLengthBytes length ++ longDistanceBytes distance))
  | .nop => .command 0
  | .compress => .command 1
  | .decompress => .command 2

/-- An encoding followed by further stream bytes; a command is a whole register value and has nothing after it. -/
def Encoding.followedBy : Encoding → List Byte → Encoding
  | .stream bytes, rest => .stream (bytes ++ rest)
  | .command code, _ => .command code

/-! ## The codec's Encode (R120 to R129) -/

/-- R123: the tag byte and the length, "always prefer short form when the value fits". -/
def encLen (v length : Nat) : List Byte :=
  if length ≤ Config.shortLenMax then [shortTag v length] else longTag v :: longLengthBytes length

/-- R126: the distance. -/
def encDist (distance : Nat) : List Byte :=
  if distance < 128 then shortDistanceBytes distance else longDistanceBytes distance

/-- R124, R125, R127: the bytes that spell a chunk value, or EncodingRange before any byte is produced. -/
def encodeValue : ChunkValue → Except Cause (List Byte)
  | .literal bytes =>
    if bytes.length > Config.lenFieldMax then .error .encodingRange
    else .ok (encLen 0 bytes.length ++ bytes)
  | .backRef distance length =>
    if distance = 0 ∨ distance > Config.maxDist ∨ length > Config.lenFieldMax then .error .encodingRange
    else .ok (encLen 1 length ++ encDist distance)

/-! ## The host's table words (log 16) -/

/-- The `count` lowest bytes of `w`, most significant first: R104, "the header bytes taken as one big-endian number (tag
byte most significant)". -/
def bigEndianBytes (w : Nat) : Nat → List Byte
  | 0 => []
  | count + 1 => byteOf (w / 256 ^ count) :: bigEndianBytes w count

/-- Zero bytes for what a row's bits leave out: the longest header is 5 bytes (R100). -/
def tablePadding : List Byte := List.replicate 4 0

/-- The encoding that a word of the opcode table stands for (log 16, DESIGN CHOICE). A command row has 2 bits and a chunk
row a whole number of bytes, so a word of fewer than 8 bits is a CMD code. A 2-bit row may be handed over as one whole
byte: the bytes 1 and 2 are then taken as COMPRESS and DECOMPRESS, which have no other word, and every other byte as a tag
byte. The machine itself never guesses: step reads CMD writes with decodeCommand and the stream with decodeChunk. -/
def tableEncoding (nbits w : Nat) : Encoding :=
  if nbits < 8 ∨ (nbits = 8 ∧ (w = 1 ∨ w = 2)) then .command (BitVec.ofNat 2 w)
  else .stream (bigEndianBytes w ((nbits + 7) / 8) ++ tablePadding)

/-- The instruction the decoder reads from a table word, every bit above `nbits` zero. -/
def decodeTableWord (nbits w : Nat) : Option Instr :=
  match decode (tableEncoding nbits w) with
  | .ok i => some i
  | .error _ => none

end Sys2Proof
end

