-- ==== Sys2Proof/Machine/State.lean ====
section
/-! DEFINITION. The machine's state (10_state.md R20): six host-visible registers less CMD, which stores nothing (R22), the
working registers of both engines, the accumulator, the two buffers; beside them the configuration (R39: not state, held
here so that every statement holds for every configuration, log 1) and the model's own fields (logs 3 to 6). Registers
are naturals: R141, "none of it wraps"; Safety.lean states the widths as an invariant (log 15). -/

namespace Sys2Proof.Machine

/-- R23: STATUS. -/
inductive Status where
  /-- 0: no operation since reset. -/
  | idle
  /-- 1: an operation is running. -/
  | busy
  /-- 2: the last operation ended without error. -/
  | done
  /-- 3: the last operation ended with an error. -/
  | error
  deriving DecidableEq, Repr

/-- R28: MODE, which engine's step rule applies. -/
inductive Mode where
  | none
  | compressing
  | decompressing
  deriving DecidableEq, Repr

/-- R34: C_KIND. -/
inductive ChunkKind where
  /-- 0. -/
  | literal
  /-- 1. -/
  | backRef
  deriving DecidableEq, Repr

/-- R21: the six registers the host reaches, numbers 0 to 5. -/
inductive HostReg where
  | cmd
  | status
  | err
  | errPos
  | inLen
  | outLen
  deriving DecidableEq, Repr

/-- What the host does at its port (R236, R245), one access each, and where the engine moves instead (log 6). -/
inductive HostAction where
  /-- Write one byte of IBUF (R61). -/
  | writeIbuf (offset : Nat) (value : Byte)
  /-- Read one byte of OBUF (R63). -/
  | readObuf (offset : Nat)
  /-- Read one byte of IBUF: not provided (R245, U14). -/
  | readIbuf (offset : Nat)
  /-- Write a register by its number (R21); number 0 issues a command (R230). -/
  | writeReg (number value : Nat)
  /-- Read a register by its number (R21). -/
  | readReg (number : Nat)
  /-- Apply reset (R290). -/
  | reset
  /-- The host does nothing in this turn and the engine takes it (R241). -/
  | yield
  deriving DecidableEq, Repr

/-- A buffer: pairs of an offset and its byte, offsets strictly rising. An unlisted offset has not been written and reads
as no value here; the reads in Operands.lean turn that into a free value (log 3). -/
abbrev Memory := List Host.Cell

/-- The complete state (R20). -/
structure State where
  /-- IN_CAP, OUT_CAP, LENW (R6). No step changes it. -/
  cfg : Config
  /-- STATUS (R23). -/
  status : Status
  /-- ERR (R24). -/
  err : Cause
  /-- ERR_POS (R25). -/
  errPos : Nat
  /-- IN_LEN (R26). -/
  inLen : Nat
  /-- OUT_LEN (R27). -/
  outLen : Nat
  /-- MODE (R28). -/
  mode : Mode
  /-- N, the input length latched at the start (R28). -/
  n : Nat
  /-- I, the compressor's scan cursor (R29). -/
  i : Nat
  /-- ACC_LEN (R30). -/
  accLen : Nat
  /-- ACC, the in-flight literal run (R30). -/
  acc : List Byte
  /-- WSTART, the window's start (R32). -/
  wstart : Nat
  /-- P, the candidate source offset (R32). -/
  p : Nat
  /-- LEN, the length of the match being extended (R32). -/
  len : Nat
  /-- BEST_LEN, the source's `max_len` (R32). -/
  bestLen : Nat
  /-- BEST_DIST, the source's `best_dist` (R32). -/
  bestDist : Nat
  /-- RP, the decompressor's read cursor (R33). -/
  rp : Nat
  /-- C_KIND (R34). -/
  cKind : ChunkKind
  /-- C_LEN (R34). -/
  cLen : Nat
  /-- C_DIST (R34). -/
  cDist : Nat
  /-- C_HDR (R34). -/
  cHdr : Nat
  /-- BASE (R35). -/
  base : Nat
  /-- K (R35). -/
  k : Nat
  /-- IBUF (R37, R61). -/
  ibuf : Memory
  /-- OBUF (R37, R63). -/
  obuf : Memory
  /-- The model's: the host's accesses still to come, oldest first (log 6). -/
  inbox : List HostAction
  /-- The model's: the value the host's last read returned (log 6). -/
  reply : Option Nat
  /-- The model's: how many resets, the index of the unwritten bytes' free values (log 3). -/
  epoch : Nat
  /-- The model's: how many unspecified values host reads have returned (logs 4, 5). -/
  draws : Nat
  deriving DecidableEq, Repr

/-- Reasons the machine stops. -/
inductive Fault where
  /-- Raised by a host access to an IBUF or OBUF offset at or above the buffer's capacity, which does not exist (R71, R61,
  R63). Safe: the spec gives such an access no effect (log 11). -/
  | noSuchOffset
  /-- Raised by an engine step when STATUS is BUSY and no step's precondition holds: MODE none, or RP above N. No run
  reaches it (R28, R33). Safe (log 12). -/
  | engineStuck
  deriving DecidableEq, Repr

/-- Reasons the model gives no meaning. -/
inductive Refusal where
  /-- Raised by exec for an instruction that has no meaning yet. Safe. No arm raises it. -/
  | notModelled (mnemonic : String)
  /-- Raised by a host write of IBUF or host read of OBUF while BUSY (R301: "A model should make the host's buffer accesses
  unavailable (refused) while BUSY"; U3, U4). Safe (log 9). -/
  | bufferAccessWhileBusy
  /-- Raised by a host access to a register number above 5 (R21, U6: refuse). Safe (log 9). -/
  | noSuchRegister
  /-- Raised by a host read of IBUF (R245, U14: refuse). Safe (log 9). -/
  | ibufNotReadable
  /-- Raised by a host write of a value the register is too narrow for: CMD above 3, IN_LEN of 2^LENW or more (R22, R26).
  Safe: a register of that width cannot carry it (log 10). -/
  | valueTooWide
  deriving DecidableEq, Repr

/-- The state a reset leaves (R40, R290) for a configuration. `epoch`, `draws`, `inbox` and `reply` are the model's own and
the environment's, so a reset in the middle of a run passes them on (log 3). Registers that R40 calls unspecified take
the values of log 2 (DESIGN CHOICE). -/
def State.afterReset (cfg : Config) (epoch draws : Nat) (inbox : List HostAction) (reply : Option Nat) : State where
  cfg := cfg
  status := .idle
  err := .none
  errPos := 0
  inLen := 0
  outLen := 0
  mode := .none
  n := 0
  i := 0
  accLen := 0
  acc := []
  wstart := 0
  p := 0
  len := 0
  bestLen := 0
  bestDist := 0
  rp := 0
  cKind := .literal
  cLen := 0
  cDist := 0
  cHdr := 0
  base := 0
  k := 0
  ibuf := []
  obuf := []
  inbox := inbox
  reply := reply
  epoch := epoch
  draws := draws

/-- The machine right after reset, capacities infinite (log 1), the host having asked for nothing yet (log 6). -/
def State.reset : State := State.afterReset Config.unbounded 0 0 [] none

end Sys2Proof.Machine
end

