-- ==== Sys2Proof/Machine/Flags.lean ====
section
/-! DEFINITION. R36: "LZSS-CORE has no condition codes, no carry, zero, sign or overflow flag, and no predicate register."
What stands in a flag's place: the codes of STATUS and ERR, and the one predicate, evaluated and stored nowhere. -/

namespace Sys2Proof.Machine

/-- R23: STATUS[1:0]. -/
def statusCode : Status → Nat
  | .idle => 0
  | .busy => 1
  | .done => 2
  | .error => 3

/-- R251: the value written to ERR. -/
def errCode : Cause → Nat
  | .none => 0
  | .invalidInput => 1
  | .truncHeader => 2
  | .truncPayload => 3
  | .badDistance => 4
  | .reservedTag => 5
  | .encodingRange => 6
  | .outOverflow => 7
  | .inOverflow => 8

/-- R36, R159: the predicate "qualifying match", `BEST_LEN > 6`, that is `BEST_LEN >= MIN_MATCH`. -/
def qualifies (bestLen : Nat) : Bool := decide (Config.minMatch ≤ bestLen)

end Sys2Proof.Machine
end

