-- ==== Sys2Proof/Machine/Ops.lean ====
section
/-! DEFINITION. The operations over memory and registers that every meaning shares: reading and writing a buffer, appending
to OBUF (R65), the capacity tests (R257), error entry (R262) and the start of an operation that undoes it (R264). -/

namespace Sys2Proof.Machine

/-! ## Buffers -/

/-- The byte listed at an offset, if it has been written. -/
def Memory.read? : Memory → Nat → Option Byte
  | [], _ => none
  | (a, v) :: m, x => if a = x then some v else Memory.read? m x

/-- Write one byte, keeping the offsets strictly rising. -/
def Memory.write : Memory → Nat → Byte → Memory
  | [], x, v => [(x, v)]
  | (a, w) :: m, x, v =>
    if x < a then (x, v) :: (a, w) :: m
    else if x = a then (a, v) :: m
    else (a, w) :: Memory.write m x v

/-- The offsets rise strictly from `low` on. -/
def Memory.risesFrom : Memory → Nat → Bool
  | [], _ => true
  | (a, _) :: m, low => decide (low ≤ a) && Memory.risesFrom m (a + 1)

/-- The canonical form: offsets strictly rising. An unlisted offset reads as no value, so no entry equals it. -/
def Memory.wf (m : Memory) : Bool := Memory.risesFrom m 0

/-! ## Capacities (R6, R257) -/

/-- Whether `v` bytes fit a capacity. -/
def capAdmits (cap : Option Nat) (v : Nat) : Bool :=
  match cap with
  | none => true
  | some c => decide (v ≤ c)

/-- Whether a buffer of this capacity has the offset (R71). -/
def hasOffset (cap : Option Nat) (offset : Nat) : Bool :=
  match cap with
  | none => true
  | some c => decide (offset < c)

/-- Whether a LENW-bit register can hold `v`. -/
def fitsLenw (lenw : Option Nat) (v : Nat) : Bool :=
  match lenw with
  | none => true
  | some w => decide (v < 2 ^ w)

/-! ## Appending (R65) -/

/-- R65, `OutAppend(v)`: "MemWrite(OBUF, OUT_LEN, 1, v); OUT_LEN <- OUT_LEN + 1". DESIGN CHOICE (log 24): the bytes above the
one appended, which R63 calls unspecified at all times, stay as they stand. -/
def outAppend (v : Byte) (s : State) : State :=
  { s with obuf := Memory.write s.obuf s.outLen v, outLen := s.outLen + 1 }

/-- R65, `OutAppendSeq`: the bytes in index order. -/
def outAppendSeq : List Byte → State → State
  | [], s => s
  | v :: vs, s => outAppendSeq vs (outAppend v s)

/-! ## Error entry and what follows it (R262, R264) -/

/-- R262, `ErrorEntry(cause, pos)`: the one way an error is taken. "Nothing else is saved"; OBUF's bytes and the working
registers are dead and left as they stand (log 18). -/
def errorEntry (cause : Cause) (pos : Nat) (s : State) : State :=
  { s with err := cause, errPos := pos, outLen := 0, mode := .none, status := .error }

/-- R264: there is no return from an error; the next accepted command "clears ERR and ERR_POS". This is the part that
`StartCompress` and `StartDecompress` share (R232, R233). DESIGN CHOICE (log 24): OBUF, all of it at or above OUT_LEN from here
on and so unspecified (R63), keeps the bytes of an earlier operation. -/
def startOperation (mode : Mode) (s : State) : State :=
  { s with err := .none, errPos := 0, outLen := 0, n := s.inLen, status := .busy, mode := mode }

/-- R166, R208: "MODE <- 0; STATUS <- DONE". -/
def finishOperation (s : State) : State := { s with mode := .none, status := .done }

/-! ## A step that an error may end -/

/-- How far a step has come: it goes on, or `raise` has ended it ("nothing after a raise executes", R12). -/
inductive Flow where
  | go (s : State)
  | ended (s : State)
  deriving DecidableEq, Repr

/-- R12, R262: raise a cause, recording a position. -/
def raise (cause : Cause) (pos : Nat) (s : State) : Flow := .ended (errorEntry cause pos s)

/-- Go on with `f` unless an error has ended the step. -/
def Flow.andThen (x : Flow) (f : State → Flow) : Flow :=
  match x with
  | .go s => f s
  | .ended s => .ended s

/-- Either way a step ends in a next state: error entry is one (R262). -/
def Flow.outcome : Flow → Host.Outcome State Fault Refusal
  | .go s => .next s
  | .ended s => .next s

end Sys2Proof.Machine
end

