-- ==== Sys2Proof/Machine/Operands.lean ====
section
/-! DEFINITION. Where an operand's bytes come from: one byte of IBUF, one byte of OBUF, the header bytes at RP, and the
latched fields of the chunk being applied. All accesses are one byte wide (R70). -/

namespace Sys2Proof.Machine

/-- R62: `IBUF[a]`, the byte the host last wrote at `a`; a byte it has not written is a free value (R40, R293; log 3). -/
def ibufByte (s : State) (a : Nat) : Byte := (Memory.read? s.ibuf a).getD (Config.ibufUnwritten s.epoch a)

/-- R64: `OBUF[a]`, the byte most recently appended at `a`; one never appended is a free value, which no run reads (R204;
log 3). -/
def obufByte (s : State) (a : Nat) : Byte := (Memory.read? s.obuf a).getD (Config.obufUnwritten s.epoch a)

/-- `IBUF[from .. from + count)`. -/
def ibufSlice (s : State) (start count : Nat) : List Byte := (List.range count).map fun j => ibufByte s (start + j)

/-- `OBUF[from .. from + count)`. -/
def obufSlice (s : State) (start count : Nat) : List Byte := (List.range count).map fun j => obufByte s (start + j)

/-- The longest header (R100). -/
def maxHeader : Nat := 5

/-- R130 to R136: the bytes Decode may read at RP, none of them at or beyond N (R62). -/
def fetchHeader (s : State) : List Byte := ibufSlice s s.rp (min maxHeader (s.n - s.rp))

/-- R134: Decode latches C_KIND, C_LEN, C_DIST, C_HDR. -/
def latchChunk (kind : ChunkKind) (length distance header : Nat) (s : State) : State :=
  { s with cKind := kind, cLen := length, cDist := distance, cHdr := header }

end Sys2Proof.Machine
end

