-- ==== Sys2Proof/Machine/Matcher.lean ====
section
/-! DEFINITION. The sliding-window matcher (41_compressor.md R152 to R159, R169). It is written over a function that reads
one input byte, so that the engine (reading IBUF) and the whole-operation function (reading a list) share one matcher. -/

namespace Sys2Proof.Machine

/-- R155's loop. `budget` is MAX_LEN - LEN, so it runs out exactly when LEN < MAX_LEN fails. `i + len < n` guards both
reads. The source range may run past `i` (R169). -/
def extendMatch (input : Nat → Byte) (n p i : Nat) : Nat → Nat → Nat
  | 0, len => len
  | budget + 1, len =>
    if i + len < n ∧ input (p + len) = input (i + len) then extendMatch input n p i budget (len + 1)
    else len

/-- R155, `MatchLen(P, I)`. -/
def matchLen (input : Nat → Byte) (n p i : Nat) : Nat := extendMatch input n p i Config.maxLen 0

/-- R152: "WSTART <- max(0, I - MAX_DIST)", the subtraction guarded as R11 asks. -/
def windowStart (i : Nat) : Nat := if Config.maxDist ≤ i then i - Config.maxDist else 0

/-- The registers a search leaves: P, LEN, BEST_LEN, BEST_DIST (R32). -/
structure Search where
  p : Nat
  len : Nat
  bestLen : Nat
  bestDist : Nat
  deriving DecidableEq, Repr

/-- R156: one candidate; the comparison is strict, so the first longest match is kept (C2). -/
def tryCandidate (input : Nat → Byte) (n i p : Nat) (r : Search) : Search :=
  if matchLen input n p i > r.bestLen then
    { p := p, len := matchLen input n p i, bestLen := matchLen input n p i, bestDist := i - p }
  else { r with p := p, len := matchLen input n p i }

/-- R154, R157: the candidates `p, p + 1, ...`, `count` of them, in increasing offset. -/
def scanWindow (input : Nat → Byte) (n i : Nat) : Nat → Nat → Search → Search
  | 0, _, r => r
  | count + 1, p, r => scanWindow input n i count (p + 1) (tryCandidate input n i p r)

/-- R153, R157, `FindMatch(I)`: the window `[WSTART, I)`. -/
def findMatch (input : Nat → Byte) (n i : Nat) : Search :=
  scanWindow input n i (i - windowStart i) (windowStart i)
    { p := windowStart i, len := 0, bestLen := 0, bestDist := 0 }

/-- R157 in the engine: the search over IBUF at I, its registers written (R32; log 14). -/
def searchStep (s : State) : State :=
  { s with
    wstart := windowStart s.i
    p := (findMatch (ibufByte s) s.n s.i).p
    len := (findMatch (ibufByte s) s.n s.i).len
    bestLen := (findMatch (ibufByte s) s.n s.i).bestLen
    bestDist := (findMatch (ibufByte s) s.n s.i).bestDist }

end Sys2Proof.Machine
end

