-- ==== Sys2Proof/Machine/Compressor.lean ====
section
/-! DEFINITION. The compressor engine (41_compressor.md R160 to R166): the chunk emitter, one loop iteration, the finish. -/

namespace Sys2Proof.Machine

/-! ## The chunk emitter -/

/-- R163, R164, R259: spell the chunk (ENCODING_RANGE first), check that all of it fits (OUT_OVERFLOW), append it. `pos` is
what ERR_POS records (R260). -/
def emitChunk (c : ChunkValue) (pos : Nat) (s : State) : Flow :=
  match encodeValue c with
  | .error cause => raise cause pos s
  | .ok bytes =>
    if capAdmits s.cfg.outCap (s.outLen + bytes.length) then .go (outAppendSeq bytes s)
    else raise .outOverflow pos s

/-- R163, R160: "ACC <- []; ACC_LEN <- 0". -/
def clearAccumulator (s : State) : State := { s with acc := [], accLen := 0 }

/-- R163, `Flush`. -/
def flush (pos : Nat) (s : State) : Flow :=
  (emitChunk (.literal s.acc) pos s).andThen fun t => .go (clearAccumulator t)

/-- R160, R166: "if ACC_LEN > 0: Flush". -/
def flushNonEmpty (pos : Nat) (s : State) : Flow := if s.accLen > 0 then flush pos s else .go s

/-- R162: "if ACC_LEN >= 65535: Flush" (C1, D5). -/
def sizeFlush (pos : Nat) (s : State) : Flow := if s.accLen ≥ Config.litMax then flush pos s else .go s

/-! ## One iteration -/

/-- R160: the bytes covered by the back-reference are passed. -/
def advancePastMatch (s : State) : State := { s with i := s.i + s.bestLen }

/-- R160, the match step. -/
def matchStep (pos : Nat) (s : State) : Flow :=
  ((flushNonEmpty pos s).andThen fun t => emitChunk (.backRef t.bestDist t.bestLen) pos t).andThen fun t =>
    .go (advancePastMatch (clearAccumulator t))

/-- R161, the literal step. -/
def literalStep (s : State) : State :=
  { s with acc := s.acc ++ [ibufByte s s.i], accLen := s.accLen + 1, i := s.i + 1 }

/-- R159, R165: match or literal, by the threshold. -/
def matchOrLiteral (pos : Nat) (s : State) : Flow :=
  if qualifies s.bestLen then matchStep pos s else .go (literalStep s)

/-- R165, `CompStep`: search, match or literal, size flush. An error records I at the start of the iteration (R165, R257;
log 13). -/
def compStep (s : State) : Flow := (matchOrLiteral s.i (searchStep s)).andThen (sizeFlush s.i)

/-- R166, `CompFinish`; an error in the final flush reports N. -/
def compFinish (s : State) : Flow := (flushNonEmpty s.n s).andThen fun t => .go (finishOperation t)

end Sys2Proof.Machine
end

