-- ==== Sys2Proof/Machine/Chunks.lean ====
section
/-! DEFINITION. The meanings of the six chunk forms (42_decompressor.md R196 to R201) over the shared parts R202 to R206. A
chunk's meaning starts where the header at RP has been decoded and ends with RP past the chunk or with error entry. It is
run by the decompressor's chunk step only (log 23). -/

namespace Sys2Proof.Machine

/-! ## The literal copy (R202) -/

/-- One turn of R202's loop: "OutAppend( IBUF[RP + C_HDR + K] )"; K counts the bytes appended (R35; log 14). -/
def copyLiteralByte (s : State) : State :=
  { outAppend (ibufByte s (s.rp + s.cHdr + s.k)) s with k := s.k + 1 }

/-- `count` turns of R202's loop. -/
def copyLiteral : Nat → State → State
  | 0, s => s
  | count + 1, s => copyLiteral count (copyLiteralByte s)

/-- R202, R206, R257: the capacity check for the whole chunk, then the copy. -/
def applyLiteral (s : State) : Flow :=
  if capAdmits s.cfg.outCap (s.outLen + s.cLen) then .go (copyLiteral s.cLen { s with k := 0 })
  else raise .outOverflow s.rp s

/-- R195: after a literal, `RP <- RP + C_HDR + C_LEN`. -/
def advancePastLiteral (s : State) : State := { s with rp := s.rp + s.cHdr + s.cLen }

/-- R137, R134, R202, R195: a literal chunk with the given length and header size. The payload bound is Decode's last check
and comes before the latch (log 19). -/
def literalChunk (length header : Nat) (s : State) : Flow :=
  if s.rp + header + length > s.n then raise .truncPayload s.rp s
  else (applyLiteral (latchChunk .literal length 0 header s)).andThen fun t => .go (advancePastLiteral t)

/-! ## The overlap copy (R203 to R205, R300) -/

/-- One turn of R204's loop: "OutAppend( OBUF[BASE + K] )", read then append, so that the next turn sees the byte. -/
def copyBackByte (s : State) : State :=
  { outAppend (obufByte s (s.base + s.k)) s with k := s.k + 1 }

/-- `count` turns of R204's loop. -/
def copyBack : Nat → State → State
  | 0, s => s
  | count + 1, s => copyBack count (copyBackByte s)

/-- R203: the distance names a byte that exists. -/
def distanceOk (s : State) : Bool := decide (s.cDist ≠ 0) && decide (s.cDist ≤ s.outLen)

/-- R204: the distance check, the capacity check (R206), BASE, the copy. -/
def applyRef (s : State) : Flow :=
  if distanceOk s then
    if capAdmits s.cfg.outCap (s.outLen + s.cLen) then
      .go (copyBack s.cLen { s with base := s.outLen - s.cDist, k := 0 })
    else raise .outOverflow s.rp s
  else raise .badDistance s.rp s

/-- R195: after a back-reference, `RP <- RP + C_HDR`. -/
def advancePastRef (s : State) : State := { s with rp := s.rp + s.cHdr }

/-- R134, R204, R195: a back-reference chunk with the given fields and header size. -/
def refChunk (distance length header : Nat) (s : State) : Flow :=
  (applyRef (latchChunk .backRef length distance header s)).andThen fun t => .go (advancePastRef t)

/-! ## The six forms -/

/-- R196, LIT.S. -/
def execLitS (length : Nat) (s : State) : Host.Outcome State Fault Refusal := (literalChunk length 1 s).outcome

/-- R197, LIT.L. -/
def execLitL (length : Nat) (s : State) : Host.Outcome State Fault Refusal := (literalChunk length 3 s).outcome

/-- R198, REF.S1. -/
def execRefS1 (distance length : Nat) (s : State) : Host.Outcome State Fault Refusal :=
  (refChunk distance length 2 s).outcome

/-- R199, REF.S2. -/
def execRefS2 (distance length : Nat) (s : State) : Host.Outcome State Fault Refusal :=
  (refChunk distance length 3 s).outcome

/-- R200, REF.L1. -/
def execRefL1 (distance length : Nat) (s : State) : Host.Outcome State Fault Refusal :=
  (refChunk distance length 4 s).outcome

/-- R201, REF.L2. -/
def execRefL2 (distance length : Nat) (s : State) : Host.Outcome State Fault Refusal :=
  (refChunk distance length 5 s).outcome

end Sys2Proof.Machine
end

