-- ==== Sys2Proof/Machine/Commands.lean ====
section
/-! DEFINITION. The meanings of the three host commands (43_host_commands.md R231 to R235). COMPRESS and DECOMPRESS do what
the accepted write does "as one indivisible action"; the engine's steps follow (R241). -/

namespace Sys2Proof.Machine

/-- R151: "ACC <- [IBUF[0]] (so ACC_LEN <- 1) and I <- 1". -/
def seedAccumulator (s : State) : State := { s with acc := [ibufByte s 0], accLen := 1, i := 1 }

/-- R191: the decompressor starts at RP 0. -/
def seedReadCursor (s : State) : State := { s with rp := 0 }

/-- R232, `StartCompress`, with the order of checks of R259. -/
def startCompress (s : State) : Flow :=
  if capAdmits s.cfg.inCap s.inLen then
    if s.inLen = 0 then raise .invalidInput 0 (startOperation .compressing s)
    else .go (seedAccumulator (startOperation .compressing s))
  else raise .inOverflow 0 (startOperation .compressing s)

/-- R233, `StartDecompress`. -/
def startDecompress (s : State) : Flow :=
  if capAdmits s.cfg.inCap s.inLen then .go (seedReadCursor (startOperation .decompressing s))
  else raise .inOverflow 0 (startOperation .decompressing s)

/-- R231, NOP: "no register, flag or buffer changes". -/
def execNop (s : State) : Host.Outcome State Fault Refusal := .next s

/-- R232, COMPRESS; ignored while BUSY (R235). -/
def execCompress (s : State) : Host.Outcome State Fault Refusal :=
  if s.status = .busy then .next s else (startCompress s).outcome

/-- R233, DECOMPRESS; ignored while BUSY (R235). -/
def execDecompress (s : State) : Host.Outcome State Fault Refusal :=
  if s.status = .busy then .next s else (startDecompress s).outcome

end Sys2Proof.Machine
end

