-- ==== Sys2Proof/Machine/Dispatch.lean ====
section
/-! DEFINITION. One arm per instruction. -/

namespace Sys2Proof.Machine

def exec (i : Instr) (s : State) : Host.Outcome State Fault Refusal :=
  match i with
  | .litS length => Sys2Proof.Machine.execLitS length s
  | .litL length => Sys2Proof.Machine.execLitL length s
  | .refS1 distance length => Sys2Proof.Machine.execRefS1 distance length s
  | .refS2 distance length => Sys2Proof.Machine.execRefS2 distance length s
  | .refL1 distance length => Sys2Proof.Machine.execRefL1 distance length s
  | .refL2 distance length => Sys2Proof.Machine.execRefL2 distance length s
  | .nop => Sys2Proof.Machine.execNop s
  | .compress => Sys2Proof.Machine.execCompress s
  | .decompress => Sys2Proof.Machine.execDecompress s

end Sys2Proof.Machine
end

