-- ==== Sys2Proof/Machine/HostPort.lean ====
section
/-! DEFINITION. The host interface but for commands (10_state.md R21 to R27, 43_host_commands.md R238, R245): register reads
and writes, buffer accesses, reset. -/

namespace Sys2Proof.Machine

/-- R21: the registers by number; "Register numbers 6 and above do not exist". -/
def regOfNumber (number : Nat) : Option HostReg :=
  match number with
  | 0 => some .cmd
  | 1 => some .status
  | 2 => some .err
  | 3 => some .errPos
  | 4 => some .inLen
  | 5 => some .outLen
  | _ => none

/-- A LENW-bit value from a free natural. -/
def cutToLenw (lenw : Option Nat) (v : Nat) : Nat :=
  match lenw with
  | none => v
  | some w => v % 2 ^ w

/-- A host read returns `v` and changes nothing of the machine (R21: "no side effect of a read"). -/
def answer (v : Nat) (s : State) : State := { s with reply := some v }

/-- A host read returns an unspecified value: the next free one. -/
def answerUnspecified (v : Nat) (s : State) : State := { s with reply := some v, draws := s.draws + 1 }

/-- R22, R27, R238, R245: what a read of each register returns. CMD reads 0. OUT_LEN is unspecified while BUSY (log 5). -/
def readReg (r : HostReg) (s : State) : State :=
  match r with
  | .cmd => answer 0 s
  | .status => answer (statusCode s.status) s
  | .err => answer (errCode s.err) s
  | .errPos => answer s.errPos s
  | .inLen => answer s.inLen s
  | .outLen =>
    if s.status = .busy then answerUnspecified (cutToLenw s.cfg.lenw (Config.unspecifiedLength s.draws)) s
    else answer s.outLen s

/-- R21: a register read by number. -/
def hostReadReg (number : Nat) (s : State) : Host.Outcome State Fault Refusal :=
  match regOfNumber number with
  | some r => .next (readReg r s)
  | none => .refused .noSuchRegister

/-- R26: IN_LEN; ignored while BUSY; "Any LENW-bit value can be written" (log 10). -/
def hostWriteInLen (v : Nat) (s : State) : Host.Outcome State Fault Refusal :=
  if fitsLenw s.cfg.lenw v then
    if s.status = .busy then .next s else .next { s with inLen := v }
  else .refused .valueTooWide

/-- R61, R245, R301: one byte of IBUF, not while BUSY (log 9); an offset at or above IN_CAP does not exist (log 11). -/
def hostWriteIbuf (offset : Nat) (v : Byte) (s : State) : Host.Outcome State Fault Refusal :=
  if s.status = .busy then .refused .bufferAccessWhileBusy
  else if hasOffset s.cfg.inCap offset then .next { s with ibuf := Memory.write s.ibuf offset v }
  else .fault .noSuchOffset

/-- R63, R245, R301: one byte of OBUF, not while BUSY (log 9). Valid below OUT_LEN in DONE; elsewhere an unspecified byte
(U2; log 4). -/
def hostReadObuf (offset : Nat) (s : State) : Host.Outcome State Fault Refusal :=
  if s.status = .busy then .refused .bufferAccessWhileBusy
  else if hasOffset s.cfg.outCap offset then
    if s.status = .done ∧ offset < s.outLen then .next (answer (obufByte s offset).toNat s)
    else .next (answerUnspecified (Config.unspecifiedByte s.draws).toNat s)
  else .fault .noSuchOffset

/-- R290, R291: reset at any time, in any state; the buffers' contents are unspecified anew (log 3). -/
def applyReset (s : State) : State := State.afterReset s.cfg (s.epoch + 1) s.draws s.inbox s.reply

end Sys2Proof.Machine
end

