-- ==== Sys2Proof/Machine/Engine.lean ====
section
/-! DEFINITION. Whose turn it is and what a turn does (R241): a host access, an engine step, or nothing. Step.lean's step is
`takeTurn`. -/

namespace Sys2Proof.Machine

/-! ## The engine's turn -/

/-- R194, R207, `DecompStep`: decode at RP, then the meaning of the form. A header that does not decode is error entry with
the offset of its tag byte (R131, R135, R136, R260). -/
def decompStep (s : State) : Host.Outcome State Fault Refusal :=
  match decodeChunk (fetchHeader s) with
  | .error cause => .next (errorEntry cause s.rp s)
  | .ok i => exec i s

/-- R165, R166: iterate while I < N, then finish. -/
def compressorTurn (s : State) : Host.Outcome State Fault Refusal :=
  if s.i < s.n then (compStep s).outcome else (compFinish s).outcome

/-- R193, R207, R208: chunk steps while RP < N, the finish exactly at RP = N; RP above N is never reached (log 12). -/
def decompressorTurn (s : State) : Host.Outcome State Fault Refusal :=
  if s.rp < s.n then decompStep s
  else if s.rp = s.n then .next (finishOperation s)
  else .fault .engineStuck

/-- R28, R241: "the step named by MODE and the cursor". When not BUSY "the engine is idle and keeps all host-visible state"
(R280; log 7). -/
def engineTurn (s : State) : Host.Outcome State Fault Refusal :=
  if s.status = .busy then
    match s.mode with
    | .compressing => compressorTurn s
    | .decompressing => decompressorTurn s
    | .none => .fault .engineStuck
  else .next s

/-! ## The host's turn -/

/-- R230, R234: a write of CMD issues the command of its code; code 3 is ignored. -/
def hostWriteCmd (v : Nat) (s : State) : Host.Outcome State Fault Refusal :=
  if v < 4 then
    match decodeCommand (BitVec.ofNat 2 v) with
    | some i => exec i s
    | none => .next s
  else .refused .valueTooWide

/-- R21: a write to a read-only register "is ignored: no state changes". -/
def hostWriteReg (number v : Nat) (s : State) : Host.Outcome State Fault Refusal :=
  match regOfNumber number with
  | some .cmd => hostWriteCmd v s
  | some .inLen => hostWriteInLen v s
  | some .status => .next s
  | some .err => .next s
  | some .errPos => .next s
  | some .outLen => .next s
  | none => .refused .noSuchRegister

/-- One host access, or the engine's turn in its place. -/
def hostTurn (a : HostAction) (s : State) : Host.Outcome State Fault Refusal :=
  match a with
  | .writeIbuf offset value => hostWriteIbuf offset value s
  | .readObuf offset => hostReadObuf offset s
  | .readIbuf _ => .refused .ibufNotReadable
  | .writeReg number value => hostWriteReg number value s
  | .readReg number => hostReadReg number s
  | .reset => .next (applyReset s)
  | .yield => engineTurn s

/-- The next turn: the oldest pending host access, taken off the inbox; with none pending, the engine's (log 6). -/
def takeTurn (s : State) : Host.Outcome State Fault Refusal :=
  match s.inbox with
  | [] => engineTurn s
  | a :: rest => hostTurn a { s with inbox := rest }

/-! ## Placing a word where the next turn runs it (log 17) -/

/-- Write bytes from an offset on. -/
def Memory.writeSeq : Memory → Nat → List Byte → Memory
  | m, _, [] => m
  | m, x, v :: vs => Memory.writeSeq (Memory.write m x v) (x + 1) vs

/-- How many bytes a stream word takes: header and payload of the chunk it decodes to, or all of it. -/
def streamSize (bytes : List Byte) : Nat :=
  match decodeChunk bytes with
  | .ok i => i.headerSize + i.payloadSize
  | .error _ => bytes.length

/-- A chunk is put at RP as the last chunk of a running DECOMPRESS, its payload zeros, and the next turn given to the
engine; a command is put first in the inbox as the write of CMD that issues it. -/
def placeEncoding (e : Encoding) (s : State) : State :=
  match e with
  | .stream bytes =>
    { s with
      status := .busy
      mode := .decompressing
      n := s.rp + streamSize bytes
      ibuf := Memory.writeSeq s.ibuf s.rp
        ((bytes ++ List.replicate (streamSize bytes) 0).take (streamSize bytes))
      inbox := .yield :: s.inbox }
  | .command code => { s with inbox := .writeReg 0 code.toNat :: s.inbox }

end Sys2Proof.Machine
end

