-- ==== Sys2Proof/Machine/Step.lean ====
section
/-! DEFINITION. The step of the machine, and the host's placing of one word where the step fetches. -/

namespace Sys2Proof.Machine

/-- One turn of the host or of the engine (R241). -/
def step (s : State) : Host.Outcome State Fault Refusal := takeTurn s

/-- `s` with the instruction of a table word placed so that the very next step runs it (log 17). -/
def State.withFetchWord (s : State) (nbits w : Nat) : State := placeEncoding (tableEncoding nbits w) s

end Sys2Proof.Machine
end

