-- ==== Sys2Proof/Machine/BigStep.lean ====
section
/-! DEFINITION. The two operations as one function each (R167, R209; D4: "plus a big-step function for each operation that
must agree with them"). Capacity checks are left out, as there. The step machine does not use them; statements compare
the two. -/

namespace Sys2Proof.Machine

/-- R10: `s[k]`, "defined only for 0 <= k < |s|"; no rule reads beyond, so the 0 is never read. -/
def byteAt (s : List Byte) (k : Nat) : Byte := s.getD k 0

/-! ## COMPRESS (R167) -/

/-- R167: "out <- out ++ Encode(c)". -/
def appendChunk (c : ChunkValue) (out : List Byte) : Except Cause (List Byte) :=
  match encodeValue c with
  | .ok bytes => .ok (out ++ bytes)
  | .error cause => .error cause

/-- R167: "if |acc| > 0: out <- out ++ Encode(Literal(acc))". -/
def appendLiteral (acc out : List Byte) : Except Cause (List Byte) :=
  if acc.length > 0 then appendChunk (.literal acc) out else .ok out

/-- R167's loop and the flush after it. `fuel` bounds the iterations; N of them always do (R168). -/
def compressLoop (input : Nat → Byte) (n : Nat) : Nat → Nat → List Byte → List Byte → Except Cause (List Byte)
  | 0, _, acc, out => appendLiteral acc out
  | fuel + 1, i, acc, out =>
    if i < n then
      if qualifies (findMatch input n i).bestLen then
        match appendLiteral acc out with
        | .error cause => .error cause
        | .ok out =>
          match appendChunk (.backRef (findMatch input n i).bestDist (findMatch input n i).bestLen) out with
          | .error cause => .error cause
          | .ok out => compressLoop input n fuel (i + (findMatch input n i).bestLen) [] out
      else if (acc ++ [input i]).length ≥ Config.litMax then
        match appendChunk (.literal (acc ++ [input i])) out with
        | .error cause => .error cause
        | .ok out => compressLoop input n fuel (i + 1) [] out
      else compressLoop input n fuel (i + 1) (acc ++ [input i]) out
    else appendLiteral acc out

/-- R167, `Compress(input, N)`. -/
def compressBytes (input : List Byte) : Except Cause (List Byte) :=
  if input.length = 0 then .error .invalidInput
  else compressLoop (byteAt input) input.length input.length 1 [byteAt input 0] []

/-! ## DECOMPRESS (R209) -/

/-- R209: "for k in 0 .. len: out <- out ++ [ out[base + k] ]". -/
def overlapCopy (base : Nat) : Nat → Nat → List Byte → List Byte
  | 0, _, out => out
  | count + 1, k, out => overlapCopy base count (k + 1) (out ++ [byteAt out (base + k)])

/-- R209, a literal: the payload bound of Decode (R137), then `out ++ input[rp + hdr .. rp + hdr + len)`. -/
def applyLiteralBytes (input : List Byte) (rp header length : Nat) (out : List Byte) : Except Cause (List Byte) :=
  if rp + header + length > input.length then .error .truncPayload
  else .ok (out ++ (input.drop (rp + header)).take length)

/-- R209, a back-reference. -/
def applyRefBytes (distance length : Nat) (out : List Byte) : Except Cause (List Byte) :=
  if distance = 0 ∨ distance > out.length then .error .badDistance
  else .ok (overlapCopy (out.length - distance) length 0 out)

/-- R209: the output after the chunk at `rp`. -/
def applyChunkBytes (i : Instr) (input : List Byte) (rp : Nat) (out : List Byte) : Except Cause (List Byte) :=
  match i with
  | .litS length => applyLiteralBytes input rp 1 length out
  | .litL length => applyLiteralBytes input rp 3 length out
  | .refS1 distance length => applyRefBytes distance length out
  | .refS2 distance length => applyRefBytes distance length out
  | .refL1 distance length => applyRefBytes distance length out
  | .refL2 distance length => applyRefBytes distance length out
  | .nop => .ok out
  | .compress => .ok out
  | .decompress => .ok out

/-- R209's loop. `fuel` bounds the chunks; N of them always do (R210). -/
def decompressLoop (input : List Byte) : Nat → Nat → List Byte → Except Cause (List Byte)
  | 0, _, out => .ok out
  | fuel + 1, rp, out =>
    if rp < input.length then
      match decodeChunk (input.drop rp) with
      | .error cause => .error cause
      | .ok i =>
        match applyChunkBytes i input rp out with
        | .error cause => .error cause
        | .ok out => decompressLoop input fuel (rp + i.headerSize + i.payloadSize) out
    else .ok out

/-- R209, `Decompress(input, N)`. -/
def decompressBytes (input : List Byte) : Except Cause (List Byte) := decompressLoop input input.length 0 []

end Sys2Proof.Machine
end

