-- ==== Sys2Proof/Safety.lean ====
section
/-! DEFINITION. The terms claims are stated in: the invariants of the machine, what a safe run is, what the host can see, and
when two states are at the same point of the same operation. -/

namespace Sys2Proof.Machine

/-! ## Invariants -/

/-- R20, R28 to R35, R141: every register holds a value of its width. -/
structure State.Widths (s : State) : Prop where
  errPos : fitsLenw s.cfg.lenw s.errPos = true
  inLen : fitsLenw s.cfg.lenw s.inLen = true
  outLen : fitsLenw s.cfg.lenw s.outLen = true
  n : fitsLenw s.cfg.lenw s.n = true
  i : fitsLenw s.cfg.lenw s.i = true
  accLen : s.accLen < 2 ^ 16
  acc : s.acc.length < 2 ^ 16
  wstart : fitsLenw s.cfg.lenw s.wstart = true
  p : fitsLenw s.cfg.lenw s.p = true
  len : s.len < 2 ^ 15
  bestLen : s.bestLen < 2 ^ 15
  bestDist : s.bestDist < 2 ^ 15
  rp : fitsLenw s.cfg.lenw s.rp = true
  cLen : s.cLen < 2 ^ 16
  cDist : s.cDist < 2 ^ 15
  cHdr : s.cHdr < 2 ^ 3
  base : fitsLenw s.cfg.lenw s.base = true
  k : s.k < 2 ^ 16

/-- The registers the host sees and the buffers agree with each other. -/
structure State.Coherent (s : State) : Prop where
  /-- R6. -/
  cfg : s.cfg.wf = true
  /-- The canonical form of the buffers. -/
  ibufWf : Memory.wf s.ibuf = true
  obufWf : Memory.wf s.obuf = true
  /-- R37, R71: no cell at an offset the buffer does not have. -/
  ibufCap : ∀ c ∈ s.ibuf, hasOffset s.cfg.inCap c.1 = true
  obufCap : ∀ c ∈ s.obuf, hasOffset s.cfg.outCap c.1 = true
  /-- R28: an engine runs exactly while BUSY. -/
  busyMode : s.status = .busy ↔ s.mode ≠ .none
  /-- R24, R239: a cause stands in ERR exactly after an error. -/
  errStatus : s.status = .error ↔ s.err ≠ .none
  /-- R25: ERR_POS is 0 where no error is recorded. -/
  errPosZero : s.status ≠ .error → s.errPos = 0
  /-- R245: OUT_LEN is 0 in IDLE and ERROR. -/
  outLenZero : s.status = .idle ∨ s.status = .error → s.outLen = 0
  /-- R65: the output fits OBUF. -/
  outLenCap : capAdmits s.cfg.outCap s.outLen = true
  /-- R63, R64: every byte below OUT_LEN has been appended. -/
  outLenWritten : ∀ a < s.outLen, (Memory.read? s.obuf a).isSome = true

/-- R29, R30, R31: the compressor at a loop head. -/
structure State.AtLoopHead (s : State) : Prop where
  iPos : 1 ≤ s.i
  iLe : s.i ≤ s.n
  nCap : capAdmits s.cfg.inCap s.n = true
  accLen : s.acc.length = s.accLen
  accShort : s.accLen < Config.litMax
  accLe : s.accLen ≤ s.i
  /-- R31: "ACC = IBUF[I - ACC_LEN .. I)". -/
  accIs : s.acc = ibufSlice s (s.i - s.accLen) s.accLen

/-- R33: the decompressor at a chunk boundary. -/
structure State.AtChunkBoundary (s : State) : Prop where
  rpLe : s.rp ≤ s.n
  nCap : capAdmits s.cfg.inCap s.n = true

/-- The invariant of the machine. -/
structure State.Inv (s : State) : Prop where
  widths : s.Widths
  coherent : s.Coherent
  compressing : s.mode = .compressing → s.AtLoopHead
  decompressing : s.mode = .decompressing → s.AtChunkBoundary

/-- R172: what the emitted chunks describe is the input before the accumulator. -/
def State.EmittedDescribesInput (s : State) : Prop :=
  decompressBytes (obufSlice s 0 s.outLen) = .ok (ibufSlice s 0 (s.i - s.accLen))

/-! ## Safe runs -/

/-- `k` turns of the machine: the host's own run, its state named as State. -/
def runSteps (k : Nat) (s : State) : Host.Outcome State Fault Refusal := Sys2Proof.core.run k s

/-- No turn of the run stops the machine. -/
def RunsSafely (s : State) : Prop := ∀ k, ∃ t, runSteps k s = .next t

/-- R239: the operation has ended. -/
def State.ended (s : State) : Bool := s.status = .done || s.status = .error

/-- R43: the program counter of the running engine. -/
def State.cursor (s : State) : Nat :=
  match s.mode with
  | .compressing => s.i
  | .decompressing => s.rp
  | .none => 0

/-- R239: the result the host may read after DONE. -/
def State.result (s : State) : List Byte := obufSlice s 0 s.outLen

/-- R8, R240: two states are at the same point of the same operation: the same capacities, the same input below N, the same
output so far, the same cursors and accumulator. Nothing is said of dead registers, of IBUF at or above N, of OBUF at or
above OUT_LEN, or of the host's side. -/
structure SameOperation (s t : State) : Prop where
  cfg : s.cfg = t.cfg
  status : s.status = t.status
  mode : s.mode = t.mode
  err : s.err = t.err
  errPos : s.errPos = t.errPos
  outLen : s.outLen = t.outLen
  n : s.n = t.n
  i : s.mode = .compressing → s.i = t.i
  accLen : s.mode = .compressing → s.accLen = t.accLen
  acc : s.mode = .compressing → s.acc = t.acc
  rp : s.mode = .decompressing → s.rp = t.rp
  input : s.status = .busy → ∀ a < s.n, ibufByte s a = ibufByte t a
  output : ∀ a < s.outLen, obufByte s a = obufByte t a

/-! ## Chunks as values -/

/-- R134: what Decode reports of a chunk: variant, length, distance. -/
def chunkFields : Instr → Option (ChunkKind × Nat × Nat)
  | .litS length => some (.literal, length, 0)
  | .litL length => some (.literal, length, 0)
  | .refS1 distance length => some (.backRef, length, distance)
  | .refS2 distance length => some (.backRef, length, distance)
  | .refL1 distance length => some (.backRef, length, distance)
  | .refL2 distance length => some (.backRef, length, distance)
  | .nop => none
  | .compress => none
  | .decompress => none

/-- R105, R122: the form is the shortest for its values. -/
def minimalForm : Instr → Bool
  | .litS _ => true
  | .litL length => decide (64 ≤ length)
  | .refS1 _ _ => true
  | .refS2 distance _ => decide (128 ≤ distance)
  | .refL1 _ length => decide (64 ≤ length)
  | .refL2 distance length => decide (64 ≤ length) && decide (128 ≤ distance)
  | .nop => true
  | .compress => true
  | .decompress => true

/-- R106: a tag byte with bit 6 set and any of bits 5..0 set. -/
def reservedTagByte (t : Byte) : Bool := bits t 6 6 = 1 && bits t 5 0 ≠ 0

/-- A literal chunk form with its length and header size (R93, R94). -/
def IsLiteral (i : Instr) (length header : Nat) : Prop :=
  (i = .litS length ∧ header = 1) ∨ (i = .litL length ∧ header = 3)

/-- A back-reference form with its fields and header size (R95, R96, R98, R99). -/
def IsBackRef (i : Instr) (distance length header : Nat) : Prop :=
  (i = .refS1 distance length ∧ header = 2) ∨ (i = .refS2 distance length ∧ header = 3) ∨
    (i = .refL1 distance length ∧ header = 4) ∨ (i = .refL2 distance length ∧ header = 5)

/-- R92: how many length bytes follow a legal tag byte. -/
def lengthBytes (t : Byte) : Nat := if bits t 6 6 = 1 then 2 else 0

/-- A decompressor about to take a chunk step (R194), once it has the turn. -/
def State.atChunk (s : State) : Prop := s.status = .busy ∧ s.mode = .decompressing ∧ s.rp < s.n

/-- The engine has the turn in `s`, and takes it in `u`: no host access is pending, or the host passes its turn on and that
entry is taken off the inbox (R241). -/
def EngineHasTurn (s u : State) : Prop :=
  (s.inbox = [] ∧ u = s) ∨ ∃ rest, s.inbox = .yield :: rest ∧ u = { s with inbox := rest }

/-- R262: `t` is `s` after error entry with a cause and a position. The working registers the rule calls dead (I, RP, ACC, the
latched chunk, the matcher and copy registers) and the bytes of OBUF are left open; "Nothing else is saved", and nothing else
changes. -/
def ErrorEntered (cause : Cause) (pos : Nat) (s t : State) : Prop :=
  t = { s with
    err := cause, errPos := pos, outLen := 0, mode := .none, status := .error
    obuf := t.obuf
    i := t.i, acc := t.acc, accLen := t.accLen
    wstart := t.wstart, p := t.p, len := t.len, bestLen := t.bestLen, bestDist := t.bestDist
    rp := t.rp, cKind := t.cKind, cLen := t.cLen, cDist := t.cDist, cHdr := t.cHdr, base := t.base, k := t.k }

/-- The engine is about to take a compressor iteration (R165). -/
def State.atIteration (s : State) : Prop :=
  s.status = .busy ∧ s.mode = .compressing ∧ s.inbox = [] ∧ 1 ≤ s.i ∧ s.i < s.n

/-- R157: the search at I over IBUF. -/
def State.search (s : State) : Search := findMatch (ibufByte s) s.n s.i

/-- The bytes of a literal chunk (R124), none for an empty accumulator (R163). -/
def literalBytes (acc : List Byte) : List Byte := if acc.length = 0 then [] else encLen 0 acc.length ++ acc

/-- The bytes of a back-reference chunk (R125). -/
def backRefBytes (distance length : Nat) : List Byte := encLen 1 length ++ encDist distance

/-- The bytes of a sequence of chunks; a value Encode rejects has none. -/
def encodeAll (chunks : List ChunkValue) : List Byte :=
  chunks.flatMap fun c =>
    match encodeValue c with
    | .ok bytes => bytes
    | .error _ => []

/-- R170: what a chunk the compressor emits looks like. -/
def emittable : ChunkValue → Bool
  | .literal bytes => decide (1 ≤ bytes.length) && decide (bytes.length ≤ Config.litMax)
  | .backRef distance length =>
    decide (Config.minMatch ≤ length) && decide (length ≤ Config.maxLen) && decide (1 ≤ distance) &&
      decide (distance ≤ Config.maxDist)

/-- R170: "no two literal chunks are adjacent unless the first has exactly 65535 bytes". -/
def mayPrecede : ChunkValue → ChunkValue → Prop
  | .literal bytes, .literal _ => bytes.length = Config.litMax
  | .literal _, .backRef _ _ => True
  | .backRef _ _, .literal _ => True
  | .backRef _ _, .backRef _ _ => True

/-- R107, R170: the bytes of output a chunk stands for. -/
def chunkSpan : ChunkValue → Nat
  | .literal bytes => bytes.length
  | .backRef _ length => length

end Sys2Proof.Machine
end

