-- ==== Sys2Proof/Certificates/Slice0/Obligations.lean ====
section
/-! DEFINITION. The statements for the provers, in the order of OBLIGATIONS.json: encoding, the six chunk forms, the three
commands, the step, the compressor, the host port, whole-machine rules, the two operations as a whole. Where a clause
would rest on a choice of the model's own (a dead register's value, OBUF after an error), the statement leaves it open
(`:= t.…`, `ErrorEntered`). One choice is not left open: where a statement gives the whole next state, or says that every
byte of OBUF outside those stored stays, this includes the bytes at and above OUT_LEN, which R63 calls unspecified at all
times and the model keeps (log 24); such a clause cites no rule. Free values are never
named: a statement holds for every value of them. -/

open Sys2Proof Sys2Proof.Machine

/-! ## Encoding -/

/-- Decoding an instruction's encoding, whatever follows it in the stream, gives the instruction back, for every
well-formed instruction (30_encoding.md sections 3 and 4; R22 for the commands). -/
def Obligations.DecodeOfEncodeIsIdentity : Prop :=
  ∀ (i : Instr) (rest : List Byte), WellFormed i = true → decode ((encode i).followedBy rest) = .ok i

/-- The other direction: a chunk header has one meaning. What decodes is well formed, and its header bytes are its
encoding, so no two headers of different bytes decode alike as forms (R103, R110). -/
def Obligations.DecodedHeaderIsItsEncoding : Prop :=
  ∀ (bytes : List Byte) (i : Instr), decodeChunk bytes = .ok i →
    WellFormed i = true ∧ i.headerSize ≤ bytes.length ∧ encode i = .stream (bytes.take i.headerSize)

/-- Headers and codes written out from the encodings of R93 to R99 and R230 decode to their instructions. -/
def Obligations.WrittenOutWordsDecode : Prop :=
  decodeChunk [0b00000011, 0x61, 0x62, 0x63] = .ok (.litS 3) ∧
  decodeChunk [0b01000000, 0b00000001, 0b00000000] = .ok (.litL 256) ∧
  decodeChunk [0b10001001, 0b00000001] = .ok (.refS1 1 9) ∧
  decodeChunk [0b10000111, 0b10000000, 0b10000000] = .ok (.refS2 128 7) ∧
  decodeChunk [0b11000000, 0b00000001, 0b00101100, 0b01100100] = .ok (.refL1 100 300) ∧
  decodeChunk [0b11000000, 0b00000011, 0b11101000, 0b10000001, 0b00101100] = .ok (.refL2 300 1000) ∧
  decodeCommand 0 = some .nop ∧ decodeCommand 1 = some .compress ∧ decodeCommand 2 = some .decompress

/-- R127: Encode raises ENCODING_RANGE exactly for a back-reference with distance 0 or above 32767 or a length above 65535,
and for a literal longer than 65535. -/
def Obligations.EncodeChecksItsRange : Prop :=
  (∀ distance length, encodeValue (.backRef distance length) = .error .encodingRange ↔
    (distance = 0 ∨ distance > 32767 ∨ length > 65535)) ∧
  (∀ bytes, encodeValue (.literal bytes) = .error .encodingRange ↔ bytes.length > 65535) ∧
  ∀ c cause, encodeValue c = .error cause → cause = .encodingRange

/-- R139: decoding what Encode spelled, followed by anything, reports exactly the chunk; header and payload are all of it. The
converse fails: every spelling in non-minimal form (R105), header and payload, is accepted, and Encode never produces it; and
there is one. -/
def Obligations.DecodeOfEncodedValueReportsIt : Prop :=
  (∀ (c : ChunkValue) (spelled rest : List Byte), encodeValue c = .ok spelled →
    ∃ i, decodeChunk (spelled ++ rest) = .ok i ∧ i.headerSize + i.payloadSize = spelled.length ∧
      match c with
      | .literal b =>
        chunkFields i = some (.literal, b.length, 0) ∧ ((spelled ++ rest).drop i.headerSize).take i.payloadSize = b
      | .backRef d l => chunkFields i = some (.backRef, l, d)) ∧
  (∀ (i : Instr) (header payload : List Byte), WellFormed i = true → minimalForm i = false → encode i = .stream header →
    payload.length = i.payloadSize →
    decodeChunk (header ++ payload) = .ok i ∧ ∀ c, encodeValue c ≠ .ok (header ++ payload)) ∧
  ∃ spelling i, decodeChunk spelling = .ok i ∧ i.headerSize + i.payloadSize = spelling.length ∧ minimalForm i = false

/-- R122: what Encode spells is in minimal form and its tag byte is not reserved. -/
def Obligations.EncodeIsMinimal : Prop :=
  ∀ (c : ChunkValue) (spelled : List Byte), encodeValue c = .ok spelled →
    (∃ tag tail, spelled = tag :: tail ∧ reservedTagByte tag = false) ∧
    ∀ i, decodeChunk spelled = .ok i → minimalForm i = true

/-- R128: the encoded size as a function of the chunk. -/
def Obligations.EncodedSizes : Prop :=
  (∀ b spelled, encodeValue (.literal b) = .ok spelled →
    spelled.length = if b.length ≤ 63 then 1 + b.length else 3 + b.length) ∧
  ∀ d l spelled, encodeValue (.backRef d l) = .ok spelled →
    spelled.length =
      if l ≤ 63 then (if d ≤ 127 then 2 else 3) else (if d ≤ 127 then 4 else 5)

/-! ## The six chunk forms -/

/-- R202, R137, R206, R195 for LIT.S (R196) and LIT.L (R197): the payload bound, then the capacity, then the copy and the
advance of RP. A chunk that is applied: the whole next state; OBUF above the bytes appended stays by the model's choice
(log 24). An error: R262's, its dead registers and OBUF left open. -/
def Obligations.LiteralChunkEffect : Prop :=
  ∀ (i : Instr) (length header : Nat) (s : State), IsLiteral i length header →
    if s.rp + header + length > s.n then
      ∃ t, exec i s = .next t ∧ ErrorEntered .truncPayload s.rp s t
    else if capAdmits s.cfg.outCap (s.outLen + length) = false then
      ∃ t, exec i s = .next t ∧ ErrorEntered .outOverflow s.rp s t
    else
      ∃ t, exec i s = .next t ∧
        t = { s with rp := s.rp + header + length, outLen := s.outLen + length, obuf := t.obuf,
                     cKind := .literal, cLen := length, cDist := 0, cHdr := header, k := t.k } ∧
        (∀ j < length, obufByte t (s.outLen + j) = ibufByte s (s.rp + header + j)) ∧
        ∀ a, (a < s.outLen ∨ s.outLen + length ≤ a) → obufByte t a = obufByte s a

/-- R203, R204, R205, R206, R195 for REF.S1, REF.S2, REF.L1 and REF.L2 (R198 to R201): the distance check, then the capacity,
then the periodic copy and the advance of RP past the header. A chunk that is applied: the whole next state; OBUF above the
bytes appended stays by the model's choice (log 24). An error: R262's, its dead registers and OBUF left open. -/
def Obligations.BackReferenceEffect : Prop :=
  ∀ (i : Instr) (distance length header : Nat) (s : State), IsBackRef i distance length header →
    if distance = 0 ∨ distance > s.outLen then
      ∃ t, exec i s = .next t ∧ ErrorEntered .badDistance s.rp s t
    else if capAdmits s.cfg.outCap (s.outLen + length) = false then
      ∃ t, exec i s = .next t ∧ ErrorEntered .outOverflow s.rp s t
    else
      ∃ t, exec i s = .next t ∧
        t = { s with rp := s.rp + header, outLen := s.outLen + length, obuf := t.obuf,
                     cKind := .backRef, cLen := length, cDist := distance, cHdr := header,
                     base := s.outLen - distance, k := t.k } ∧
        (∀ j < length, obufByte t (s.outLen + j) = obufByte s (s.outLen - distance + j % distance)) ∧
        ∀ a, (a < s.outLen ∨ s.outLen + length ≤ a) → obufByte t a = obufByte s a

/-- R204, R300: every byte a back-reference appends equals the output byte `distance` before it in the output as it ends,
so a later byte of the copy sees an earlier one. -/
def Obligations.CopySeesItsOwnOutput : Prop :=
  ∀ (i : Instr) (distance length header : Nat) (s t : State), IsBackRef i distance length header →
    exec i s = .next t → t.rp ≠ s.rp →
    ∀ j < length, obufByte t (s.outLen + j) = obufByte t (s.outLen + j - distance)

/-- R105, R213 (derived): the spelling of a back-reference does not matter. Two forms with the same fields, in one state, end
alike for the host and leave the same output. -/
def Obligations.SpellingDoesNotMatter : Prop :=
  ∀ (i i' : Instr) (distance length header header' : Nat) (s t t' : State),
    IsBackRef i distance length header → IsBackRef i' distance length header' →
    exec i s = .next t → exec i' s = .next t' →
    t.status = t'.status ∧ t.err = t'.err ∧ t.errPos = t'.errPos ∧ t.outLen = t'.outLen ∧
      ∀ a < t.outLen, obufByte t a = obufByte t' a

/-! ## The three commands -/

/-- R231: NOP changes nothing, in every STATUS. -/
def Obligations.NopChangesNothing : Prop := ∀ s : State, exec .nop s = .next s

/-- R232, R254, R259: COMPRESS when not BUSY: IN_OVERFLOW, then INVALID_INPUT, then the start; N is latched in each case. A
start that is accepted: the whole next state; OBUF, unspecified there (R63), stays by the model's choice (log 24). An
error: R262's, its dead registers and OBUF left open. -/
def Obligations.CompressStarts : Prop :=
  ∀ s : State, s.status ≠ .busy →
    if capAdmits s.cfg.inCap s.inLen = false then
      ∃ t, exec .compress s = .next t ∧ ErrorEntered .inOverflow 0 { s with n := s.inLen } t
    else if s.inLen = 0 then
      ∃ t, exec .compress s = .next t ∧ ErrorEntered .invalidInput 0 { s with n := s.inLen } t
    else
      exec .compress s = .next
        { s with err := .none, errPos := 0, outLen := 0, n := s.inLen, status := .busy, mode := .compressing,
                 acc := [ibufByte s 0], accLen := 1, i := 1 }

/-- R233: DECOMPRESS when not BUSY: IN_OVERFLOW, then the start; an empty stream is no error; N is latched in each case. A
start that is accepted: the whole next state; OBUF, unspecified there (R63), stays by the model's choice (log 24). An
error: R262's, its dead registers and OBUF left open. -/
def Obligations.DecompressStarts : Prop :=
  ∀ s : State, s.status ≠ .busy →
    if capAdmits s.cfg.inCap s.inLen = false then
      ∃ t, exec .decompress s = .next t ∧ ErrorEntered .inOverflow 0 { s with n := s.inLen } t
    else
      exec .decompress s = .next
        { s with err := .none, errPos := 0, outLen := 0, n := s.inLen, status := .busy, mode := .decompressing,
                 rp := 0 }

/-- R235, R231, R234: while BUSY a write of any code to CMD changes nothing; the access itself is taken off the inbox. -/
def Obligations.BusyIgnoresCommands : Prop :=
  ∀ (s : State) (v : Nat) (rest : List HostAction), s.status = .busy → v < 4 → s.inbox = .writeReg 0 v :: rest →
    step s = .next { s with inbox := rest }

/-! ## The step -/

/-- When the stream from RP on decodes to `i`, the step is exec of `i` (R194, R207): the fetch reads at RP, below N only. With
the host's turn passed on (`yield`), the same after that entry is taken off the inbox. -/
def Obligations.StepRunsDecodedChunk : Prop :=
  ∀ (s : State) (i : Instr), s.status = .busy → s.mode = .decompressing → s.rp < s.n →
    decodeChunk (ibufSlice s s.rp (s.n - s.rp)) = .ok i →
    (s.inbox = [] → step s = exec i s) ∧
    ∀ rest, s.inbox = .yield :: rest → step s = exec i { s with inbox := rest }

/-- R230, R234: a host write of CMD runs the command of its code; code 3 runs none. -/
def Obligations.StepIssuesCommand : Prop :=
  ∀ (s : State) (rest : List HostAction),
    (s.inbox = .writeReg 0 0 :: rest → step s = exec .nop { s with inbox := rest }) ∧
    (s.inbox = .writeReg 0 1 :: rest → step s = exec .compress { s with inbox := rest }) ∧
    (s.inbox = .writeReg 0 2 :: rest → step s = exec .decompress { s with inbox := rest }) ∧
    (s.inbox = .writeReg 0 3 :: rest → step s = .next { s with inbox := rest })

/-- R131, R256: where the decompressor has the turn and the tag byte at RP is reserved, the step is error entry with
RESERVED_TAG at its offset, whatever follows it. `u` is `s` with a passed turn taken off the inbox. -/
def Obligations.ReservedTagEndsTheOperation : Prop :=
  ∀ s u : State, EngineHasTurn s u → u.atChunk → reservedTagByte (ibufByte u u.rp) = true →
    ∃ t, step s = .next t ∧ ErrorEntered .reservedTag u.rp u t

/-- R135, R136: where the decompressor has the turn and the header at RP runs out of bytes below N, the step is error entry
with TRUNC_HEADER at the tag's offset. `u` is `s` with a passed turn taken off the inbox. -/
def Obligations.TruncatedHeaderEndsTheOperation : Prop :=
  ∀ s u : State, EngineHasTurn s u → u.atChunk → reservedTagByte (ibufByte u u.rp) = false →
    ((bits (ibufByte u u.rp) 6 6 = 1 ∧ u.rp + 3 > u.n) ∨
      (bits (ibufByte u u.rp) 7 7 = 1 ∧
        (u.rp + 1 + lengthBytes (ibufByte u u.rp) + 1 > u.n ∨
          (bits (ibufByte u (u.rp + 1 + lengthBytes (ibufByte u u.rp))) 7 7 = 1 ∧
            u.rp + 1 + lengthBytes (ibufByte u u.rp) + 2 > u.n)))) →
    ∃ t, step s = .next t ∧ ErrorEntered .truncHeader u.rp u t

/-- The other half of R135 and R136 (derived): a header that is all below N, its tag not reserved, decodes. -/
def Obligations.WholeHeaderDecodes : Prop :=
  ∀ s : State, s.rp < s.n → reservedTagByte (ibufByte s s.rp) = false →
    s.rp + 1 + lengthBytes (ibufByte s s.rp) ≤ s.n →
    (bits (ibufByte s s.rp) 7 7 = 1 →
      s.rp + 1 + lengthBytes (ibufByte s s.rp) + 1 ≤ s.n ∧
        (bits (ibufByte s (s.rp + 1 + lengthBytes (ibufByte s s.rp))) 7 7 = 1 →
          s.rp + 1 + lengthBytes (ibufByte s s.rp) + 2 ≤ s.n)) →
    ∃ i, decodeChunk (ibufSlice s s.rp (s.n - s.rp)) = .ok i

/-- R208: at RP = N the operation ends DONE, and nothing else changes; OBUF at and above OUT_LEN by the model's choice
(log 24). -/
def Obligations.DecompressFinishes : Prop :=
  ∀ s : State, s.status = .busy → s.mode = .decompressing → s.inbox = [] → s.rp = s.n →
    step s = .next { s with mode := .none, status := .done }

/-! ## The compressor -/

/-- R155: the match length is the longest common prefix at P and I, capped at 32767 and at N - I. -/
def Obligations.MatchLenIsCommonPrefix : Prop :=
  ∀ (input : Nat → Byte) (n p i : Nat), p < i → i < n →
    matchLen input n p i ≤ 32767 ∧ i + matchLen input n p i ≤ n ∧
    (∀ j < matchLen input n p i, input (p + j) = input (i + j)) ∧
    (matchLen input n p i = 32767 ∨ i + matchLen input n p i = n ∨
      input (p + matchLen input n p i) ≠ input (i + matchLen input n p i))

/-- R157: BEST_LEN is the greatest match length over the window, BEST_DIST the distance of the first candidate that has it;
with no match both are 0. -/
def Obligations.FindMatchIsFirstLongest : Prop :=
  ∀ (input : Nat → Byte) (n i : Nat), 1 ≤ i → i < n →
    (∀ p, i - 32767 ≤ p → p < i → matchLen input n p i ≤ (findMatch input n i).bestLen) ∧
    ((findMatch input n i).bestLen = 0 → (findMatch input n i).bestDist = 0) ∧
    (1 ≤ (findMatch input n i).bestLen →
      ∃ p, i - 32767 ≤ p ∧ p < i ∧ (findMatch input n i).bestDist = i - p ∧
        matchLen input n p i = (findMatch input n i).bestLen ∧
        ∀ q, i - 32767 ≤ q → q < p → matchLen input n q i < matchLen input n p i)

/-- R161: below the threshold of R159 and of R162, one input byte joins the accumulator and I moves by 1; nothing else
changes, OBUF at and above OUT_LEN by the model's choice (log 24). -/
def Obligations.LiteralStepEffect : Prop :=
  ∀ s : State, s.atIteration → s.search.bestLen ≤ 6 → s.accLen + 1 < 65535 →
    ∃ t, step s = .next t ∧
      t = { s with acc := s.acc ++ [ibufByte s s.i], accLen := s.accLen + 1, i := s.i + 1,
                   wstart := t.wstart, p := t.p, len := t.len, bestLen := s.search.bestLen,
                   bestDist := s.search.bestDist }

/-- R162, R163: the literal step that fills the accumulator to 65535 bytes flushes it at once as one LIT.L chunk.
OBUF above the bytes appended stays by the model's choice (log 24). -/
def Obligations.SizeFlushEffect : Prop :=
  ∀ s : State, s.atIteration → s.search.bestLen ≤ 6 → s.accLen + 1 = 65535 → s.acc.length = s.accLen →
    capAdmits s.cfg.outCap (s.outLen + (s.accLen + 4)) = true →
    ∃ t, step s = .next t ∧
      t = { s with acc := [], accLen := 0, i := s.i + 1, outLen := s.outLen + (s.accLen + 4), obuf := t.obuf,
                   wstart := t.wstart, p := t.p, len := t.len, bestLen := s.search.bestLen,
                   bestDist := s.search.bestDist } ∧
      obufSlice t s.outLen (s.accLen + 4) = [0x40, 0xFF, 0xFF] ++ s.acc ++ [ibufByte s s.i] ∧
      ∀ a, (a < s.outLen ∨ s.outLen + (s.accLen + 4) ≤ a) → obufByte t a = obufByte s a

/-- R160, R164: a qualifying match flushes a non-empty accumulator, emits the back-reference after it and moves I by the
match length; all in OBUF order. OBUF above the bytes appended stays by the model's choice (log 24). -/
def Obligations.MatchStepEffect : Prop :=
  ∀ s : State, s.atIteration → 7 ≤ s.search.bestLen → s.acc.length = s.accLen → s.accLen ≤ 65535 →
    let spelled := literalBytes s.acc ++ backRefBytes s.search.bestDist s.search.bestLen
    capAdmits s.cfg.outCap (s.outLen + spelled.length) = true →
    ∃ t, step s = .next t ∧
      t = { s with acc := [], accLen := 0, i := s.i + s.search.bestLen, outLen := s.outLen + spelled.length,
                   obuf := t.obuf, wstart := t.wstart, p := t.p, len := t.len, bestLen := s.search.bestLen,
                   bestDist := s.search.bestDist } ∧
      obufSlice t s.outLen spelled.length = spelled ∧
      ∀ a, (a < s.outLen ∨ s.outLen + spelled.length ≤ a) → obufByte t a = obufByte s a

/-- R257, R163, R164 in a match step: where its chunks do not all fit below OUT_CAP the operation ends with OUT_OVERFLOW and
ERR_POS is I at the start of the iteration. -/
def Obligations.MatchStepOverflows : Prop :=
  ∀ s : State, s.atIteration → 7 ≤ s.search.bestLen → s.acc.length = s.accLen → s.accLen ≤ 65535 →
    capAdmits s.cfg.outCap
      (s.outLen + (literalBytes s.acc ++ backRefBytes s.search.bestDist s.search.bestLen).length) = false →
    ∃ t, step s = .next t ∧ t.status = .error ∧ t.err = .outOverflow ∧ t.errPos = s.i ∧ t.outLen = 0 ∧ t.mode = .none

/-- R162, R163, R257: a size flush that does not fit ends the operation with OUT_OVERFLOW at I as the iteration began
(the model's reading against R25's wording, log 13); the final flush (R166) ends it so at N. -/
def Obligations.FlushOverflows : Prop :=
  (∀ s : State, s.atIteration → s.search.bestLen ≤ 6 → s.accLen + 1 = 65535 → s.acc.length = s.accLen →
    capAdmits s.cfg.outCap (s.outLen + (s.accLen + 4)) = false →
    ∃ t, step s = .next t ∧ t.status = .error ∧ t.err = .outOverflow ∧ t.errPos = s.i ∧ t.outLen = 0 ∧ t.mode = .none) ∧
  ∀ s : State, s.status = .busy → s.mode = .compressing → s.inbox = [] → s.i = s.n → s.acc.length = s.accLen →
    1 ≤ s.accLen → s.accLen ≤ 65535 → capAdmits s.cfg.outCap (s.outLen + (literalBytes s.acc).length) = false →
    ∃ t, step s = .next t ∧ t.status = .error ∧ t.err = .outOverflow ∧ t.errPos = s.n ∧ t.outLen = 0 ∧ t.mode = .none

/-- R166: at I = N the accumulator is flushed if it holds anything, and the operation ends DONE. OBUF above the bytes appended
stays by the model's choice (log 24). -/
def Obligations.CompressFinishes : Prop :=
  ∀ s : State, s.status = .busy → s.mode = .compressing → s.inbox = [] → s.i = s.n → s.acc.length = s.accLen →
    s.accLen ≤ 65535 → capAdmits s.cfg.outCap (s.outLen + (literalBytes s.acc).length) = true →
    ∃ t, step s = .next t ∧
      t = { s with acc := [], accLen := 0, outLen := s.outLen + (literalBytes s.acc).length, obuf := t.obuf,
                   mode := .none, status := .done } ∧
      obufSlice t s.outLen (literalBytes s.acc).length = literalBytes s.acc ∧
      ∀ a, (a < s.outLen ∨ s.outLen + (literalBytes s.acc).length ≤ a) → obufByte t a = obufByte s a

/-- R171: the only errors COMPRESS can end with are INVALID_INPUT and IN_OVERFLOW at the start and OUT_OVERFLOW at an emit;
never ENCODING_RANGE. -/
def Obligations.CompressErrors : Prop :=
  (∀ s t : State, s.Inv → s.status = .busy → s.mode = .compressing → engineTurn s = .next t →
    t.err = .none ∨ t.err = .outOverflow) ∧
  ∀ s t : State, s.status ≠ .busy → exec .compress s = .next t →
    t.err = .none ∨ t.err = .invalidInput ∨ t.err = .inOverflow

/-- R211: the errors DECOMPRESS can end with. -/
def Obligations.DecompressErrors : Prop :=
  (∀ s t : State, s.Inv → s.status = .busy → s.mode = .decompressing → engineTurn s = .next t →
    t.err = .none ∨ t.err = .reservedTag ∨ t.err = .truncHeader ∨ t.err = .truncPayload ∨ t.err = .badDistance ∨
      t.err = .outOverflow) ∧
  ∀ s t : State, s.status ≠ .busy → exec .decompress s = .next t → t.err = .none ∨ t.err = .inOverflow

/-! ## The host port -/

/-- R22, R24 to R27, R238: what the host reads from each register; a read changes nothing of the machine. OUT_LEN while BUSY
is some value, unspecified. -/
def Obligations.HostRegisterReads : Prop :=
  ∀ (s : State) (rest : List HostAction),
    (s.inbox = .readReg 0 :: rest → step s = .next { s with inbox := rest, reply := some 0 }) ∧
    (s.inbox = .readReg 1 :: rest → step s = .next { s with inbox := rest, reply := some (statusCode s.status) }) ∧
    (s.inbox = .readReg 2 :: rest → step s = .next { s with inbox := rest, reply := some (errCode s.err) }) ∧
    (s.inbox = .readReg 3 :: rest → step s = .next { s with inbox := rest, reply := some s.errPos }) ∧
    (s.inbox = .readReg 4 :: rest → step s = .next { s with inbox := rest, reply := some s.inLen }) ∧
    (s.inbox = .readReg 5 :: rest → s.status ≠ .busy →
      step s = .next { s with inbox := rest, reply := some s.outLen }) ∧
    (s.inbox = .readReg 5 :: rest → s.status = .busy →
      ∃ v t, step s = .next t ∧ t = { s with inbox := rest, reply := some v, draws := t.draws } ∧
        ∀ w, s.cfg.lenw = some w → v < 2 ^ w)

/-- R21, R26: writes of STATUS, ERR, ERR_POS and OUT_LEN are ignored; IN_LEN takes a value of its width when not BUSY and
ignores it while BUSY. -/
def Obligations.HostRegisterWrites : Prop :=
  ∀ (s : State) (r v : Nat) (rest : List HostAction), s.inbox = .writeReg r v :: rest →
    ((r = 1 ∨ r = 2 ∨ r = 3 ∨ r = 5) → step s = .next { s with inbox := rest }) ∧
    (r = 4 → fitsLenw s.cfg.lenw v = true → s.status ≠ .busy → step s = .next { s with inbox := rest, inLen := v }) ∧
    (r = 4 → fitsLenw s.cfg.lenw v = true → s.status = .busy → step s = .next { s with inbox := rest })

/-- R61, R62: a host write of IBUF when not BUSY: the byte reads back, every other byte and all else stay, the canonical form
is kept. -/
def Obligations.HostLoadsInput : Prop :=
  ∀ (s : State) (a : Nat) (v : Byte) (rest : List HostAction), s.inbox = .writeIbuf a v :: rest →
    s.status ≠ .busy → hasOffset s.cfg.inCap a = true →
    ∃ t, step s = .next t ∧ t = { s with inbox := rest, ibuf := t.ibuf } ∧ ibufByte t a = v ∧
      (∀ b, b ≠ a → ibufByte t b = ibufByte s b) ∧ (Memory.wf s.ibuf = true → Memory.wf t.ibuf = true)

/-- R63, R245: in DONE the host reads the result's bytes. -/
def Obligations.HostReadsResult : Prop :=
  ∀ (s : State) (a : Nat) (rest : List HostAction), s.inbox = .readObuf a :: rest →
    s.status = .done → a < s.outLen → hasOffset s.cfg.outCap a = true →
    step s = .next { s with inbox := rest, reply := some (obufByte s a).toNat }

/-- What the host may not do (R301 with U3 and U4, R21 with U6, R245 with U14) is refused by name, and an offset that does not
exist (R71) faults. The treatment is the spec's for the refusals and the model's choice for the fault (log 11). -/
def Obligations.OutsideTheInterface : Prop :=
  ∀ (s : State) (a v : Nat) (b : Byte) (rest : List HostAction),
    (s.inbox = .writeIbuf a b :: rest → s.status = .busy → step s = .refused .bufferAccessWhileBusy) ∧
    (s.inbox = .readObuf a :: rest → s.status = .busy → step s = .refused .bufferAccessWhileBusy) ∧
    (s.inbox = .readIbuf a :: rest → step s = .refused .ibufNotReadable) ∧
    (s.inbox = .writeReg (a + 6) v :: rest → step s = .refused .noSuchRegister) ∧
    (s.inbox = .readReg (a + 6) :: rest → step s = .refused .noSuchRegister) ∧
    (s.inbox = .writeIbuf a b :: rest → s.status ≠ .busy → hasOffset s.cfg.inCap a = false →
      step s = .fault .noSuchOffset) ∧
    (s.inbox = .readObuf a :: rest → s.status ≠ .busy → hasOffset s.cfg.outCap a = false →
      step s = .fault .noSuchOffset)

/-- R290, R40, R291: reset in any state, also while BUSY, gives the specified registers their reset values; nothing runs
after it until the host acts. -/
def Obligations.ResetFromAnyState : Prop :=
  ∀ (s : State) (rest : List HostAction), s.inbox = .reset :: rest →
    ∃ t, step s = .next t ∧ t.status = .idle ∧ t.err = .none ∧ t.errPos = 0 ∧ t.inLen = 0 ∧ t.outLen = 0 ∧
      t.mode = .none ∧ t.cfg = s.cfg ∧ t.inbox = rest ∧ (rest = [] → step t = .next t)

/-! ## Whole-machine rules -/

/-- R23: the codes of STATUS, and its only transitions. A start that an error ends at once passes through BUSY inside one
indivisible action (R232), so a step can go from IDLE, DONE or ERROR to ERROR. -/
def Obligations.StatusTransitions : Prop :=
  (statusCode .idle = 0 ∧ statusCode .busy = 1 ∧ statusCode .done = 2 ∧ statusCode .error = 3) ∧
  ∀ s t : State, step s = .next t →
    t.status = s.status ∨
    (s.status ≠ .busy ∧ (t.status = .busy ∨ t.status = .error) ∧
      ∃ rest, s.inbox = .writeReg 0 1 :: rest ∨ s.inbox = .writeReg 0 2 :: rest) ∨
    (s.status = .busy ∧ (t.status = .done ∨ t.status = .error)) ∨
    (t.status = .idle ∧ ∃ rest, s.inbox = .reset :: rest)

/-- R61, R26 (derived): no operation writes IBUF or IN_LEN; only the host's own writes and reset change them, and nothing
changes the configuration. -/
def Obligations.OnlyTheHostChangesInput : Prop :=
  ∀ s t : State, step s = .next t →
    t.cfg = s.cfg ∧
    (t.ibuf = s.ibuf ∧ t.epoch = s.epoch ∨ (∃ a v rest, s.inbox = .writeIbuf a v :: rest) ∨
      ∃ rest, s.inbox = .reset :: rest) ∧
    (t.inLen = s.inLen ∨ (∃ v rest, s.inbox = .writeReg 4 v :: rest) ∨ ∃ rest, s.inbox = .reset :: rest)

/-- R65: an engine step appends and rewrites nothing below OUT_LEN, and OUT_LEN falls only at error entry. -/
def Obligations.OutputIsAppendOnly : Prop :=
  ∀ s t : State, engineTurn s = .next t →
    (s.outLen ≤ t.outLen ∧ ∀ a < s.outLen, obufByte t a = obufByte s a) ∨ (t.status = .error ∧ t.outLen = 0)

/-- R262, R260, R257: where a step ends in ERROR that was not there before, ERR names a cause, OUT_LEN and MODE are 0, and
ERR_POS is the running engine's cursor as the step began, or 0 for an error at the start. For a size flush that overflows
this is the model's reading (log 13): R25's wording, "the value of I when the error was raised", would give one more there,
R165, R257 and R260 give I at the start of the iteration. -/
def Obligations.ErrorEntryState : Prop :=
  ∀ s t : State, s.Inv → step s = .next t → t.status = .error → s.status ≠ .error →
    t.err ≠ .none ∧ t.outLen = 0 ∧ t.mode = .none ∧ t.errPos = s.cursor

/-- R241: "The engine is never blocked": in every state of the invariant with no host access pending, a step answers a next
state. -/
def Obligations.EngineIsNeverBlocked : Prop := ∀ s : State, s.Inv → s.inbox = [] → ∃ t, step s = .next t

/-- R168, R210 (derived): a step of a running operation that does not end it moves its cursor up, not beyond N. -/
def Obligations.CursorAdvances : Prop :=
  ∀ s t : State, s.Inv → s.status = .busy → engineTurn s = .next t → t.status = .busy →
    t.mode = s.mode ∧ t.n = s.n ∧ s.cursor < t.cursor ∧ t.cursor ≤ t.n

/-- R241, R168, R210: a running operation ends DONE or ERROR within N - cursor + 1 engine steps. -/
def Obligations.OperationEnds : Prop :=
  ∀ s : State, s.Inv → s.status = .busy → s.inbox = [] →
    ∃ k t, k ≤ s.n - s.cursor + 1 ∧ runSteps k s = .next t ∧ t.ended = true

/-- The invariant holds after reset. The values of the registers R40 calls unspecified are the model's (log 2). -/
def Obligations.ResetMeetsInvariant : Prop := State.reset.Inv

/-- Every step keeps the invariant: register widths (R141), canonical buffers, STATUS with MODE, ERR and OUT_LEN (R23 to R28),
ACC as the input before the cursor (R31), cursors not beyond N (R43). -/
def Obligations.StepKeepsInvariant : Prop := ∀ s t : State, s.Inv → step s = .next t → t.Inv

/-- R240: an engine step depends on the operation's own state only: from two states at the same point of the same operation,
whatever else they hold, the steps lead to two states at the same point again. -/
def Obligations.EngineDependsOnTheOperationOnly : Prop :=
  ∀ s t s' : State, SameOperation s t → engineTurn s = .next s' →
    ∃ t', engineTurn t = .next t' ∧ SameOperation s' t'

/-- R240, R39, R41: a command's start forgets the past: with the same capacities, IN_LEN and input below it, the operation
starts at the same point whatever happened before. -/
def Obligations.StartForgetsThePast : Prop :=
  ∀ (i : Instr) (s t s' : State), (i = .compress ∨ i = .decompress) → s.status ≠ .busy → t.status ≠ .busy →
    s.cfg = t.cfg → s.inLen = t.inLen → (∀ a < s.inLen, ibufByte s a = ibufByte t a) →
    exec i s = .next s' → ∃ t', exec i t = .next t' ∧ SameOperation s' t'

/-! ## The operations as a whole -/

/-- R209: an accepted DECOMPRESS, run to its end, gives what the whole-operation function gives; only OUT_OVERFLOW, which that
function leaves out, can come between, and only where OUT_CAP is finite. -/
def Obligations.DecompressRunIsDecompress : Prop :=
  ∀ s s' : State, s.status ≠ .busy → s.inbox = [] → capAdmits s.cfg.inCap s.inLen = true →
    exec .decompress s = .next s' →
    ∃ k t, runSteps k s' = .next t ∧ t.ended = true ∧
      ((s.cfg.outCap ≠ none ∧ t.err = .outOverflow) ∨
        match decompressBytes (ibufSlice s 0 s.inLen) with
        | .ok out => t.status = .done ∧ t.result = out
        | .error cause => t.status = .error ∧ t.err = cause)

/-- R167: the same for COMPRESS. -/
def Obligations.CompressRunIsCompress : Prop :=
  ∀ s s' : State, s.status ≠ .busy → s.inbox = [] → capAdmits s.cfg.inCap s.inLen = true → s.inLen ≠ 0 →
    exec .compress s = .next s' →
    ∃ k t, runSteps k s' = .next t ∧ t.ended = true ∧
      ((s.cfg.outCap ≠ none ∧ t.err = .outOverflow) ∨
        match compressBytes (ibufSlice s 0 s.inLen) with
        | .ok out => t.status = .done ∧ t.result = out
        | .error cause => t.status = .error ∧ t.err = cause)

/-- R172: at every loop head the chunks emitted so far describe the input before the accumulator; so at the end they describe
all of it. It holds at the start of COMPRESS and every engine step keeps it. -/
def Obligations.EmittedChunksDescribeInput : Prop :=
  (∀ s t : State, s.status ≠ .busy → exec .compress s = .next t → t.status = .busy → t.EmittedDescribesInput) ∧
  ∀ s t : State, s.Inv → s.mode = .compressing → s.EmittedDescribesInput → engineTurn s = .next t →
    t.status ≠ .error → t.EmittedDescribesInput

/-- R212, the round-trip law of the two functions: decompressing what compress gives for a non-empty input gives the input. -/
def Obligations.RoundTrip : Prop :=
  ∀ b : List Byte, b ≠ [] → ∃ c, compressBytes b = .ok c ∧ decompressBytes c = .ok b

/-- R212 in hardware terms: COMPRESS ends DONE with a result; the host loads it and runs DECOMPRESS; if no capacity fault
occurs, that ends DONE with the input. -/
def Obligations.RoundTripOnTheMachine : Prop :=
  ∀ (s s' t u u' v : State) (k j : Nat),
    s.status ≠ .busy → s.inbox = [] → s.inLen ≠ 0 → exec .compress s = .next s' →
    runSteps k s' = .next t → t.status = .done →
    u.status ≠ .busy → u.inbox = [] → u.inLen = t.outLen → ibufSlice u 0 u.inLen = t.result →
    exec .decompress u = .next u' → runSteps j u' = .next v → v.ended = true →
    v.err ≠ .inOverflow → v.err ≠ .outOverflow →
    v.status = .done ∧ v.result = ibufSlice s 0 s.inLen

/-- R170: the shape of the emitted stream. -/
def Obligations.EmittedStreamShape : Prop :=
  ∀ b c : List Byte, compressBytes b = .ok c →
    ∃ chunks : List ChunkValue, c = encodeAll chunks ∧
      (∀ x ∈ chunks, emittable x = true) ∧ (∃ bytes tail, chunks = .literal bytes :: tail) ∧
      List.IsChain mayPrecede chunks ∧ (chunks.map chunkSpan).sum = b.length

/-- R174: with unlimited OUT_CAP the output is at most N + 3 * floor(N / 65535) + 3 bytes. -/
def Obligations.CompressedSizeBound : Prop :=
  ∀ b c : List Byte, compressBytes b = .ok c → c.length ≤ b.length + 3 * (b.length / 65535) + 3
end

