-- ==== Sys2Proof/Laws/State.lean ====
section
/-! SUPPORT. What each named update of State does to each field, one lemma each, so that no later proof unfolds a record
update. The one-byte reads follow: they depend on a buffer and the epoch only. -/

namespace Sys2Proof.Machine

/-! ### outAppend (R65) -/

@[simp] theorem outAppend_cfg (v : Byte) (s : State) : (outAppend v s).cfg = s.cfg := rfl
@[simp] theorem outAppend_status (v : Byte) (s : State) : (outAppend v s).status = s.status := rfl
@[simp] theorem outAppend_err (v : Byte) (s : State) : (outAppend v s).err = s.err := rfl
@[simp] theorem outAppend_errPos (v : Byte) (s : State) : (outAppend v s).errPos = s.errPos := rfl
@[simp] theorem outAppend_inLen (v : Byte) (s : State) : (outAppend v s).inLen = s.inLen := rfl
@[simp] theorem outAppend_outLen (v : Byte) (s : State) : (outAppend v s).outLen = s.outLen + 1 := rfl
@[simp] theorem outAppend_mode (v : Byte) (s : State) : (outAppend v s).mode = s.mode := rfl
@[simp] theorem outAppend_n (v : Byte) (s : State) : (outAppend v s).n = s.n := rfl
@[simp] theorem outAppend_i (v : Byte) (s : State) : (outAppend v s).i = s.i := rfl
@[simp] theorem outAppend_accLen (v : Byte) (s : State) : (outAppend v s).accLen = s.accLen := rfl
@[simp] theorem outAppend_acc (v : Byte) (s : State) : (outAppend v s).acc = s.acc := rfl
@[simp] theorem outAppend_wstart (v : Byte) (s : State) : (outAppend v s).wstart = s.wstart := rfl
@[simp] theorem outAppend_p (v : Byte) (s : State) : (outAppend v s).p = s.p := rfl
@[simp] theorem outAppend_len (v : Byte) (s : State) : (outAppend v s).len = s.len := rfl
@[simp] theorem outAppend_bestLen (v : Byte) (s : State) : (outAppend v s).bestLen = s.bestLen := rfl
@[simp] theorem outAppend_bestDist (v : Byte) (s : State) : (outAppend v s).bestDist = s.bestDist := rfl
@[simp] theorem outAppend_rp (v : Byte) (s : State) : (outAppend v s).rp = s.rp := rfl
@[simp] theorem outAppend_cKind (v : Byte) (s : State) : (outAppend v s).cKind = s.cKind := rfl
@[simp] theorem outAppend_cLen (v : Byte) (s : State) : (outAppend v s).cLen = s.cLen := rfl
@[simp] theorem outAppend_cDist (v : Byte) (s : State) : (outAppend v s).cDist = s.cDist := rfl
@[simp] theorem outAppend_cHdr (v : Byte) (s : State) : (outAppend v s).cHdr = s.cHdr := rfl
@[simp] theorem outAppend_base (v : Byte) (s : State) : (outAppend v s).base = s.base := rfl
@[simp] theorem outAppend_k (v : Byte) (s : State) : (outAppend v s).k = s.k := rfl
@[simp] theorem outAppend_ibuf (v : Byte) (s : State) : (outAppend v s).ibuf = s.ibuf := rfl
@[simp] theorem outAppend_obuf (v : Byte) (s : State) : (outAppend v s).obuf = Memory.write s.obuf s.outLen v := rfl
@[simp] theorem outAppend_inbox (v : Byte) (s : State) : (outAppend v s).inbox = s.inbox := rfl
@[simp] theorem outAppend_reply (v : Byte) (s : State) : (outAppend v s).reply = s.reply := rfl
@[simp] theorem outAppend_epoch (v : Byte) (s : State) : (outAppend v s).epoch = s.epoch := rfl
@[simp] theorem outAppend_draws (v : Byte) (s : State) : (outAppend v s).draws = s.draws := rfl

/-! ### errorEntry (R262) -/

@[simp] theorem errorEntry_cfg (c : Cause) (pos : Nat) (s : State) : (errorEntry c pos s).cfg = s.cfg := rfl
@[simp] theorem errorEntry_status (c : Cause) (pos : Nat) (s : State) : (errorEntry c pos s).status = .error := rfl
@[simp] theorem errorEntry_err (c : Cause) (pos : Nat) (s : State) : (errorEntry c pos s).err = c := rfl
@[simp] theorem errorEntry_errPos (c : Cause) (pos : Nat) (s : State) : (errorEntry c pos s).errPos = pos := rfl
@[simp] theorem errorEntry_inLen (c : Cause) (pos : Nat) (s : State) : (errorEntry c pos s).inLen = s.inLen := rfl
@[simp] theorem errorEntry_outLen (c : Cause) (pos : Nat) (s : State) : (errorEntry c pos s).outLen = 0 := rfl
@[simp] theorem errorEntry_mode (c : Cause) (pos : Nat) (s : State) : (errorEntry c pos s).mode = .none := rfl
@[simp] theorem errorEntry_n (c : Cause) (pos : Nat) (s : State) : (errorEntry c pos s).n = s.n := rfl
@[simp] theorem errorEntry_i (c : Cause) (pos : Nat) (s : State) : (errorEntry c pos s).i = s.i := rfl
@[simp] theorem errorEntry_accLen (c : Cause) (pos : Nat) (s : State) : (errorEntry c pos s).accLen = s.accLen := rfl
@[simp] theorem errorEntry_acc (c : Cause) (pos : Nat) (s : State) : (errorEntry c pos s).acc = s.acc := rfl
@[simp] theorem errorEntry_wstart (c : Cause) (pos : Nat) (s : State) : (errorEntry c pos s).wstart = s.wstart := rfl
@[simp] theorem errorEntry_p (c : Cause) (pos : Nat) (s : State) : (errorEntry c pos s).p = s.p := rfl
@[simp] theorem errorEntry_len (c : Cause) (pos : Nat) (s : State) : (errorEntry c pos s).len = s.len := rfl
@[simp] theorem errorEntry_bestLen (c : Cause) (pos : Nat) (s : State) : (errorEntry c pos s).bestLen = s.bestLen := rfl
@[simp] theorem errorEntry_bestDist (c : Cause) (pos : Nat) (s : State) : (errorEntry c pos s).bestDist = s.bestDist := rfl
@[simp] theorem errorEntry_rp (c : Cause) (pos : Nat) (s : State) : (errorEntry c pos s).rp = s.rp := rfl
@[simp] theorem errorEntry_cKind (c : Cause) (pos : Nat) (s : State) : (errorEntry c pos s).cKind = s.cKind := rfl
@[simp] theorem errorEntry_cLen (c : Cause) (pos : Nat) (s : State) : (errorEntry c pos s).cLen = s.cLen := rfl
@[simp] theorem errorEntry_cDist (c : Cause) (pos : Nat) (s : State) : (errorEntry c pos s).cDist = s.cDist := rfl
@[simp] theorem errorEntry_cHdr (c : Cause) (pos : Nat) (s : State) : (errorEntry c pos s).cHdr = s.cHdr := rfl
@[simp] theorem errorEntry_base (c : Cause) (pos : Nat) (s : State) : (errorEntry c pos s).base = s.base := rfl
@[simp] theorem errorEntry_k (c : Cause) (pos : Nat) (s : State) : (errorEntry c pos s).k = s.k := rfl
@[simp] theorem errorEntry_ibuf (c : Cause) (pos : Nat) (s : State) : (errorEntry c pos s).ibuf = s.ibuf := rfl
@[simp] theorem errorEntry_obuf (c : Cause) (pos : Nat) (s : State) : (errorEntry c pos s).obuf = s.obuf := rfl
@[simp] theorem errorEntry_inbox (c : Cause) (pos : Nat) (s : State) : (errorEntry c pos s).inbox = s.inbox := rfl
@[simp] theorem errorEntry_reply (c : Cause) (pos : Nat) (s : State) : (errorEntry c pos s).reply = s.reply := rfl
@[simp] theorem errorEntry_epoch (c : Cause) (pos : Nat) (s : State) : (errorEntry c pos s).epoch = s.epoch := rfl
@[simp] theorem errorEntry_draws (c : Cause) (pos : Nat) (s : State) : (errorEntry c pos s).draws = s.draws := rfl

/-! ### startOperation (R232, R233) -/

@[simp] theorem startOperation_cfg (m : Mode) (s : State) : (startOperation m s).cfg = s.cfg := rfl
@[simp] theorem startOperation_status (m : Mode) (s : State) : (startOperation m s).status = .busy := rfl
@[simp] theorem startOperation_err (m : Mode) (s : State) : (startOperation m s).err = .none := rfl
@[simp] theorem startOperation_errPos (m : Mode) (s : State) : (startOperation m s).errPos = 0 := rfl
@[simp] theorem startOperation_inLen (m : Mode) (s : State) : (startOperation m s).inLen = s.inLen := rfl
@[simp] theorem startOperation_outLen (m : Mode) (s : State) : (startOperation m s).outLen = 0 := rfl
@[simp] theorem startOperation_mode (m : Mode) (s : State) : (startOperation m s).mode = m := rfl
@[simp] theorem startOperation_n (m : Mode) (s : State) : (startOperation m s).n = s.inLen := rfl
@[simp] theorem startOperation_i (m : Mode) (s : State) : (startOperation m s).i = s.i := rfl
@[simp] theorem startOperation_accLen (m : Mode) (s : State) : (startOperation m s).accLen = s.accLen := rfl
@[simp] theorem startOperation_acc (m : Mode) (s : State) : (startOperation m s).acc = s.acc := rfl
@[simp] theorem startOperation_wstart (m : Mode) (s : State) : (startOperation m s).wstart = s.wstart := rfl
@[simp] theorem startOperation_p (m : Mode) (s : State) : (startOperation m s).p = s.p := rfl
@[simp] theorem startOperation_len (m : Mode) (s : State) : (startOperation m s).len = s.len := rfl
@[simp] theorem startOperation_bestLen (m : Mode) (s : State) : (startOperation m s).bestLen = s.bestLen := rfl
@[simp] theorem startOperation_bestDist (m : Mode) (s : State) : (startOperation m s).bestDist = s.bestDist := rfl
@[simp] theorem startOperation_rp (m : Mode) (s : State) : (startOperation m s).rp = s.rp := rfl
@[simp] theorem startOperation_cKind (m : Mode) (s : State) : (startOperation m s).cKind = s.cKind := rfl
@[simp] theorem startOperation_cLen (m : Mode) (s : State) : (startOperation m s).cLen = s.cLen := rfl
@[simp] theorem startOperation_cDist (m : Mode) (s : State) : (startOperation m s).cDist = s.cDist := rfl
@[simp] theorem startOperation_cHdr (m : Mode) (s : State) : (startOperation m s).cHdr = s.cHdr := rfl
@[simp] theorem startOperation_base (m : Mode) (s : State) : (startOperation m s).base = s.base := rfl
@[simp] theorem startOperation_k (m : Mode) (s : State) : (startOperation m s).k = s.k := rfl
@[simp] theorem startOperation_ibuf (m : Mode) (s : State) : (startOperation m s).ibuf = s.ibuf := rfl
@[simp] theorem startOperation_obuf (m : Mode) (s : State) : (startOperation m s).obuf = s.obuf := rfl
@[simp] theorem startOperation_inbox (m : Mode) (s : State) : (startOperation m s).inbox = s.inbox := rfl
@[simp] theorem startOperation_reply (m : Mode) (s : State) : (startOperation m s).reply = s.reply := rfl
@[simp] theorem startOperation_epoch (m : Mode) (s : State) : (startOperation m s).epoch = s.epoch := rfl
@[simp] theorem startOperation_draws (m : Mode) (s : State) : (startOperation m s).draws = s.draws := rfl

/-! ### finishOperation (R166, R208) -/

@[simp] theorem finishOperation_cfg (s : State) : (finishOperation s).cfg = s.cfg := rfl
@[simp] theorem finishOperation_status (s : State) : (finishOperation s).status = .done := rfl
@[simp] theorem finishOperation_err (s : State) : (finishOperation s).err = s.err := rfl
@[simp] theorem finishOperation_errPos (s : State) : (finishOperation s).errPos = s.errPos := rfl
@[simp] theorem finishOperation_inLen (s : State) : (finishOperation s).inLen = s.inLen := rfl
@[simp] theorem finishOperation_outLen (s : State) : (finishOperation s).outLen = s.outLen := rfl
@[simp] theorem finishOperation_mode (s : State) : (finishOperation s).mode = .none := rfl
@[simp] theorem finishOperation_n (s : State) : (finishOperation s).n = s.n := rfl
@[simp] theorem finishOperation_i (s : State) : (finishOperation s).i = s.i := rfl
@[simp] theorem finishOperation_accLen (s : State) : (finishOperation s).accLen = s.accLen := rfl
@[simp] theorem finishOperation_acc (s : State) : (finishOperation s).acc = s.acc := rfl
@[simp] theorem finishOperation_wstart (s : State) : (finishOperation s).wstart = s.wstart := rfl
@[simp] theorem finishOperation_p (s : State) : (finishOperation s).p = s.p := rfl
@[simp] theorem finishOperation_len (s : State) : (finishOperation s).len = s.len := rfl
@[simp] theorem finishOperation_bestLen (s : State) : (finishOperation s).bestLen = s.bestLen := rfl
@[simp] theorem finishOperation_bestDist (s : State) : (finishOperation s).bestDist = s.bestDist := rfl
@[simp] theorem finishOperation_rp (s : State) : (finishOperation s).rp = s.rp := rfl
@[simp] theorem finishOperation_cKind (s : State) : (finishOperation s).cKind = s.cKind := rfl
@[simp] theorem finishOperation_cLen (s : State) : (finishOperation s).cLen = s.cLen := rfl
@[simp] theorem finishOperation_cDist (s : State) : (finishOperation s).cDist = s.cDist := rfl
@[simp] theorem finishOperation_cHdr (s : State) : (finishOperation s).cHdr = s.cHdr := rfl
@[simp] theorem finishOperation_base (s : State) : (finishOperation s).base = s.base := rfl
@[simp] theorem finishOperation_k (s : State) : (finishOperation s).k = s.k := rfl
@[simp] theorem finishOperation_ibuf (s : State) : (finishOperation s).ibuf = s.ibuf := rfl
@[simp] theorem finishOperation_obuf (s : State) : (finishOperation s).obuf = s.obuf := rfl
@[simp] theorem finishOperation_inbox (s : State) : (finishOperation s).inbox = s.inbox := rfl
@[simp] theorem finishOperation_reply (s : State) : (finishOperation s).reply = s.reply := rfl
@[simp] theorem finishOperation_epoch (s : State) : (finishOperation s).epoch = s.epoch := rfl
@[simp] theorem finishOperation_draws (s : State) : (finishOperation s).draws = s.draws := rfl

/-! ### latchChunk (R134) -/

@[simp] theorem latchChunk_cfg (kd : ChunkKind) (l d h : Nat) (s : State) : (latchChunk kd l d h s).cfg = s.cfg := rfl
@[simp] theorem latchChunk_status (kd : ChunkKind) (l d h : Nat) (s : State) : (latchChunk kd l d h s).status = s.status := rfl
@[simp] theorem latchChunk_err (kd : ChunkKind) (l d h : Nat) (s : State) : (latchChunk kd l d h s).err = s.err := rfl
@[simp] theorem latchChunk_errPos (kd : ChunkKind) (l d h : Nat) (s : State) : (latchChunk kd l d h s).errPos = s.errPos := rfl
@[simp] theorem latchChunk_inLen (kd : ChunkKind) (l d h : Nat) (s : State) : (latchChunk kd l d h s).inLen = s.inLen := rfl
@[simp] theorem latchChunk_outLen (kd : ChunkKind) (l d h : Nat) (s : State) : (latchChunk kd l d h s).outLen = s.outLen := rfl
@[simp] theorem latchChunk_mode (kd : ChunkKind) (l d h : Nat) (s : State) : (latchChunk kd l d h s).mode = s.mode := rfl
@[simp] theorem latchChunk_n (kd : ChunkKind) (l d h : Nat) (s : State) : (latchChunk kd l d h s).n = s.n := rfl
@[simp] theorem latchChunk_i (kd : ChunkKind) (l d h : Nat) (s : State) : (latchChunk kd l d h s).i = s.i := rfl
@[simp] theorem latchChunk_accLen (kd : ChunkKind) (l d h : Nat) (s : State) : (latchChunk kd l d h s).accLen = s.accLen := rfl
@[simp] theorem latchChunk_acc (kd : ChunkKind) (l d h : Nat) (s : State) : (latchChunk kd l d h s).acc = s.acc := rfl
@[simp] theorem latchChunk_wstart (kd : ChunkKind) (l d h : Nat) (s : State) : (latchChunk kd l d h s).wstart = s.wstart := rfl
@[simp] theorem latchChunk_p (kd : ChunkKind) (l d h : Nat) (s : State) : (latchChunk kd l d h s).p = s.p := rfl
@[simp] theorem latchChunk_len (kd : ChunkKind) (l d h : Nat) (s : State) : (latchChunk kd l d h s).len = s.len := rfl
@[simp] theorem latchChunk_bestLen (kd : ChunkKind) (l d h : Nat) (s : State) : (latchChunk kd l d h s).bestLen = s.bestLen := rfl
@[simp] theorem latchChunk_bestDist (kd : ChunkKind) (l d h : Nat) (s : State) : (latchChunk kd l d h s).bestDist = s.bestDist := rfl
@[simp] theorem latchChunk_rp (kd : ChunkKind) (l d h : Nat) (s : State) : (latchChunk kd l d h s).rp = s.rp := rfl
@[simp] theorem latchChunk_cKind (kd : ChunkKind) (l d h : Nat) (s : State) : (latchChunk kd l d h s).cKind = kd := rfl
@[simp] theorem latchChunk_cLen (kd : ChunkKind) (l d h : Nat) (s : State) : (latchChunk kd l d h s).cLen = l := rfl
@[simp] theorem latchChunk_cDist (kd : ChunkKind) (l d h : Nat) (s : State) : (latchChunk kd l d h s).cDist = d := rfl
@[simp] theorem latchChunk_cHdr (kd : ChunkKind) (l d h : Nat) (s : State) : (latchChunk kd l d h s).cHdr = h := rfl
@[simp] theorem latchChunk_base (kd : ChunkKind) (l d h : Nat) (s : State) : (latchChunk kd l d h s).base = s.base := rfl
@[simp] theorem latchChunk_k (kd : ChunkKind) (l d h : Nat) (s : State) : (latchChunk kd l d h s).k = s.k := rfl
@[simp] theorem latchChunk_ibuf (kd : ChunkKind) (l d h : Nat) (s : State) : (latchChunk kd l d h s).ibuf = s.ibuf := rfl
@[simp] theorem latchChunk_obuf (kd : ChunkKind) (l d h : Nat) (s : State) : (latchChunk kd l d h s).obuf = s.obuf := rfl
@[simp] theorem latchChunk_inbox (kd : ChunkKind) (l d h : Nat) (s : State) : (latchChunk kd l d h s).inbox = s.inbox := rfl
@[simp] theorem latchChunk_reply (kd : ChunkKind) (l d h : Nat) (s : State) : (latchChunk kd l d h s).reply = s.reply := rfl
@[simp] theorem latchChunk_epoch (kd : ChunkKind) (l d h : Nat) (s : State) : (latchChunk kd l d h s).epoch = s.epoch := rfl
@[simp] theorem latchChunk_draws (kd : ChunkKind) (l d h : Nat) (s : State) : (latchChunk kd l d h s).draws = s.draws := rfl

/-! ### advancePastLiteral (R195) -/

@[simp] theorem advancePastLiteral_cfg (s : State) : (advancePastLiteral s).cfg = s.cfg := rfl
@[simp] theorem advancePastLiteral_status (s : State) : (advancePastLiteral s).status = s.status := rfl
@[simp] theorem advancePastLiteral_err (s : State) : (advancePastLiteral s).err = s.err := rfl
@[simp] theorem advancePastLiteral_errPos (s : State) : (advancePastLiteral s).errPos = s.errPos := rfl
@[simp] theorem advancePastLiteral_inLen (s : State) : (advancePastLiteral s).inLen = s.inLen := rfl
@[simp] theorem advancePastLiteral_outLen (s : State) : (advancePastLiteral s).outLen = s.outLen := rfl
@[simp] theorem advancePastLiteral_mode (s : State) : (advancePastLiteral s).mode = s.mode := rfl
@[simp] theorem advancePastLiteral_n (s : State) : (advancePastLiteral s).n = s.n := rfl
@[simp] theorem advancePastLiteral_i (s : State) : (advancePastLiteral s).i = s.i := rfl
@[simp] theorem advancePastLiteral_accLen (s : State) : (advancePastLiteral s).accLen = s.accLen := rfl
@[simp] theorem advancePastLiteral_acc (s : State) : (advancePastLiteral s).acc = s.acc := rfl
@[simp] theorem advancePastLiteral_wstart (s : State) : (advancePastLiteral s).wstart = s.wstart := rfl
@[simp] theorem advancePastLiteral_p (s : State) : (advancePastLiteral s).p = s.p := rfl
@[simp] theorem advancePastLiteral_len (s : State) : (advancePastLiteral s).len = s.len := rfl
@[simp] theorem advancePastLiteral_bestLen (s : State) : (advancePastLiteral s).bestLen = s.bestLen := rfl
@[simp] theorem advancePastLiteral_bestDist (s : State) : (advancePastLiteral s).bestDist = s.bestDist := rfl
@[simp] theorem advancePastLiteral_rp (s : State) : (advancePastLiteral s).rp = s.rp + s.cHdr + s.cLen := rfl
@[simp] theorem advancePastLiteral_cKind (s : State) : (advancePastLiteral s).cKind = s.cKind := rfl
@[simp] theorem advancePastLiteral_cLen (s : State) : (advancePastLiteral s).cLen = s.cLen := rfl
@[simp] theorem advancePastLiteral_cDist (s : State) : (advancePastLiteral s).cDist = s.cDist := rfl
@[simp] theorem advancePastLiteral_cHdr (s : State) : (advancePastLiteral s).cHdr = s.cHdr := rfl
@[simp] theorem advancePastLiteral_base (s : State) : (advancePastLiteral s).base = s.base := rfl
@[simp] theorem advancePastLiteral_k (s : State) : (advancePastLiteral s).k = s.k := rfl
@[simp] theorem advancePastLiteral_ibuf (s : State) : (advancePastLiteral s).ibuf = s.ibuf := rfl
@[simp] theorem advancePastLiteral_obuf (s : State) : (advancePastLiteral s).obuf = s.obuf := rfl
@[simp] theorem advancePastLiteral_inbox (s : State) : (advancePastLiteral s).inbox = s.inbox := rfl
@[simp] theorem advancePastLiteral_reply (s : State) : (advancePastLiteral s).reply = s.reply := rfl
@[simp] theorem advancePastLiteral_epoch (s : State) : (advancePastLiteral s).epoch = s.epoch := rfl
@[simp] theorem advancePastLiteral_draws (s : State) : (advancePastLiteral s).draws = s.draws := rfl

/-! ### advancePastRef (R195) -/

@[simp] theorem advancePastRef_cfg (s : State) : (advancePastRef s).cfg = s.cfg := rfl
@[simp] theorem advancePastRef_status (s : State) : (advancePastRef s).status = s.status := rfl
@[simp] theorem advancePastRef_err (s : State) : (advancePastRef s).err = s.err := rfl
@[simp] theorem advancePastRef_errPos (s : State) : (advancePastRef s).errPos = s.errPos := rfl
@[simp] theorem advancePastRef_inLen (s : State) : (advancePastRef s).inLen = s.inLen := rfl
@[simp] theorem advancePastRef_outLen (s : State) : (advancePastRef s).outLen = s.outLen := rfl
@[simp] theorem advancePastRef_mode (s : State) : (advancePastRef s).mode = s.mode := rfl
@[simp] theorem advancePastRef_n (s : State) : (advancePastRef s).n = s.n := rfl
@[simp] theorem advancePastRef_i (s : State) : (advancePastRef s).i = s.i := rfl
@[simp] theorem advancePastRef_accLen (s : State) : (advancePastRef s).accLen = s.accLen := rfl
@[simp] theorem advancePastRef_acc (s : State) : (advancePastRef s).acc = s.acc := rfl
@[simp] theorem advancePastRef_wstart (s : State) : (advancePastRef s).wstart = s.wstart := rfl
@[simp] theorem advancePastRef_p (s : State) : (advancePastRef s).p = s.p := rfl
@[simp] theorem advancePastRef_len (s : State) : (advancePastRef s).len = s.len := rfl
@[simp] theorem advancePastRef_bestLen (s : State) : (advancePastRef s).bestLen = s.bestLen := rfl
@[simp] theorem advancePastRef_bestDist (s : State) : (advancePastRef s).bestDist = s.bestDist := rfl
@[simp] theorem advancePastRef_rp (s : State) : (advancePastRef s).rp = s.rp + s.cHdr := rfl
@[simp] theorem advancePastRef_cKind (s : State) : (advancePastRef s).cKind = s.cKind := rfl
@[simp] theorem advancePastRef_cLen (s : State) : (advancePastRef s).cLen = s.cLen := rfl
@[simp] theorem advancePastRef_cDist (s : State) : (advancePastRef s).cDist = s.cDist := rfl
@[simp] theorem advancePastRef_cHdr (s : State) : (advancePastRef s).cHdr = s.cHdr := rfl
@[simp] theorem advancePastRef_base (s : State) : (advancePastRef s).base = s.base := rfl
@[simp] theorem advancePastRef_k (s : State) : (advancePastRef s).k = s.k := rfl
@[simp] theorem advancePastRef_ibuf (s : State) : (advancePastRef s).ibuf = s.ibuf := rfl
@[simp] theorem advancePastRef_obuf (s : State) : (advancePastRef s).obuf = s.obuf := rfl
@[simp] theorem advancePastRef_inbox (s : State) : (advancePastRef s).inbox = s.inbox := rfl
@[simp] theorem advancePastRef_reply (s : State) : (advancePastRef s).reply = s.reply := rfl
@[simp] theorem advancePastRef_epoch (s : State) : (advancePastRef s).epoch = s.epoch := rfl
@[simp] theorem advancePastRef_draws (s : State) : (advancePastRef s).draws = s.draws := rfl

/-! ### seedAccumulator (R151) -/

@[simp] theorem seedAccumulator_cfg (s : State) : (seedAccumulator s).cfg = s.cfg := rfl
@[simp] theorem seedAccumulator_status (s : State) : (seedAccumulator s).status = s.status := rfl
@[simp] theorem seedAccumulator_err (s : State) : (seedAccumulator s).err = s.err := rfl
@[simp] theorem seedAccumulator_errPos (s : State) : (seedAccumulator s).errPos = s.errPos := rfl
@[simp] theorem seedAccumulator_inLen (s : State) : (seedAccumulator s).inLen = s.inLen := rfl
@[simp] theorem seedAccumulator_outLen (s : State) : (seedAccumulator s).outLen = s.outLen := rfl
@[simp] theorem seedAccumulator_mode (s : State) : (seedAccumulator s).mode = s.mode := rfl
@[simp] theorem seedAccumulator_n (s : State) : (seedAccumulator s).n = s.n := rfl
@[simp] theorem seedAccumulator_i (s : State) : (seedAccumulator s).i = 1 := rfl
@[simp] theorem seedAccumulator_accLen (s : State) : (seedAccumulator s).accLen = 1 := rfl
@[simp] theorem seedAccumulator_acc (s : State) : (seedAccumulator s).acc = [ibufByte s 0] := rfl
@[simp] theorem seedAccumulator_wstart (s : State) : (seedAccumulator s).wstart = s.wstart := rfl
@[simp] theorem seedAccumulator_p (s : State) : (seedAccumulator s).p = s.p := rfl
@[simp] theorem seedAccumulator_len (s : State) : (seedAccumulator s).len = s.len := rfl
@[simp] theorem seedAccumulator_bestLen (s : State) : (seedAccumulator s).bestLen = s.bestLen := rfl
@[simp] theorem seedAccumulator_bestDist (s : State) : (seedAccumulator s).bestDist = s.bestDist := rfl
@[simp] theorem seedAccumulator_rp (s : State) : (seedAccumulator s).rp = s.rp := rfl
@[simp] theorem seedAccumulator_cKind (s : State) : (seedAccumulator s).cKind = s.cKind := rfl
@[simp] theorem seedAccumulator_cLen (s : State) : (seedAccumulator s).cLen = s.cLen := rfl
@[simp] theorem seedAccumulator_cDist (s : State) : (seedAccumulator s).cDist = s.cDist := rfl
@[simp] theorem seedAccumulator_cHdr (s : State) : (seedAccumulator s).cHdr = s.cHdr := rfl
@[simp] theorem seedAccumulator_base (s : State) : (seedAccumulator s).base = s.base := rfl
@[simp] theorem seedAccumulator_k (s : State) : (seedAccumulator s).k = s.k := rfl
@[simp] theorem seedAccumulator_ibuf (s : State) : (seedAccumulator s).ibuf = s.ibuf := rfl
@[simp] theorem seedAccumulator_obuf (s : State) : (seedAccumulator s).obuf = s.obuf := rfl
@[simp] theorem seedAccumulator_inbox (s : State) : (seedAccumulator s).inbox = s.inbox := rfl
@[simp] theorem seedAccumulator_reply (s : State) : (seedAccumulator s).reply = s.reply := rfl
@[simp] theorem seedAccumulator_epoch (s : State) : (seedAccumulator s).epoch = s.epoch := rfl
@[simp] theorem seedAccumulator_draws (s : State) : (seedAccumulator s).draws = s.draws := rfl

/-! ### seedReadCursor (R191) -/

@[simp] theorem seedReadCursor_cfg (s : State) : (seedReadCursor s).cfg = s.cfg := rfl
@[simp] theorem seedReadCursor_status (s : State) : (seedReadCursor s).status = s.status := rfl
@[simp] theorem seedReadCursor_err (s : State) : (seedReadCursor s).err = s.err := rfl
@[simp] theorem seedReadCursor_errPos (s : State) : (seedReadCursor s).errPos = s.errPos := rfl
@[simp] theorem seedReadCursor_inLen (s : State) : (seedReadCursor s).inLen = s.inLen := rfl
@[simp] theorem seedReadCursor_outLen (s : State) : (seedReadCursor s).outLen = s.outLen := rfl
@[simp] theorem seedReadCursor_mode (s : State) : (seedReadCursor s).mode = s.mode := rfl
@[simp] theorem seedReadCursor_n (s : State) : (seedReadCursor s).n = s.n := rfl
@[simp] theorem seedReadCursor_i (s : State) : (seedReadCursor s).i = s.i := rfl
@[simp] theorem seedReadCursor_accLen (s : State) : (seedReadCursor s).accLen = s.accLen := rfl
@[simp] theorem seedReadCursor_acc (s : State) : (seedReadCursor s).acc = s.acc := rfl
@[simp] theorem seedReadCursor_wstart (s : State) : (seedReadCursor s).wstart = s.wstart := rfl
@[simp] theorem seedReadCursor_p (s : State) : (seedReadCursor s).p = s.p := rfl
@[simp] theorem seedReadCursor_len (s : State) : (seedReadCursor s).len = s.len := rfl
@[simp] theorem seedReadCursor_bestLen (s : State) : (seedReadCursor s).bestLen = s.bestLen := rfl
@[simp] theorem seedReadCursor_bestDist (s : State) : (seedReadCursor s).bestDist = s.bestDist := rfl
@[simp] theorem seedReadCursor_rp (s : State) : (seedReadCursor s).rp = 0 := rfl
@[simp] theorem seedReadCursor_cKind (s : State) : (seedReadCursor s).cKind = s.cKind := rfl
@[simp] theorem seedReadCursor_cLen (s : State) : (seedReadCursor s).cLen = s.cLen := rfl
@[simp] theorem seedReadCursor_cDist (s : State) : (seedReadCursor s).cDist = s.cDist := rfl
@[simp] theorem seedReadCursor_cHdr (s : State) : (seedReadCursor s).cHdr = s.cHdr := rfl
@[simp] theorem seedReadCursor_base (s : State) : (seedReadCursor s).base = s.base := rfl
@[simp] theorem seedReadCursor_k (s : State) : (seedReadCursor s).k = s.k := rfl
@[simp] theorem seedReadCursor_ibuf (s : State) : (seedReadCursor s).ibuf = s.ibuf := rfl
@[simp] theorem seedReadCursor_obuf (s : State) : (seedReadCursor s).obuf = s.obuf := rfl
@[simp] theorem seedReadCursor_inbox (s : State) : (seedReadCursor s).inbox = s.inbox := rfl
@[simp] theorem seedReadCursor_reply (s : State) : (seedReadCursor s).reply = s.reply := rfl
@[simp] theorem seedReadCursor_epoch (s : State) : (seedReadCursor s).epoch = s.epoch := rfl
@[simp] theorem seedReadCursor_draws (s : State) : (seedReadCursor s).draws = s.draws := rfl

/-! ### clearAccumulator (R163) -/

@[simp] theorem clearAccumulator_cfg (s : State) : (clearAccumulator s).cfg = s.cfg := rfl
@[simp] theorem clearAccumulator_status (s : State) : (clearAccumulator s).status = s.status := rfl
@[simp] theorem clearAccumulator_err (s : State) : (clearAccumulator s).err = s.err := rfl
@[simp] theorem clearAccumulator_errPos (s : State) : (clearAccumulator s).errPos = s.errPos := rfl
@[simp] theorem clearAccumulator_inLen (s : State) : (clearAccumulator s).inLen = s.inLen := rfl
@[simp] theorem clearAccumulator_outLen (s : State) : (clearAccumulator s).outLen = s.outLen := rfl
@[simp] theorem clearAccumulator_mode (s : State) : (clearAccumulator s).mode = s.mode := rfl
@[simp] theorem clearAccumulator_n (s : State) : (clearAccumulator s).n = s.n := rfl
@[simp] theorem clearAccumulator_i (s : State) : (clearAccumulator s).i = s.i := rfl
@[simp] theorem clearAccumulator_accLen (s : State) : (clearAccumulator s).accLen = 0 := rfl
@[simp] theorem clearAccumulator_acc (s : State) : (clearAccumulator s).acc = [] := rfl
@[simp] theorem clearAccumulator_wstart (s : State) : (clearAccumulator s).wstart = s.wstart := rfl
@[simp] theorem clearAccumulator_p (s : State) : (clearAccumulator s).p = s.p := rfl
@[simp] theorem clearAccumulator_len (s : State) : (clearAccumulator s).len = s.len := rfl
@[simp] theorem clearAccumulator_bestLen (s : State) : (clearAccumulator s).bestLen = s.bestLen := rfl
@[simp] theorem clearAccumulator_bestDist (s : State) : (clearAccumulator s).bestDist = s.bestDist := rfl
@[simp] theorem clearAccumulator_rp (s : State) : (clearAccumulator s).rp = s.rp := rfl
@[simp] theorem clearAccumulator_cKind (s : State) : (clearAccumulator s).cKind = s.cKind := rfl
@[simp] theorem clearAccumulator_cLen (s : State) : (clearAccumulator s).cLen = s.cLen := rfl
@[simp] theorem clearAccumulator_cDist (s : State) : (clearAccumulator s).cDist = s.cDist := rfl
@[simp] theorem clearAccumulator_cHdr (s : State) : (clearAccumulator s).cHdr = s.cHdr := rfl
@[simp] theorem clearAccumulator_base (s : State) : (clearAccumulator s).base = s.base := rfl
@[simp] theorem clearAccumulator_k (s : State) : (clearAccumulator s).k = s.k := rfl
@[simp] theorem clearAccumulator_ibuf (s : State) : (clearAccumulator s).ibuf = s.ibuf := rfl
@[simp] theorem clearAccumulator_obuf (s : State) : (clearAccumulator s).obuf = s.obuf := rfl
@[simp] theorem clearAccumulator_inbox (s : State) : (clearAccumulator s).inbox = s.inbox := rfl
@[simp] theorem clearAccumulator_reply (s : State) : (clearAccumulator s).reply = s.reply := rfl
@[simp] theorem clearAccumulator_epoch (s : State) : (clearAccumulator s).epoch = s.epoch := rfl
@[simp] theorem clearAccumulator_draws (s : State) : (clearAccumulator s).draws = s.draws := rfl

/-! ### advancePastMatch (R160) -/

@[simp] theorem advancePastMatch_cfg (s : State) : (advancePastMatch s).cfg = s.cfg := rfl
@[simp] theorem advancePastMatch_status (s : State) : (advancePastMatch s).status = s.status := rfl
@[simp] theorem advancePastMatch_err (s : State) : (advancePastMatch s).err = s.err := rfl
@[simp] theorem advancePastMatch_errPos (s : State) : (advancePastMatch s).errPos = s.errPos := rfl
@[simp] theorem advancePastMatch_inLen (s : State) : (advancePastMatch s).inLen = s.inLen := rfl
@[simp] theorem advancePastMatch_outLen (s : State) : (advancePastMatch s).outLen = s.outLen := rfl
@[simp] theorem advancePastMatch_mode (s : State) : (advancePastMatch s).mode = s.mode := rfl
@[simp] theorem advancePastMatch_n (s : State) : (advancePastMatch s).n = s.n := rfl
@[simp] theorem advancePastMatch_i (s : State) : (advancePastMatch s).i = s.i + s.bestLen := rfl
@[simp] theorem advancePastMatch_accLen (s : State) : (advancePastMatch s).accLen = s.accLen := rfl
@[simp] theorem advancePastMatch_acc (s : State) : (advancePastMatch s).acc = s.acc := rfl
@[simp] theorem advancePastMatch_wstart (s : State) : (advancePastMatch s).wstart = s.wstart := rfl
@[simp] theorem advancePastMatch_p (s : State) : (advancePastMatch s).p = s.p := rfl
@[simp] theorem advancePastMatch_len (s : State) : (advancePastMatch s).len = s.len := rfl
@[simp] theorem advancePastMatch_bestLen (s : State) : (advancePastMatch s).bestLen = s.bestLen := rfl
@[simp] theorem advancePastMatch_bestDist (s : State) : (advancePastMatch s).bestDist = s.bestDist := rfl
@[simp] theorem advancePastMatch_rp (s : State) : (advancePastMatch s).rp = s.rp := rfl
@[simp] theorem advancePastMatch_cKind (s : State) : (advancePastMatch s).cKind = s.cKind := rfl
@[simp] theorem advancePastMatch_cLen (s : State) : (advancePastMatch s).cLen = s.cLen := rfl
@[simp] theorem advancePastMatch_cDist (s : State) : (advancePastMatch s).cDist = s.cDist := rfl
@[simp] theorem advancePastMatch_cHdr (s : State) : (advancePastMatch s).cHdr = s.cHdr := rfl
@[simp] theorem advancePastMatch_base (s : State) : (advancePastMatch s).base = s.base := rfl
@[simp] theorem advancePastMatch_k (s : State) : (advancePastMatch s).k = s.k := rfl
@[simp] theorem advancePastMatch_ibuf (s : State) : (advancePastMatch s).ibuf = s.ibuf := rfl
@[simp] theorem advancePastMatch_obuf (s : State) : (advancePastMatch s).obuf = s.obuf := rfl
@[simp] theorem advancePastMatch_inbox (s : State) : (advancePastMatch s).inbox = s.inbox := rfl
@[simp] theorem advancePastMatch_reply (s : State) : (advancePastMatch s).reply = s.reply := rfl
@[simp] theorem advancePastMatch_epoch (s : State) : (advancePastMatch s).epoch = s.epoch := rfl
@[simp] theorem advancePastMatch_draws (s : State) : (advancePastMatch s).draws = s.draws := rfl

/-! ### literalStep (R161) -/

@[simp] theorem literalStep_cfg (s : State) : (literalStep s).cfg = s.cfg := rfl
@[simp] theorem literalStep_status (s : State) : (literalStep s).status = s.status := rfl
@[simp] theorem literalStep_err (s : State) : (literalStep s).err = s.err := rfl
@[simp] theorem literalStep_errPos (s : State) : (literalStep s).errPos = s.errPos := rfl
@[simp] theorem literalStep_inLen (s : State) : (literalStep s).inLen = s.inLen := rfl
@[simp] theorem literalStep_outLen (s : State) : (literalStep s).outLen = s.outLen := rfl
@[simp] theorem literalStep_mode (s : State) : (literalStep s).mode = s.mode := rfl
@[simp] theorem literalStep_n (s : State) : (literalStep s).n = s.n := rfl
@[simp] theorem literalStep_i (s : State) : (literalStep s).i = s.i + 1 := rfl
@[simp] theorem literalStep_accLen (s : State) : (literalStep s).accLen = s.accLen + 1 := rfl
@[simp] theorem literalStep_acc (s : State) : (literalStep s).acc = s.acc ++ [ibufByte s s.i] := rfl
@[simp] theorem literalStep_wstart (s : State) : (literalStep s).wstart = s.wstart := rfl
@[simp] theorem literalStep_p (s : State) : (literalStep s).p = s.p := rfl
@[simp] theorem literalStep_len (s : State) : (literalStep s).len = s.len := rfl
@[simp] theorem literalStep_bestLen (s : State) : (literalStep s).bestLen = s.bestLen := rfl
@[simp] theorem literalStep_bestDist (s : State) : (literalStep s).bestDist = s.bestDist := rfl
@[simp] theorem literalStep_rp (s : State) : (literalStep s).rp = s.rp := rfl
@[simp] theorem literalStep_cKind (s : State) : (literalStep s).cKind = s.cKind := rfl
@[simp] theorem literalStep_cLen (s : State) : (literalStep s).cLen = s.cLen := rfl
@[simp] theorem literalStep_cDist (s : State) : (literalStep s).cDist = s.cDist := rfl
@[simp] theorem literalStep_cHdr (s : State) : (literalStep s).cHdr = s.cHdr := rfl
@[simp] theorem literalStep_base (s : State) : (literalStep s).base = s.base := rfl
@[simp] theorem literalStep_k (s : State) : (literalStep s).k = s.k := rfl
@[simp] theorem literalStep_ibuf (s : State) : (literalStep s).ibuf = s.ibuf := rfl
@[simp] theorem literalStep_obuf (s : State) : (literalStep s).obuf = s.obuf := rfl
@[simp] theorem literalStep_inbox (s : State) : (literalStep s).inbox = s.inbox := rfl
@[simp] theorem literalStep_reply (s : State) : (literalStep s).reply = s.reply := rfl
@[simp] theorem literalStep_epoch (s : State) : (literalStep s).epoch = s.epoch := rfl
@[simp] theorem literalStep_draws (s : State) : (literalStep s).draws = s.draws := rfl

/-! ### searchStep (R157) -/

@[simp] theorem searchStep_cfg (s : State) : (searchStep s).cfg = s.cfg := rfl
@[simp] theorem searchStep_status (s : State) : (searchStep s).status = s.status := rfl
@[simp] theorem searchStep_err (s : State) : (searchStep s).err = s.err := rfl
@[simp] theorem searchStep_errPos (s : State) : (searchStep s).errPos = s.errPos := rfl
@[simp] theorem searchStep_inLen (s : State) : (searchStep s).inLen = s.inLen := rfl
@[simp] theorem searchStep_outLen (s : State) : (searchStep s).outLen = s.outLen := rfl
@[simp] theorem searchStep_mode (s : State) : (searchStep s).mode = s.mode := rfl
@[simp] theorem searchStep_n (s : State) : (searchStep s).n = s.n := rfl
@[simp] theorem searchStep_i (s : State) : (searchStep s).i = s.i := rfl
@[simp] theorem searchStep_accLen (s : State) : (searchStep s).accLen = s.accLen := rfl
@[simp] theorem searchStep_acc (s : State) : (searchStep s).acc = s.acc := rfl
@[simp] theorem searchStep_wstart (s : State) : (searchStep s).wstart = windowStart s.i := rfl
@[simp] theorem searchStep_p (s : State) : (searchStep s).p = (findMatch (ibufByte s) s.n s.i).p := rfl
@[simp] theorem searchStep_len (s : State) : (searchStep s).len = (findMatch (ibufByte s) s.n s.i).len := rfl
@[simp] theorem searchStep_bestLen (s : State) : (searchStep s).bestLen = (findMatch (ibufByte s) s.n s.i).bestLen := rfl
@[simp] theorem searchStep_bestDist (s : State) : (searchStep s).bestDist = (findMatch (ibufByte s) s.n s.i).bestDist := rfl
@[simp] theorem searchStep_rp (s : State) : (searchStep s).rp = s.rp := rfl
@[simp] theorem searchStep_cKind (s : State) : (searchStep s).cKind = s.cKind := rfl
@[simp] theorem searchStep_cLen (s : State) : (searchStep s).cLen = s.cLen := rfl
@[simp] theorem searchStep_cDist (s : State) : (searchStep s).cDist = s.cDist := rfl
@[simp] theorem searchStep_cHdr (s : State) : (searchStep s).cHdr = s.cHdr := rfl
@[simp] theorem searchStep_base (s : State) : (searchStep s).base = s.base := rfl
@[simp] theorem searchStep_k (s : State) : (searchStep s).k = s.k := rfl
@[simp] theorem searchStep_ibuf (s : State) : (searchStep s).ibuf = s.ibuf := rfl
@[simp] theorem searchStep_obuf (s : State) : (searchStep s).obuf = s.obuf := rfl
@[simp] theorem searchStep_inbox (s : State) : (searchStep s).inbox = s.inbox := rfl
@[simp] theorem searchStep_reply (s : State) : (searchStep s).reply = s.reply := rfl
@[simp] theorem searchStep_epoch (s : State) : (searchStep s).epoch = s.epoch := rfl
@[simp] theorem searchStep_draws (s : State) : (searchStep s).draws = s.draws := rfl

/-! ### answer (R21) -/

@[simp] theorem answer_cfg (v : Nat) (s : State) : (answer v s).cfg = s.cfg := rfl
@[simp] theorem answer_status (v : Nat) (s : State) : (answer v s).status = s.status := rfl
@[simp] theorem answer_err (v : Nat) (s : State) : (answer v s).err = s.err := rfl
@[simp] theorem answer_errPos (v : Nat) (s : State) : (answer v s).errPos = s.errPos := rfl
@[simp] theorem answer_inLen (v : Nat) (s : State) : (answer v s).inLen = s.inLen := rfl
@[simp] theorem answer_outLen (v : Nat) (s : State) : (answer v s).outLen = s.outLen := rfl
@[simp] theorem answer_mode (v : Nat) (s : State) : (answer v s).mode = s.mode := rfl
@[simp] theorem answer_n (v : Nat) (s : State) : (answer v s).n = s.n := rfl
@[simp] theorem answer_i (v : Nat) (s : State) : (answer v s).i = s.i := rfl
@[simp] theorem answer_accLen (v : Nat) (s : State) : (answer v s).accLen = s.accLen := rfl
@[simp] theorem answer_acc (v : Nat) (s : State) : (answer v s).acc = s.acc := rfl
@[simp] theorem answer_wstart (v : Nat) (s : State) : (answer v s).wstart = s.wstart := rfl
@[simp] theorem answer_p (v : Nat) (s : State) : (answer v s).p = s.p := rfl
@[simp] theorem answer_len (v : Nat) (s : State) : (answer v s).len = s.len := rfl
@[simp] theorem answer_bestLen (v : Nat) (s : State) : (answer v s).bestLen = s.bestLen := rfl
@[simp] theorem answer_bestDist (v : Nat) (s : State) : (answer v s).bestDist = s.bestDist := rfl
@[simp] theorem answer_rp (v : Nat) (s : State) : (answer v s).rp = s.rp := rfl
@[simp] theorem answer_cKind (v : Nat) (s : State) : (answer v s).cKind = s.cKind := rfl
@[simp] theorem answer_cLen (v : Nat) (s : State) : (answer v s).cLen = s.cLen := rfl
@[simp] theorem answer_cDist (v : Nat) (s : State) : (answer v s).cDist = s.cDist := rfl
@[simp] theorem answer_cHdr (v : Nat) (s : State) : (answer v s).cHdr = s.cHdr := rfl
@[simp] theorem answer_base (v : Nat) (s : State) : (answer v s).base = s.base := rfl
@[simp] theorem answer_k (v : Nat) (s : State) : (answer v s).k = s.k := rfl
@[simp] theorem answer_ibuf (v : Nat) (s : State) : (answer v s).ibuf = s.ibuf := rfl
@[simp] theorem answer_obuf (v : Nat) (s : State) : (answer v s).obuf = s.obuf := rfl
@[simp] theorem answer_inbox (v : Nat) (s : State) : (answer v s).inbox = s.inbox := rfl
@[simp] theorem answer_reply (v : Nat) (s : State) : (answer v s).reply = some v := rfl
@[simp] theorem answer_epoch (v : Nat) (s : State) : (answer v s).epoch = s.epoch := rfl
@[simp] theorem answer_draws (v : Nat) (s : State) : (answer v s).draws = s.draws := rfl

/-! ### answerUnspecified (R245) -/

@[simp] theorem answerUnspecified_cfg (v : Nat) (s : State) : (answerUnspecified v s).cfg = s.cfg := rfl
@[simp] theorem answerUnspecified_status (v : Nat) (s : State) : (answerUnspecified v s).status = s.status := rfl
@[simp] theorem answerUnspecified_err (v : Nat) (s : State) : (answerUnspecified v s).err = s.err := rfl
@[simp] theorem answerUnspecified_errPos (v : Nat) (s : State) : (answerUnspecified v s).errPos = s.errPos := rfl
@[simp] theorem answerUnspecified_inLen (v : Nat) (s : State) : (answerUnspecified v s).inLen = s.inLen := rfl
@[simp] theorem answerUnspecified_outLen (v : Nat) (s : State) : (answerUnspecified v s).outLen = s.outLen := rfl
@[simp] theorem answerUnspecified_mode (v : Nat) (s : State) : (answerUnspecified v s).mode = s.mode := rfl
@[simp] theorem answerUnspecified_n (v : Nat) (s : State) : (answerUnspecified v s).n = s.n := rfl
@[simp] theorem answerUnspecified_i (v : Nat) (s : State) : (answerUnspecified v s).i = s.i := rfl
@[simp] theorem answerUnspecified_accLen (v : Nat) (s : State) : (answerUnspecified v s).accLen = s.accLen := rfl
@[simp] theorem answerUnspecified_acc (v : Nat) (s : State) : (answerUnspecified v s).acc = s.acc := rfl
@[simp] theorem answerUnspecified_wstart (v : Nat) (s : State) : (answerUnspecified v s).wstart = s.wstart := rfl
@[simp] theorem answerUnspecified_p (v : Nat) (s : State) : (answerUnspecified v s).p = s.p := rfl
@[simp] theorem answerUnspecified_len (v : Nat) (s : State) : (answerUnspecified v s).len = s.len := rfl
@[simp] theorem answerUnspecified_bestLen (v : Nat) (s : State) : (answerUnspecified v s).bestLen = s.bestLen := rfl
@[simp] theorem answerUnspecified_bestDist (v : Nat) (s : State) : (answerUnspecified v s).bestDist = s.bestDist := rfl
@[simp] theorem answerUnspecified_rp (v : Nat) (s : State) : (answerUnspecified v s).rp = s.rp := rfl
@[simp] theorem answerUnspecified_cKind (v : Nat) (s : State) : (answerUnspecified v s).cKind = s.cKind := rfl
@[simp] theorem answerUnspecified_cLen (v : Nat) (s : State) : (answerUnspecified v s).cLen = s.cLen := rfl
@[simp] theorem answerUnspecified_cDist (v : Nat) (s : State) : (answerUnspecified v s).cDist = s.cDist := rfl
@[simp] theorem answerUnspecified_cHdr (v : Nat) (s : State) : (answerUnspecified v s).cHdr = s.cHdr := rfl
@[simp] theorem answerUnspecified_base (v : Nat) (s : State) : (answerUnspecified v s).base = s.base := rfl
@[simp] theorem answerUnspecified_k (v : Nat) (s : State) : (answerUnspecified v s).k = s.k := rfl
@[simp] theorem answerUnspecified_ibuf (v : Nat) (s : State) : (answerUnspecified v s).ibuf = s.ibuf := rfl
@[simp] theorem answerUnspecified_obuf (v : Nat) (s : State) : (answerUnspecified v s).obuf = s.obuf := rfl
@[simp] theorem answerUnspecified_inbox (v : Nat) (s : State) : (answerUnspecified v s).inbox = s.inbox := rfl
@[simp] theorem answerUnspecified_reply (v : Nat) (s : State) : (answerUnspecified v s).reply = some v := rfl
@[simp] theorem answerUnspecified_epoch (v : Nat) (s : State) : (answerUnspecified v s).epoch = s.epoch := rfl
@[simp] theorem answerUnspecified_draws (v : Nat) (s : State) : (answerUnspecified v s).draws = s.draws + 1 := rfl

/-! ### One-byte reads -/

/-- A byte of IBUF is the same in two states with the same IBUF and epoch. -/
theorem ibufByte_congr {s t : State} (hb : t.ibuf = s.ibuf) (he : t.epoch = s.epoch) (a : Nat) : ibufByte t a = ibufByte s a := by
  simp only [ibufByte, hb, he]

/-- A byte of OBUF is the same in two states with the same OBUF and epoch. -/
theorem obufByte_congr {s t : State} (hb : t.obuf = s.obuf) (he : t.epoch = s.epoch) (a : Nat) : obufByte t a = obufByte s a := by
  simp only [obufByte, hb, he]

end Sys2Proof.Machine
end

