-- ==== Sys2Proof/Laws/Memory.lean ====
section
/-! SUPPORT. The laws of a buffer: a byte reads as last written, a write leaves every other offset alone, and every write
keeps the canonical form and the capacity. -/

namespace Sys2Proof.Machine

-- One proof after the other: in parallel, each waits for the same equation lemmas on a thread of its own.
set_option Elab.async false

/-! ### Reading after writing -/

theorem Memory.read?_write_same (m : Memory) (x : Nat) (v : Byte) : Memory.read? (Memory.write m x v) x = some v := by
  induction m with
  | nil => simp [Memory.write, Memory.read?]
  | cons c m ih =>
    obtain ⟨a, w⟩ := c
    simp only [Memory.write]
    split
    · simp [Memory.read?]
    · split
      · next h => simp [Memory.read?, h]
      · next h1 h2 => simp [Memory.read?, ih, Ne.symm h2]

theorem Memory.read?_write_other (m : Memory) {x y : Nat} (v : Byte) (h : y ≠ x) :
    Memory.read? (Memory.write m x v) y = Memory.read? m y := by
  induction m with
  | nil => simp [Memory.write, Memory.read?, Ne.symm h]
  | cons c m ih =>
    obtain ⟨a, w⟩ := c
    simp only [Memory.write]
    split
    · simp [Memory.read?, Ne.symm h]
    · split
      · next h2 => subst h2; simp [Memory.read?, Ne.symm h]
      · simp only [Memory.read?, ih]

/-! ### The canonical form -/

theorem Memory.risesFrom_mono {m : Memory} {lo lo' : Nat} (h : lo' ≤ lo) (hm : Memory.risesFrom m lo = true) :
    Memory.risesFrom m lo' = true := by
  cases m with
  | nil => rfl
  | cons c m =>
    simp only [Memory.risesFrom, Bool.and_eq_true, decide_eq_true_eq] at hm ⊢
    exact ⟨by omega, hm.2⟩

theorem Memory.risesFrom_write {m : Memory} {lo x : Nat} (v : Byte) (hx : lo ≤ x) (hm : Memory.risesFrom m lo = true) :
    Memory.risesFrom (Memory.write m x v) lo = true := by
  induction m generalizing lo with
  | nil => simpa [Memory.write, Memory.risesFrom] using hx
  | cons c m ih =>
    obtain ⟨a, w⟩ := c
    simp only [Memory.risesFrom, Bool.and_eq_true, decide_eq_true_eq] at hm
    simp only [Memory.write]
    split
    · next h => simp [Memory.risesFrom, hx, hm.2, show x + 1 ≤ a by omega]
    · split
      · simp [Memory.risesFrom, hm.1, hm.2]
      · next h1 h2 => simp [Memory.risesFrom, hm.1, ih (lo := a + 1) (by omega) hm.2]

/-- Every write keeps the canonical form. -/
theorem Memory.wf_write {m : Memory} (x : Nat) (v : Byte) (hm : Memory.wf m = true) :
    Memory.wf (Memory.write m x v) = true :=
  Memory.risesFrom_write v (Nat.zero_le x) hm

/-- Writing a run of bytes keeps the canonical form. -/
theorem Memory.wf_writeSeq {vs : List Byte} {m : Memory} {x : Nat} (hm : Memory.wf m = true) :
    Memory.wf (Memory.writeSeq m x vs) = true := by
  induction vs generalizing m x with
  | nil => exact hm
  | cons v vs ih => exact ih (Memory.wf_write x v hm)

/-- The cells after a write are the old ones and the one written. -/
theorem Memory.mem_write {m : Memory} {x : Nat} {v : Byte} {c : Host.Cell} (h : c ∈ Memory.write m x v) :
    c = (x, v) ∨ c ∈ m := by
  induction m with
  | nil => simpa [Memory.write] using h
  | cons d m ih =>
    obtain ⟨a, w⟩ := d
    simp only [Memory.write] at h
    split at h
    · simpa using h
    · split at h
      · next h2 =>
        subst h2
        simp only [List.mem_cons] at h ⊢
        tauto
      · simp only [List.mem_cons] at h ⊢
        rcases h with h | h
        · exact .inr (.inl h)
        · exact (ih h).imp id .inr

/-- In canonical form equal reads are equal memories below: an offset under `lo` is not listed. -/
theorem Memory.read?_below {m : Memory} {lo x : Nat} (hm : Memory.risesFrom m lo = true) (hx : x < lo) :
    Memory.read? m x = none := by
  induction m generalizing lo with
  | nil => rfl
  | cons c m ih =>
    obtain ⟨a, w⟩ := c
    simp only [Memory.risesFrom, Bool.and_eq_true, decide_eq_true_eq] at hm
    simp only [Memory.read?, show a ≠ x by omega, if_false]
    exact ih hm.2 (by omega)

/-- Equal memories are equal data: canonical memories that read alike are the same list. -/
theorem Memory.ext_of_read? {m m' : Memory} {lo : Nat} (hm : Memory.risesFrom m lo = true)
    (hm' : Memory.risesFrom m' lo = true) (h : ∀ x, Memory.read? m x = Memory.read? m' x) : m = m' := by
  induction m generalizing m' lo with
  | nil =>
    cases m' with
    | nil => rfl
    | cons c m' => simpa [Memory.read?] using h c.1
  | cons c m ih =>
    obtain ⟨a, w⟩ := c
    cases m' with
    | nil => simpa [Memory.read?] using h a
    | cons c' m' =>
      obtain ⟨a', w'⟩ := c'
      simp only [Memory.risesFrom, Bool.and_eq_true, decide_eq_true_eq] at hm hm'
      have haa : a = a' := by
        rcases Nat.lt_trichotomy a a' with hlt | heq | hgt
        · have := h a
          simp [Memory.read?, show a' ≠ a by omega, Memory.read?_below hm'.2 (show a < a' + 1 by omega)] at this
        · exact heq
        · have := h a'
          simp [Memory.read?, show a ≠ a' by omega, Memory.read?_below hm.2 (show a' < a + 1 by omega)] at this
      subst haa
      have hw : w = w' := by simpa [Memory.read?] using h a
      subst hw
      congr 1
      refine ih hm.2 hm'.2 fun x => ?_
      by_cases hx : a = x
      · subst hx
        rw [Memory.read?_below hm.2 (Nat.lt_succ_self _), Memory.read?_below hm'.2 (Nat.lt_succ_self _)]
      · simpa [Memory.read?, hx] using h x

/-! ### One append -/

@[simp] theorem obufByte_outAppend_same (v : Byte) (s : State) : obufByte (outAppend v s) s.outLen = v := by
  simp [obufByte, Memory.read?_write_same]

theorem obufByte_outAppend_other (v : Byte) (s : State) {a : Nat} (h : a ≠ s.outLen) :
    obufByte (outAppend v s) a = obufByte s a := by
  simp [obufByte, Memory.read?_write_other _ _ h]

@[simp] theorem ibufByte_outAppend (v : Byte) (s : State) (a : Nat) : ibufByte (outAppend v s) a = ibufByte s a := rfl

end Sys2Proof.Machine
end

