-- ==== Sys2Proof/Laws/Copy.lean ====
section
/-! SUPPORT. Everything the append and copy loops do (R65, R202, R204, R205): which fields they change, what the appended
bytes are, that all other bytes of OBUF stay. -/

namespace Sys2Proof.Machine

-- One proof after the other: in parallel, each waits for the same equation lemmas on a thread of its own.
set_option Elab.async false

/-! ### Runs of bytes in a buffer -/

theorem Memory.read?_writeSeq_outside (vs : List Byte) (m : Memory) {x y : Nat} (h : y < x ∨ x + vs.length ≤ y) :
    Memory.read? (Memory.writeSeq m x vs) y = Memory.read? m y := by
  induction vs generalizing m x with
  | nil => rfl
  | cons v vs ih =>
    simp only [List.length_cons] at h
    rw [Memory.writeSeq, ih _ (by omega), Memory.read?_write_other _ _ (by omega)]

theorem Memory.read?_writeSeq_inside (vs : List Byte) (m : Memory) {x j : Nat} (h : j < vs.length) :
    Memory.read? (Memory.writeSeq m x vs) (x + j) = vs[j]? := by
  induction vs generalizing m x j with
  | nil => simp at h
  | cons v vs ih =>
    rw [Memory.writeSeq]
    cases j with
    | zero =>
      rw [Memory.read?_writeSeq_outside _ _ (by omega)]
      simpa using Memory.read?_write_same m x v
    | succ j =>
      have := ih (Memory.write m x v) (x := x + 1) (j := j) (by simpa using h)
      rw [show x + (j + 1) = x + 1 + j by omega, this]
      simp

theorem Memory.writeSeq_append (vs ws : List Byte) (m : Memory) (x : Nat) :
    Memory.writeSeq m x (vs ++ ws) = Memory.writeSeq (Memory.writeSeq m x vs) (x + vs.length) ws := by
  induction vs generalizing m x with
  | nil => rfl
  | cons v vs ih =>
    simp only [List.cons_append, Memory.writeSeq, ih, List.length_cons]
    congr 1
    omega

theorem Memory.mem_writeSeq {vs : List Byte} {m : Memory} {x : Nat} {c : Host.Cell}
    (h : c ∈ Memory.writeSeq m x vs) : (x ≤ c.1 ∧ c.1 < x + vs.length) ∨ c ∈ m := by
  induction vs generalizing m x with
  | nil => exact .inr h
  | cons v vs ih =>
    simp only [List.length_cons]
    rcases ih h with h | h
    · exact .inl ⟨by omega, by omega⟩
    · rcases Memory.mem_write h with h | h
      · subst h
        exact .inl ⟨Nat.le_refl x, by omega⟩
      · exact .inr h

/-! ### Slices -/

@[simp] theorem ibufSlice_length (s : State) (a c : Nat) : (ibufSlice s a c).length = c := by simp [ibufSlice]
@[simp] theorem obufSlice_length (s : State) (a c : Nat) : (obufSlice s a c).length = c := by simp [obufSlice]

theorem ibufSlice_getElem? (s : State) {a c j : Nat} (h : j < c) : (ibufSlice s a c)[j]? = some (ibufByte s (a + j)) := by
  simp [ibufSlice, h]

theorem obufSlice_getElem? (s : State) {a c j : Nat} (h : j < c) : (obufSlice s a c)[j]? = some (obufByte s (a + j)) := by
  simp [obufSlice, h]

theorem ibufSlice_succ (s : State) (a c : Nat) : ibufSlice s a (c + 1) = ibufByte s a :: ibufSlice s (a + 1) c := by
  simp [ibufSlice, List.range_succ_eq_map, Function.comp_def, Nat.add_comm, Nat.add_left_comm]

theorem ibufSlice_snoc (s : State) (a c : Nat) : ibufSlice s a (c + 1) = ibufSlice s a c ++ [ibufByte s (a + c)] := by
  simp [ibufSlice, List.range_succ]

theorem obufSlice_succ (s : State) (a c : Nat) : obufSlice s a (c + 1) = obufByte s a :: obufSlice s (a + 1) c := by
  simp [obufSlice, List.range_succ_eq_map, Function.comp_def, Nat.add_comm, Nat.add_left_comm]

theorem ibufSlice_append (s : State) (a c d : Nat) : ibufSlice s a (c + d) = ibufSlice s a c ++ ibufSlice s (a + c) d := by
  simp [ibufSlice, List.range_add, Function.comp_def, Nat.add_assoc]

theorem obufSlice_append (s : State) (a c d : Nat) : obufSlice s a (c + d) = obufSlice s a c ++ obufSlice s (a + c) d := by
  simp [obufSlice, List.range_add, Function.comp_def, Nat.add_assoc]

/-- A slice of IBUF depends on its bytes only. -/
theorem ibufSlice_congr {s t : State} {a c : Nat} (h : ∀ j < c, ibufByte s (a + j) = ibufByte t (a + j)) :
    ibufSlice s a c = ibufSlice t a c := by
  simp only [ibufSlice]
  exact List.map_congr_left fun j hj => h j (List.mem_range.1 hj)

/-- A slice of OBUF depends on its bytes only. -/
theorem obufSlice_congr {s t : State} {a c : Nat} (h : ∀ j < c, obufByte s (a + j) = obufByte t (a + j)) :
    obufSlice s a c = obufSlice t a c := by
  simp only [obufSlice]
  exact List.map_congr_left fun j hj => h j (List.mem_range.1 hj)

/-! ### OutAppendSeq (R65) -/

/-- All that `OutAppendSeq` does. -/
theorem outAppendSeq_eq (vs : List Byte) (s : State) :
    outAppendSeq vs s =
      { s with obuf := Memory.writeSeq s.obuf s.outLen vs, outLen := s.outLen + vs.length } := by
  induction vs generalizing s with
  | nil => rfl
  | cons v vs ih =>
    rw [outAppendSeq, ih]
    simp only [outAppend, Memory.writeSeq, List.length_cons]
    congr 1
    omega

theorem obufByte_outAppendSeq_outside (vs : List Byte) (s : State) {a : Nat}
    (h : a < s.outLen ∨ s.outLen + vs.length ≤ a) : obufByte (outAppendSeq vs s) a = obufByte s a := by
  simp only [outAppendSeq_eq, obufByte, Memory.read?_writeSeq_outside _ _ h]

/-- After `OutAppendSeq` the new end of the output is the bytes appended. -/
theorem obufSlice_outAppendSeq (vs : List Byte) (s : State) :
    obufSlice (outAppendSeq vs s) s.outLen vs.length = vs := by
  apply List.ext_getElem?
  intro j
  by_cases h : j < vs.length
  · rw [obufSlice_getElem? _ h]
    simp only [outAppendSeq_eq, obufByte, Memory.read?_writeSeq_inside _ _ h]
    simp [List.getElem?_eq_getElem h]
  · rw [List.getElem?_eq_none (by simpa using h), List.getElem?_eq_none (by omega)]

/-- The whole output after `OutAppendSeq`. -/
theorem result_outAppendSeq (vs : List Byte) (s : State) :
    obufSlice (outAppendSeq vs s) 0 (s.outLen + vs.length) = obufSlice s 0 s.outLen ++ vs := by
  rw [obufSlice_append, Nat.zero_add, obufSlice_outAppendSeq]
  congr 1
  exact obufSlice_congr fun j hj => obufByte_outAppendSeq_outside vs s (.inl (by omega))

/-! ### The literal copy (R202) -/

/-- All that `count` turns of the literal copy do: they append the payload and count. -/
theorem copyLiteral_eq (count : Nat) (s : State) :
    copyLiteral count s =
      { outAppendSeq (ibufSlice s (s.rp + s.cHdr + s.k) count) s with k := s.k + count } := by
  induction count generalizing s with
  | zero => rfl
  | succ count ih =>
    rw [copyLiteral, ih, ibufSlice_succ, outAppendSeq]
    simp only [outAppendSeq_eq, copyLiteralByte, outAppend_rp, outAppend_cHdr, outAppend_obuf, outAppend_outLen]
    rw [ibufSlice_congr (t := s) (fun j _ => rfl)]
    simp only [ibufSlice_length, show s.rp + s.cHdr + (s.k + 1) = s.rp + s.cHdr + s.k + 1 by omega,
      show s.k + 1 + count = s.k + (count + 1) by omega]
    rfl

/-! ### The overlap copy (R204, R205) -/

/-- The fields the overlap copy changes. -/
theorem copyBack_eq (count : Nat) (s : State) :
    copyBack count s =
      { s with obuf := (copyBack count s).obuf, outLen := s.outLen + count, k := s.k + count } := by
  induction count generalizing s with
  | zero => rfl
  | succ count ih =>
    rw [copyBack, ih]
    simp only [copyBackByte, outAppend]
    congr 1 <;> omega

@[simp] theorem copyBack_outLen (count : Nat) (s : State) : (copyBack count s).outLen = s.outLen + count := by
  rw [copyBack_eq]

@[simp] theorem copyBack_k (count : Nat) (s : State) : (copyBack count s).k = s.k + count := by
  rw [copyBack_eq]

theorem obufByte_copyBackByte_same (s : State) :
    obufByte (copyBackByte s) s.outLen = obufByte s (s.base + s.k) :=
  obufByte_outAppend_same _ s

theorem obufByte_copyBackByte_other (s : State) {a : Nat} (h : a ≠ s.outLen) :
    obufByte (copyBackByte s) a = obufByte s a :=
  obufByte_outAppend_other _ s h

/-- Bytes outside the appended run stay. -/
theorem obufByte_copyBack_outside (count : Nat) (s : State) {a : Nat} (h : a < s.outLen ∨ s.outLen + count ≤ a) :
    obufByte (copyBack count s) a = obufByte s a := by
  induction count generalizing s with
  | zero => rfl
  | succ count ih =>
    rw [copyBack, ih]
    · exact obufByte_copyBackByte_other s (by omega)
    · simp only [copyBackByte, outAppend]
      omega

/-- Each appended byte equals the byte the copy read for it, in the output as it ends. -/
theorem obufByte_copyBack_source (count : Nat) (s : State) (hb : s.base + s.k < s.outLen) {j : Nat} (hj : j < count) :
    obufByte (copyBack count s) (s.outLen + j) = obufByte (copyBack count s) (s.base + s.k + j) := by
  induction count generalizing s j with
  | zero => omega
  | succ count ih =>
    rw [copyBack]
    have hout : (copyBackByte s).outLen = s.outLen + 1 := rfl
    have hk : (copyBackByte s).k = s.k + 1 := rfl
    have hbase : (copyBackByte s).base = s.base := rfl
    cases j with
    | zero =>
      rw [Nat.add_zero, Nat.add_zero, obufByte_copyBack_outside _ _ (.inl (by omega)),
        obufByte_copyBack_outside _ _ (.inl (by omega)), obufByte_copyBackByte_same,
        obufByte_copyBackByte_other s (by omega)]
    | succ j =>
      have := ih (copyBackByte s) (by omega) (j := j) (by omega)
      rw [hout, hk, hbase] at this
      rw [show s.outLen + (j + 1) = s.outLen + 1 + j by omega, this,
        show s.base + s.k + (j + 1) = s.base + (s.k + 1) + j by omega]

/-- R205: the appended bytes repeat the last `d` bytes of the output, `d` the gap between source and target. -/
theorem obufByte_copyBack_periodic (count : Nat) (s : State) (d : Nat) (hd : 1 ≤ d)
    (hgap : s.base + s.k + d = s.outLen) (j : Nat) (hj : j < count) :
    obufByte (copyBack count s) (s.outLen + j) = obufByte s (s.base + s.k + j % d) := by
  induction j using Nat.strong_induction_on with
  | _ j ih =>
    rw [obufByte_copyBack_source count s (by omega) hj]
    by_cases hjd : j < d
    · rw [Nat.mod_eq_of_lt hjd, obufByte_copyBack_outside _ _ (.inl (by omega))]
    · have hmod : j % d = (j - d) % d := by
        rw [Nat.mod_eq_sub_mod (by omega)]
      have := ih (j - d) (by omega) (by omega)
      rw [hmod, ← this]
      congr 1
      omega

/-- The overlap copy keeps the canonical form. -/
theorem wf_copyBack {count : Nat} {s : State} (h : Memory.wf s.obuf = true) : Memory.wf (copyBack count s).obuf = true := by
  induction count generalizing s with
  | zero => exact h
  | succ count ih => exact ih (Memory.wf_write _ _ h)

/-- The cells after the overlap copy are the old ones and cells of the appended run. -/
theorem mem_copyBack {count : Nat} {s : State} {c : Host.Cell} (h : c ∈ (copyBack count s).obuf) :
    (s.outLen ≤ c.1 ∧ c.1 < s.outLen + count) ∨ c ∈ s.obuf := by
  induction count generalizing s with
  | zero => exact .inr h
  | succ count ih =>
    have hout : (copyBackByte s).outLen = s.outLen + 1 := rfl
    rcases ih h with h | h
    · rw [hout] at h
      exact .inl ⟨by omega, by omega⟩
    · rcases Memory.mem_write h with h | h
      · subst h
        exact .inl ⟨Nat.le_refl _, by simp⟩
      · exact .inr h

/-- Every offset of the appended run is written. -/
theorem copyBack_written {count : Nat} {s : State} (h : ∀ a < s.outLen, (Memory.read? s.obuf a).isSome = true) :
    ∀ a < (copyBack count s).outLen, (Memory.read? (copyBack count s).obuf a).isSome = true := by
  induction count generalizing s with
  | zero => exact h
  | succ count ih =>
    refine ih (s := copyBackByte s) fun a ha => ?_
    simp only [copyBackByte, outAppend] at ha ⊢
    by_cases hs : a = s.outLen
    · subst hs
      simp [Memory.read?_write_same]
    · rw [Memory.read?_write_other _ _ hs]
      exact h a (by omega)

end Sys2Proof.Machine
end

