-- ==== Sys2Proof/Laws/Chunk.lean ====
section
/-! SUPPORT. Everything the shared parts of the chunk forms can do (R137, R202 to R206), one lemma each; exec of a form is one
of them. -/

namespace Sys2Proof.Machine

/-! ### Flows -/

@[simp] theorem Flow.outcome_go (s : State) : (Flow.go s).outcome = .next s := rfl
@[simp] theorem Flow.outcome_ended (s : State) : (Flow.ended s).outcome = .next s := rfl
@[simp] theorem Flow.andThen_go (s : State) (f : State → Flow) : (Flow.go s).andThen f = f s := rfl
@[simp] theorem Flow.andThen_ended (s : State) (f : State → Flow) : (Flow.ended s).andThen f = .ended s := rfl
@[simp] theorem raise_eq (c : Cause) (pos : Nat) (s : State) : raise c pos s = .ended (errorEntry c pos s) := rfl

/-- A flow always ends in a next state. -/
theorem Flow.outcome_next (x : Flow) : ∃ t, x.outcome = .next t := by
  cases x <;> exact ⟨_, rfl⟩

/-! ### Checks -/

theorem distanceOk_iff (s : State) : distanceOk s = true ↔ 1 ≤ s.cDist ∧ s.cDist ≤ s.outLen := by
  simp [distanceOk, Nat.one_le_iff_ne_zero]

theorem capAdmits_mono {cap : Option Nat} {v w : Nat} (h : v ≤ w) (hw : capAdmits cap w = true) :
    capAdmits cap v = true := by
  cases cap with
  | none => rfl
  | some c =>
    simp only [capAdmits, decide_eq_true_eq] at hw ⊢
    omega

theorem hasOffset_of_capAdmits {cap : Option Nat} {a v : Nat} (h : a < v) (hv : capAdmits cap v = true) :
    hasOffset cap a = true := by
  cases cap with
  | none => rfl
  | some c =>
    simp only [capAdmits, hasOffset, decide_eq_true_eq] at hv ⊢
    omega

/-! ### A literal chunk (R137, R202) -/

/-- Where the literal copy starts: latched, K at 0. -/
def literalStart (length header : Nat) (s : State) : State := { latchChunk .literal length 0 header s with k := 0 }

/-- All that a literal chunk can do. -/
theorem literalChunk_cases (length header : Nat) (s : State) :
    (s.n < s.rp + header + length ∧ literalChunk length header s = .ended (errorEntry .truncPayload s.rp s)) ∨
    (s.rp + header + length ≤ s.n ∧ capAdmits s.cfg.outCap (s.outLen + length) = false ∧
      literalChunk length header s = .ended (errorEntry .outOverflow s.rp (latchChunk .literal length 0 header s))) ∨
    (s.rp + header + length ≤ s.n ∧ capAdmits s.cfg.outCap (s.outLen + length) = true ∧
      literalChunk length header s = .go (advancePastLiteral (copyLiteral length (literalStart length header s)))) := by
  by_cases h : s.rp + header + length > s.n
  · exact .inl ⟨h, by rw [literalChunk, if_pos h]; rfl⟩
  · refine .inr ?_
    rw [literalChunk, if_neg h, applyLiteral]
    cases hc : capAdmits s.cfg.outCap (s.outLen + length)
    · exact .inl ⟨by omega, rfl, by simp [hc]⟩
    · exact .inr ⟨by omega, rfl, by simp [hc]; rfl⟩

/-- The state after a literal chunk that is applied. -/
theorem literal_applied (length header : Nat) (s : State) :
    advancePastLiteral (copyLiteral length (literalStart length header s)) =
      { s with
        cKind := .literal, cLen := length, cDist := 0, cHdr := header, k := length
        rp := s.rp + header + length, outLen := s.outLen + length
        obuf := Memory.writeSeq s.obuf s.outLen (ibufSlice s (s.rp + header) length) } := by
  rw [copyLiteral_eq, outAppendSeq_eq]
  simp only [advancePastLiteral, literalStart, latchChunk, ibufSlice_length, Nat.add_zero, Nat.zero_add]
  rfl

/-! ### A back-reference chunk (R203, R204) -/

/-- Where the overlap copy starts: latched, BASE computed, K at 0. -/
def refStart (distance length header : Nat) (s : State) : State :=
  { latchChunk .backRef length distance header s with base := s.outLen - distance, k := 0 }

/-- All that a back-reference chunk can do. -/
theorem refChunk_cases (distance length header : Nat) (s : State) :
    ((distance = 0 ∨ s.outLen < distance) ∧ refChunk distance length header s =
      .ended (errorEntry .badDistance s.rp (latchChunk .backRef length distance header s))) ∨
    (1 ≤ distance ∧ distance ≤ s.outLen ∧ capAdmits s.cfg.outCap (s.outLen + length) = false ∧
      refChunk distance length header s =
        .ended (errorEntry .outOverflow s.rp (latchChunk .backRef length distance header s))) ∨
    (1 ≤ distance ∧ distance ≤ s.outLen ∧ capAdmits s.cfg.outCap (s.outLen + length) = true ∧
      refChunk distance length header s = .go (advancePastRef (copyBack length (refStart distance length header s)))) := by
  have hiff := distanceOk_iff (latchChunk .backRef length distance header s)
  simp only [latchChunk_cDist, latchChunk_outLen] at hiff
  by_cases hd : distanceOk (latchChunk .backRef length distance header s) = true
  · obtain ⟨h1, h2⟩ := hiff.1 hd
    rw [refChunk, applyRef, if_pos hd]
    cases hc : capAdmits s.cfg.outCap (s.outLen + length)
    · exact .inr (.inl ⟨h1, h2, rfl, by simp [hc]⟩)
    · exact .inr (.inr ⟨h1, h2, rfl, by simp [hc]; rfl⟩)
  · refine .inl ⟨?_, by rw [refChunk, applyRef, if_neg hd]; rfl⟩
    have := mt hiff.2 hd
    omega

/-- The fields of the state after a back-reference chunk that is applied. -/
theorem ref_applied (distance length header : Nat) (s : State) :
    advancePastRef (copyBack length (refStart distance length header s)) =
      { s with
        cKind := .backRef, cLen := length, cDist := distance, cHdr := header
        base := s.outLen - distance, k := length, rp := s.rp + header, outLen := s.outLen + length
        obuf := (copyBack length (refStart distance length header s)).obuf } := by
  rw [copyBack_eq]
  simp only [advancePastRef, refStart, latchChunk, Nat.zero_add]

end Sys2Proof.Machine
end

