-- ==== Sys2Proof/Laws/Codec.lean ====
section
/-! SUPPORT. The small lemmas of the decoder and the encoder: what each bit field of an encoded byte is, and what the decoder
can answer (one inversion lemma each), so that no later proof unfolds them. -/

namespace Sys2Proof

/-! ### Bit fields -/

theorem byteOf_toNat (v : Nat) : (byteOf v).toNat = v % 256 := by simp [byteOf]

theorem byte_lt (b : Byte) : b.toNat < 256 := by simpa using b.isLt

/-- Bits 7, 6 and 5..0 determine a byte. -/
theorem byte_eq_of_bits (b : Byte) : b.toNat = bits b 7 7 * 128 + bits b 6 6 * 64 + bits b 5 0 := by
  have := byte_lt b
  simp only [bits]
  omega

/-- Bit 7 and bits 6..0 determine a byte. -/
theorem byte_eq_of_flag (b : Byte) : b.toNat = bits b 7 7 * 128 + bits b 6 0 := by
  have := byte_lt b
  simp only [bits]
  omega

theorem bits_7_7_le (b : Byte) : bits b 7 7 ≤ 1 := by simp only [bits]; omega
theorem bits_6_6_le (b : Byte) : bits b 6 6 ≤ 1 := by simp only [bits]; omega
theorem bits_5_0_le (b : Byte) : bits b 5 0 ≤ 63 := by simp only [bits]; omega
theorem bits_6_0_le (b : Byte) : bits b 6 0 ≤ 127 := by simp only [bits]; omega

theorem byteOf_eq_of_toNat (b : Byte) : byteOf b.toNat = b := by simp [byteOf]

/-! ### Field ranges -/

@[simp] theorem shortLengthFits_iff (l : Nat) : shortLengthFits l = true ↔ l ≤ 63 := by simp [shortLengthFits]
@[simp] theorem longLengthFits_iff (l : Nat) : longLengthFits l = true ↔ l ≤ 65535 := by simp [longLengthFits]
@[simp] theorem shortDistanceFits_iff (d : Nat) : shortDistanceFits d = true ↔ d ≤ 127 := by simp [shortDistanceFits]
@[simp] theorem longDistanceFits_iff (d : Nat) : longDistanceFits d = true ↔ d ≤ 32767 := by simp [longDistanceFits]

/-! ### Encoded bytes -/

theorem bits_shortTag {v l : Nat} (hv : v ≤ 1) (hl : l ≤ 63) :
    bits (shortTag v l) 7 7 = v ∧ bits (shortTag v l) 6 6 = 0 ∧ bits (shortTag v l) 5 0 = l := by
  simp only [bits, shortTag, byteOf_toNat]
  omega

theorem bits_longTag {v : Nat} (hv : v ≤ 1) :
    bits (longTag v) 7 7 = v ∧ bits (longTag v) 6 6 = 1 ∧ bits (longTag v) 5 0 = 0 := by
  simp only [bits, longTag, byteOf_toNat]
  omega

theorem decodeLongLength_encoded {l : Nat} (hl : l ≤ Config.lenFieldMax) (rest : List Byte) :
    decodeLongLength (longLengthBytes l ++ rest) = .ok (l, rest) := by
  have : l ≤ 65535 := hl
  simp only [longLengthBytes, List.cons_append, List.nil_append, decodeLongLength, bigEndian, byteOf_toNat]
  congr 2
  omega

theorem decodeDistance_short {d : Nat} (hd : d ≤ Config.shortDistMax) (one two : Nat → Instr) (rest : List Byte) :
    decodeDistance one two (shortDistanceBytes d ++ rest) = .ok (one d) := by
  have : d ≤ 127 := hd
  have h7 : bits (byteOf d) 7 7 ≠ 1 := by simp only [bits, byteOf_toNat]; omega
  have h6 : bits (byteOf d) 6 0 = d := by simp only [bits, byteOf_toNat]; omega
  simp only [shortDistanceBytes, List.cons_append, decodeDistance, if_neg h7, h6]

theorem decodeDistance_long {d : Nat} (hd : d ≤ Config.distFieldMax) (one two : Nat → Instr) (rest : List Byte) :
    decodeDistance one two (longDistanceBytes d ++ rest) = .ok (two d) := by
  have : d ≤ 32767 := hd
  have h7 : bits (byteOf (128 + d / 256)) 7 7 = 1 := by simp only [bits, byteOf_toNat]; omega
  have h6 : bigEndian (bits (byteOf (128 + d / 256)) 6 0) (byteOf (d % 256)).toNat = d := by
    simp only [bigEndian, bits, byteOf_toNat]; omega
  simp only [longDistanceBytes, List.cons_append, decodeDistance, if_pos h7, h6]

/-! ### Inversion: what the decoder can answer -/

theorem decodeDistance_ok {one two : Nat → Instr} {bs : List Byte} {i : Instr} (h : decodeDistance one two bs = .ok i) :
    (∃ e rest, bs = e :: rest ∧ bits e 7 7 = 0 ∧ i = one (bits e 6 0)) ∨
    ∃ e d rest, bs = e :: d :: rest ∧ bits e 7 7 = 1 ∧ i = two (bigEndian (bits e 6 0) d.toNat) := by
  match bs, h with
  | [], h => simp [decodeDistance] at h
  | [e], h =>
    by_cases h7 : bits e 7 7 = 1
    · simp [decodeDistance, h7] at h
    · simp only [decodeDistance, if_neg h7, Except.ok.injEq] at h
      have := bits_7_7_le e
      exact .inl ⟨e, [], rfl, by omega, h.symm⟩
  | e :: d :: rest, h =>
    by_cases h7 : bits e 7 7 = 1
    · simp only [decodeDistance, if_pos h7, Except.ok.injEq] at h
      exact .inr ⟨e, d, rest, rfl, h7, h.symm⟩
    · simp only [decodeDistance, if_neg h7, Except.ok.injEq] at h
      have := bits_7_7_le e
      exact .inl ⟨e, d :: rest, rfl, by omega, h.symm⟩

theorem decodeDistance_error {one two : Nat → Instr} {bs : List Byte} {c : Cause}
    (h : decodeDistance one two bs = .error c) :
    c = .truncHeader ∧ (bs = [] ∨ ∃ e, bs = [e] ∧ bits e 7 7 = 1) := by
  match bs, h with
  | [], h => exact ⟨by simpa [decodeDistance, eq_comm] using h, .inl rfl⟩
  | [e], h =>
    by_cases h7 : bits e 7 7 = 1
    · exact ⟨by simpa [decodeDistance, h7, eq_comm] using h, .inr ⟨e, rfl, h7⟩⟩
    · simp [decodeDistance, h7] at h
  | e :: d :: rest, h =>
    by_cases h7 : bits e 7 7 = 1 <;> simp [decodeDistance, h7] at h

/-- The decoder's answer by the top two bits of the tag byte (R104), one equation each. -/
theorem decodeChunk_litS {t : Byte} (rest : List Byte) (h6 : bits t 6 6 = 0) (h7 : bits t 7 7 = 0) :
    decodeChunk (t :: rest) = .ok (.litS (bits t 5 0)) := by simp [decodeChunk, h6, h7]

theorem decodeChunk_refS {t : Byte} (rest : List Byte) (h6 : bits t 6 6 = 0) (h7 : bits t 7 7 = 1) :
    decodeChunk (t :: rest) = decodeDistance (fun d => .refS1 d (bits t 5 0)) (fun d => .refS2 d (bits t 5 0)) rest := by
  simp [decodeChunk, h6, h7]

theorem decodeChunk_reserved {t : Byte} (rest : List Byte) (h6 : bits t 6 6 = 1) (h5 : bits t 5 0 ≠ 0) :
    decodeChunk (t :: rest) = .error .reservedTag := by simp [decodeChunk, h6, h5]

theorem decodeChunk_litL {t : Byte} (hi lo : Byte) (rest : List Byte) (h6 : bits t 6 6 = 1) (h5 : bits t 5 0 = 0)
    (h7 : bits t 7 7 = 0) : decodeChunk (t :: hi :: lo :: rest) = .ok (.litL (bigEndian hi.toNat lo.toNat)) := by
  simp [decodeChunk, decodeLongLength, h6, h5, h7]

theorem decodeChunk_refL {t : Byte} (hi lo : Byte) (rest : List Byte) (h6 : bits t 6 6 = 1) (h5 : bits t 5 0 = 0)
    (h7 : bits t 7 7 = 1) :
    decodeChunk (t :: hi :: lo :: rest) =
      decodeDistance (fun d => .refL1 d (bigEndian hi.toNat lo.toNat)) (fun d => .refL2 d (bigEndian hi.toNat lo.toNat))
        rest := by
  simp [decodeChunk, decodeLongLength, h6, h5, h7]

theorem decodeChunk_shortLong {t : Byte} {rest : List Byte} (h6 : bits t 6 6 = 1) (h5 : bits t 5 0 = 0)
    (hr : rest.length < 2) : decodeChunk (t :: rest) = .error .truncHeader := by
  match rest, hr with
  | [], _ => simp [decodeChunk, decodeLongLength, h6, h5]
  | [_], _ => simp [decodeChunk, decodeLongLength, h6, h5]

/-- A decoded chunk is one of the six forms, its fields read from the bytes of its header. -/
theorem decodeChunk_ok {bs : List Byte} {i : Instr} (h : decodeChunk bs = .ok i) :
    (∃ t rest, bs = t :: rest ∧ bits t 6 6 = 0 ∧ bits t 7 7 = 0 ∧ i = .litS (bits t 5 0)) ∨
    (∃ t e rest, bs = t :: e :: rest ∧ bits t 6 6 = 0 ∧ bits t 7 7 = 1 ∧ bits e 7 7 = 0 ∧
      i = .refS1 (bits e 6 0) (bits t 5 0)) ∨
    (∃ t e d rest, bs = t :: e :: d :: rest ∧ bits t 6 6 = 0 ∧ bits t 7 7 = 1 ∧ bits e 7 7 = 1 ∧
      i = .refS2 (bigEndian (bits e 6 0) d.toNat) (bits t 5 0)) ∨
    (∃ t hi lo rest, bs = t :: hi :: lo :: rest ∧ bits t 6 6 = 1 ∧ bits t 5 0 = 0 ∧ bits t 7 7 = 0 ∧
      i = .litL (bigEndian hi.toNat lo.toNat)) ∨
    (∃ t hi lo e rest, bs = t :: hi :: lo :: e :: rest ∧ bits t 6 6 = 1 ∧ bits t 5 0 = 0 ∧ bits t 7 7 = 1 ∧
      bits e 7 7 = 0 ∧ i = .refL1 (bits e 6 0) (bigEndian hi.toNat lo.toNat)) ∨
    (∃ t hi lo e d rest, bs = t :: hi :: lo :: e :: d :: rest ∧ bits t 6 6 = 1 ∧ bits t 5 0 = 0 ∧ bits t 7 7 = 1 ∧
      bits e 7 7 = 1 ∧ i = .refL2 (bigEndian (bits e 6 0) d.toNat) (bigEndian hi.toNat lo.toNat)) := by
  match bs, h with
  | [], h => simp [decodeChunk] at h
  | t :: rest, h =>
    have l6 := bits_6_6_le t
    have l7 := bits_7_7_le t
    by_cases h6 : bits t 6 6 = 1
    · by_cases h5 : bits t 5 0 = 0
      · match rest, h with
        | [], h => simp [decodeChunk_shortLong h6 h5] at h
        | [_], h => simp [decodeChunk_shortLong h6 h5] at h
        | hi :: lo :: rest, h =>
          by_cases h7 : bits t 7 7 = 1
          · rw [decodeChunk_refL hi lo rest h6 h5 h7] at h
            rcases decodeDistance_ok h with ⟨e, r, rfl, he, rfl⟩ | ⟨e, d, r, rfl, he, rfl⟩
            · exact .inr (.inr (.inr (.inr (.inl ⟨t, hi, lo, e, r, rfl, h6, h5, h7, he, rfl⟩))))
            · exact .inr (.inr (.inr (.inr (.inr ⟨t, hi, lo, e, d, r, rfl, h6, h5, h7, he, rfl⟩))))
          · have h7' : bits t 7 7 = 0 := by omega
            rw [decodeChunk_litL hi lo rest h6 h5 h7', Except.ok.injEq] at h
            exact .inr (.inr (.inr (.inl ⟨t, hi, lo, rest, rfl, h6, h5, h7', h.symm⟩)))
      · simp [decodeChunk_reserved rest h6 h5] at h
    · have h6' : bits t 6 6 = 0 := by omega
      by_cases h7 : bits t 7 7 = 1
      · rw [decodeChunk_refS rest h6' h7] at h
        rcases decodeDistance_ok h with ⟨e, r, rfl, he, rfl⟩ | ⟨e, d, r, rfl, he, rfl⟩
        · exact .inr (.inl ⟨t, e, r, rfl, h6', h7, he, rfl⟩)
        · exact .inr (.inr (.inl ⟨t, e, d, r, rfl, h6', h7, he, rfl⟩))
      · have h7' : bits t 7 7 = 0 := by omega
        rw [decodeChunk_litS rest h6' h7', Except.ok.injEq] at h
        exact .inl ⟨t, rest, rfl, h6', h7', h.symm⟩

/-- The decoder rejects a stream with one of two causes only. -/
theorem decodeChunk_error {bs : List Byte} {c : Cause} (h : decodeChunk bs = .error c) :
    c = .reservedTag ∨ c = .truncHeader := by
  match bs, h with
  | [], h => exact .inr (by simpa [decodeChunk, eq_comm] using h)
  | t :: rest, h =>
    have l6 := bits_6_6_le t
    have l7 := bits_7_7_le t
    by_cases h6 : bits t 6 6 = 1
    · by_cases h5 : bits t 5 0 = 0
      · match rest, h with
        | [], h => exact .inr (by simpa [decodeChunk_shortLong h6 h5, eq_comm] using h)
        | [_], h => exact .inr (by simpa [decodeChunk_shortLong h6 h5, eq_comm] using h)
        | hi :: lo :: rest, h =>
          by_cases h7 : bits t 7 7 = 1
          · rw [decodeChunk_refL hi lo rest h6 h5 h7] at h
            exact .inr (decodeDistance_error h).1
          · simp [decodeChunk_litL hi lo rest h6 h5 (by omega)] at h
      · exact .inl (by simpa [decodeChunk_reserved rest h6 h5, eq_comm] using h)
    · by_cases h7 : bits t 7 7 = 1
      · rw [decodeChunk_refS rest (by omega) h7] at h
        exact .inr (decodeDistance_error h).1
      · simp [decodeChunk_litS rest (show bits t 6 6 = 0 by omega) (by omega)] at h

/-- A decoded chunk lies in the bytes given: its header is not longer than they are, and not empty. -/
theorem decodeChunk_headerSize {bs : List Byte} {i : Instr} (h : decodeChunk bs = .ok i) :
    1 ≤ i.headerSize ∧ i.headerSize ≤ bs.length ∧ i.headerSize ≤ 5 := by
  rcases decodeChunk_ok h with ⟨_, _, rfl, -, -, rfl⟩ | ⟨_, _, _, rfl, -, -, -, rfl⟩ | ⟨_, _, _, _, rfl, -, -, -, rfl⟩ |
    ⟨_, _, _, _, rfl, -, -, -, rfl⟩ | ⟨_, _, _, _, _, rfl, -, -, -, -, rfl⟩ | ⟨_, _, _, _, _, _, rfl, -, -, -, -, rfl⟩ <;>
  simp [Instr.headerSize]

/-- Decoding looks at the header only: five bytes of a longer stream decide it. -/
theorem decodeChunk_take (bs : List Byte) : decodeChunk (bs.take 5) = decodeChunk bs := by
  match bs with
  | [] => rfl
  | [_] => rfl
  | [_, _] => rfl
  | [_, _, _] => rfl
  | [_, _, _, _] => rfl
  | t :: b1 :: b2 :: b3 :: b4 :: rest =>
    simp only [List.take_succ_cons, List.take_zero, decodeChunk, decodeLongLength, decodeDistance]

end Sys2Proof
end

