-- ==== Sys2Proof/Laws/Matcher.lean ====
section
/-! SUPPORT. What the match extension and the scan compute: the loop invariants of R155 and R157. -/

namespace Sys2Proof.Machine

-- One proof after the other: in parallel, each waits for the same equation lemmas on a thread of its own.
set_option Elab.async false

/-! ### Match extension (R155) -/

theorem extendMatch_ge (input : Nat → Byte) (n p i budget len : Nat) : len ≤ extendMatch input n p i budget len := by
  induction budget generalizing len with
  | zero => exact Nat.le_refl len
  | succ budget ih =>
    rw [extendMatch]
    split
    · exact Nat.le_trans (Nat.le_succ len) (ih (len + 1))
    · exact Nat.le_refl len

theorem extendMatch_le (input : Nat → Byte) (n p i budget len : Nat) :
    extendMatch input n p i budget len ≤ len + budget := by
  induction budget generalizing len with
  | zero => exact Nat.le_refl len
  | succ budget ih =>
    rw [extendMatch]
    split
    · have := ih (len + 1)
      omega
    · omega

theorem extendMatch_le_end (input : Nat → Byte) (n p i budget len : Nat) (h : i + len ≤ n) :
    i + extendMatch input n p i budget len ≤ n := by
  induction budget generalizing len with
  | zero => exact h
  | succ budget ih =>
    rw [extendMatch]
    split
    · next hc => exact ih (len + 1) (by omega)
    · exact h

/-- The bytes the extension has passed agree. -/
theorem extendMatch_agrees (input : Nat → Byte) (n p i budget len : Nat) {j : Nat} (hlen : len ≤ j)
    (hj : j < extendMatch input n p i budget len) : input (p + j) = input (i + j) := by
  induction budget generalizing len with
  | zero => simp only [extendMatch] at hj; omega
  | succ budget ih =>
    rw [extendMatch] at hj
    split at hj
    · next hc =>
      by_cases he : j = len
      · subst he
        exact hc.2
      · exact ih (len + 1) (by omega) hj
    · omega

/-- Where the extension stops, one of its three conditions fails. -/
theorem extendMatch_stops (input : Nat → Byte) (n p i budget len : Nat) :
    extendMatch input n p i budget len = len + budget ∨ n ≤ i + extendMatch input n p i budget len ∨
      input (p + extendMatch input n p i budget len) ≠ input (i + extendMatch input n p i budget len) := by
  induction budget generalizing len with
  | zero => exact .inl rfl
  | succ budget ih =>
    rw [extendMatch]
    split
    · rcases ih (len + 1) with h | h | h
      · exact .inl (by omega)
      · exact .inr (.inl h)
      · exact .inr (.inr h)
    · next hc =>
      by_cases hn : i + len < n
      · exact .inr (.inr fun he => hc ⟨hn, he⟩)
      · exact .inr (.inl (by omega))

theorem matchLen_le_maxLen (input : Nat → Byte) (n p i : Nat) : matchLen input n p i ≤ Config.maxLen := by
  have := extendMatch_le input n p i Config.maxLen 0
  unfold matchLen
  omega

/-- The matcher reads the input at and above `p`, below `n`, only. -/
theorem extendMatch_congr {input input' : Nat → Byte} {n p i : Nat} (hp : p ≤ i) (h : ∀ a < n, input a = input' a)
    (budget len : Nat) : extendMatch input n p i budget len = extendMatch input' n p i budget len := by
  induction budget generalizing len with
  | zero => rfl
  | succ budget ih =>
    simp only [extendMatch, ih]
    by_cases hn : i + len < n
    · rw [h (p + len) (by omega), h (i + len) hn]
    · simp [hn]

/-! ### The scan (R156, R157) -/

/-- All that the scan of `count` candidates from `p` does to the best pair: it stays, and then no candidate is longer; or it
is that of the first candidate of the greatest length, which is greater than the old one. -/
theorem scanWindow_cases (input : Nat → Byte) (n i count p : Nat) (r : Search) :
    ((scanWindow input n i count p r).bestLen = r.bestLen ∧ (scanWindow input n i count p r).bestDist = r.bestDist ∧
      ∀ q, p ≤ q → q < p + count → matchLen input n q i ≤ r.bestLen) ∨
    ∃ q, p ≤ q ∧ q < p + count ∧ r.bestLen < matchLen input n q i ∧
      (scanWindow input n i count p r).bestLen = matchLen input n q i ∧
      (scanWindow input n i count p r).bestDist = i - q ∧
      (∀ q', p ≤ q' → q' < q → matchLen input n q' i < matchLen input n q i) ∧
      ∀ q', p ≤ q' → q' < p + count → matchLen input n q' i ≤ matchLen input n q i := by
  induction count generalizing p r with
  | zero => exact .inl ⟨rfl, rfl, fun q h1 h2 => by omega⟩
  | succ count ih =>
    rw [scanWindow]
    by_cases hgt : matchLen input n p i > r.bestLen
    · have hr : tryCandidate input n i p r =
          { p := p, len := matchLen input n p i, bestLen := matchLen input n p i, bestDist := i - p } := by
        rw [tryCandidate, if_pos hgt]
      rw [hr]
      rcases ih (p + 1) _ with ⟨h1, h2, h3⟩ | ⟨q, hq1, hq2, hq3, hq4, hq5, hq6, hq7⟩
      · refine .inr ⟨p, Nat.le_refl p, by omega, hgt, h1, h2, fun q' a b => by omega, fun q' a b => ?_⟩
        by_cases he : q' = p
        · rw [he]
        · exact h3 q' (by omega) (by omega)
      · have hq3' : matchLen input n p i < matchLen input n q i := hq3
        refine .inr ⟨q, by omega, by omega, by omega, hq4, hq5, fun q' a b => ?_, fun q' a b => ?_⟩
        · by_cases he : q' = p
          · rw [he]; exact hq3'
          · exact hq6 q' (by omega) b
        · by_cases he : q' = p
          · rw [he]; exact Nat.le_of_lt hq3'
          · exact hq7 q' (by omega) (by omega)
    · have hr : tryCandidate input n i p r = { r with p := p, len := matchLen input n p i } := by
        rw [tryCandidate, if_neg hgt]
      rw [hr]
      have hle : matchLen input n p i ≤ r.bestLen := by omega
      rcases ih (p + 1) _ with ⟨h1, h2, h3⟩ | ⟨q, hq1, hq2, hq3, hq4, hq5, hq6, hq7⟩
      · refine .inl ⟨h1, h2, fun q' a b => ?_⟩
        by_cases he : q' = p
        · rw [he]; exact hle
        · exact h3 q' (by omega) (by omega)
      · have hq3' : r.bestLen < matchLen input n q i := hq3
        refine .inr ⟨q, by omega, by omega, hq3', hq4, hq5, fun q' a b => ?_, fun q' a b => ?_⟩
        · by_cases he : q' = p
          · rw [he]; omega
          · exact hq6 q' (by omega) b
        · by_cases he : q' = p
          · rw [he]; omega
          · exact hq7 q' (by omega) (by omega)

/-- The last candidate and its length stand in P and LEN. -/
theorem scanWindow_last (input : Nat → Byte) (n i count p : Nat) (r : Search) :
    (scanWindow input n i (count + 1) p r).p = p + count ∧
      (scanWindow input n i (count + 1) p r).len = matchLen input n (p + count) i := by
  induction count generalizing p r with
  | zero =>
    simp only [scanWindow, tryCandidate]
    split <;> exact ⟨rfl, rfl⟩
  | succ count ih =>
    rw [scanWindow]
    have := ih (p + 1) (tryCandidate input n i p r)
    rw [show p + (count + 1) = p + 1 + count by omega]
    exact this

theorem windowStart_le (i : Nat) : windowStart i ≤ i := by
  unfold windowStart
  split <;> omega

theorem windowStart_reach (i : Nat) : i - windowStart i ≤ Config.maxDist := by
  unfold windowStart
  split <;> omega

/-- The window is not empty where the engine searches. -/
theorem windowStart_lt {i : Nat} (h : 1 ≤ i) : windowStart i < i := by
  have : 0 < Config.maxDist := by decide
  unfold windowStart
  split <;> omega

/-- Equal inputs below N give equal searches. -/
theorem scanWindow_congr {input input' : Nat → Byte} {n i : Nat} (h : ∀ a < n, input a = input' a) (count p : Nat)
    (hp : p + count ≤ i) (r : Search) : scanWindow input n i count p r = scanWindow input' n i count p r := by
  induction count generalizing p r with
  | zero => rfl
  | succ count ih =>
    have hm : matchLen input n p i = matchLen input' n p i := extendMatch_congr (by omega) h _ _
    rw [scanWindow, scanWindow, ih (p + 1) (by omega), tryCandidate, tryCandidate, hm]

theorem findMatch_congr {input input' : Nat → Byte} {n i : Nat} (h : ∀ a < n, input a = input' a) :
    findMatch input n i = findMatch input' n i := by
  have := windowStart_le i
  exact scanWindow_congr h _ _ (by omega) _

end Sys2Proof.Machine
end

