-- ==== Sys2Proof/Laws/Emitter.lean ====
section
/-! SUPPORT. Everything the chunk emitter can do (R124, R125, R127, R163, R164). -/

namespace Sys2Proof.Machine

/-! ### Encode -/

theorem encodeValue_literal {bytes : List Byte} (h : bytes.length ≤ 65535) :
    encodeValue (.literal bytes) = .ok (encLen 0 bytes.length ++ bytes) := by
  rw [encodeValue, if_neg (by simpa using h)]

theorem encodeValue_backRef {distance length : Nat} (h1 : 1 ≤ distance) (h2 : distance ≤ 32767) (h3 : length ≤ 65535) :
    encodeValue (.backRef distance length) = .ok (encLen 1 length ++ encDist distance) := by
  rw [encodeValue, if_neg (show ¬(distance = 0 ∨ distance > 32767 ∨ length > 65535) by omega)]

theorem encodeValue_error {c : ChunkValue} {cause : Cause} (h : encodeValue c = .error cause) :
    cause = .encodingRange := by
  cases c <;> simp only [encodeValue] at h <;> split at h <;> simp_all

/-! ### emitChunk (R163, R164, R259) -/

/-- All that emitting a chunk can do. -/
theorem emitChunk_cases (c : ChunkValue) (pos : Nat) (s : State) :
    (encodeValue c = .error .encodingRange ∧ emitChunk c pos s = .ended (errorEntry .encodingRange pos s)) ∨
    ∃ bytes, encodeValue c = .ok bytes ∧
      ((capAdmits s.cfg.outCap (s.outLen + bytes.length) = false ∧
          emitChunk c pos s = .ended (errorEntry .outOverflow pos s)) ∨
        (capAdmits s.cfg.outCap (s.outLen + bytes.length) = true ∧
          emitChunk c pos s = .go (outAppendSeq bytes s))) := by
  cases h : encodeValue c with
  | error cause =>
    have := encodeValue_error h
    subst this
    exact .inl ⟨rfl, by rw [emitChunk, h]; rfl⟩
  | ok bytes =>
    refine .inr ⟨bytes, rfl, ?_⟩
    cases hc : capAdmits s.cfg.outCap (s.outLen + bytes.length)
    · exact .inl ⟨rfl, by simp [emitChunk, h, hc]⟩
    · exact .inr ⟨rfl, by simp [emitChunk, h, hc]⟩

/-- All that the flush of a non-empty accumulator can do, the accumulator no longer than its length field can say. -/
theorem flushNonEmpty_cases (pos : Nat) (s : State) (hl : s.acc.length = s.accLen) (hs : s.accLen ≤ 65535) :
    (capAdmits s.cfg.outCap (s.outLen + (literalBytes s.acc).length) = false ∧ 0 < s.accLen ∧
      flushNonEmpty pos s = .ended (errorEntry .outOverflow pos s)) ∨
    ((capAdmits s.cfg.outCap (s.outLen + (literalBytes s.acc).length) = true ∨ s.accLen = 0) ∧
      flushNonEmpty pos s = .go (clearAccumulator (outAppendSeq (literalBytes s.acc) s))) := by
  rw [flushNonEmpty]
  by_cases h0 : s.accLen > 0
  · rw [if_pos h0, literalBytes, if_neg (by omega), flush]
    rcases emitChunk_cases (.literal s.acc) pos s with ⟨he, -⟩ | ⟨bytes, he, h⟩
    · rw [encodeValue_literal (by omega)] at he
      simp at he
    · rw [encodeValue_literal (by omega), Except.ok.injEq] at he
      subst he
      rcases h with ⟨h1, h2⟩ | ⟨h1, h2⟩
      · exact .inl ⟨h1, h0, by rw [h2]; rfl⟩
      · exact .inr ⟨.inl h1, by rw [h2]; rfl⟩
  · have hz : s.acc = [] := List.eq_nil_of_length_eq_zero (by omega)
    refine .inr ⟨.inr (by omega), ?_⟩
    rw [if_neg h0]
    have : clearAccumulator (outAppendSeq (literalBytes s.acc) s) = { s with acc := [], accLen := 0 } := by
      rw [hz]; rfl
    rw [this]
    congr 1
    have h1 : s.accLen = 0 := by omega
    cases s
    simp_all

end Sys2Proof.Machine
end

