-- ==== Sys2Proof/Laws/Compressor.lean ====
section
/-! SUPPORT. Everything one compressor iteration and the finish can do (R157, R160 to R166), one lemma each. -/

namespace Sys2Proof.Machine

/-! ### The search's answer (R157) -/

/-- A best match is a real one: its distance names a candidate of the window, and the input repeats there for its length. -/
theorem findMatch_valid {input : Nat → Byte} {n i : Nat} (hi : i < n) (h : 1 ≤ (findMatch input n i).bestLen) :
    1 ≤ (findMatch input n i).bestDist ∧ (findMatch input n i).bestDist ≤ i ∧
    (findMatch input n i).bestDist ≤ 32767 ∧ (findMatch input n i).bestLen ≤ 32767 ∧
    i + (findMatch input n i).bestLen ≤ n ∧
    ∀ j < (findMatch input n i).bestLen, input (i + j) = input (i - (findMatch input n i).bestDist + j) := by
  have hr : i - windowStart i ≤ 32767 := windowStart_reach i
  have hw := windowStart_le i
  unfold findMatch at h ⊢
  rcases scanWindow_cases input n i (i - windowStart i) (windowStart i)
    { p := windowStart i, len := 0, bestLen := 0, bestDist := 0 } with ⟨h1, -⟩ | ⟨q, h1, h2, -, h4, h5, -⟩
  · rw [h1] at h
    exact absurd h (by simp)
  · rw [h4, h5]
    have hm : matchLen input n q i ≤ 32767 := matchLen_le_maxLen input n q i
    refine ⟨by omega, by omega, by omega, hm, extendMatch_le_end input n q i _ 0 (by omega), fun j hj => ?_⟩
    rw [show i - (i - q) = q by omega]
    exact (extendMatch_agrees input n q i _ 0 (Nat.zero_le j) hj).symm

theorem findMatch_bestLen_le {input : Nat → Byte} {n i : Nat} (hi : i < n) : (findMatch input n i).bestLen ≤ 32767 := by
  by_cases h : 1 ≤ (findMatch input n i).bestLen
  · exact (findMatch_valid hi h).2.2.2.1
  · omega

theorem findMatch_bestDist_le (input : Nat → Byte) (n i : Nat) : (findMatch input n i).bestDist ≤ 32767 := by
  have hr : i - windowStart i ≤ 32767 := windowStart_reach i
  unfold findMatch
  rcases scanWindow_cases input n i (i - windowStart i) (windowStart i)
    { p := windowStart i, len := 0, bestLen := 0, bestDist := 0 } with ⟨-, h1, -⟩ | ⟨q, h1, h2, -, h4, h5, -⟩
  · rw [h1]
    exact Nat.zero_le _
  · rw [h5]
    omega

/-- P and LEN after the search: the last candidate and its match length. -/
theorem findMatch_last {input : Nat → Byte} {n i : Nat} (h : 1 ≤ i) :
    (findMatch input n i).p = i - 1 ∧ (findMatch input n i).len = matchLen input n (i - 1) i := by
  have hlt := windowStart_lt h
  have := scanWindow_last input n i (i - windowStart i - 1) (windowStart i)
    { p := windowStart i, len := 0, bestLen := 0, bestDist := 0 }
  rw [show i - windowStart i - 1 + 1 = i - windowStart i by omega,
    show windowStart i + (i - windowStart i - 1) = i - 1 by omega] at this
  exact this

/-! ### One iteration (R165) -/

/-- The bytes a qualifying match emits at I: the accumulator's chunk, then the back-reference. -/
def matchBytes (s : State) : List Byte :=
  literalBytes s.acc ++ backRefBytes (findMatch (ibufByte s) s.n s.i).bestDist (findMatch (ibufByte s) s.n s.i).bestLen

/-- The state after a match step that fits. -/
def afterMatch (s : State) : State :=
  { clearAccumulator (outAppendSeq (matchBytes s) (searchStep s)) with
    i := s.i + (findMatch (ibufByte s) s.n s.i).bestLen }

/-- All that a match step does, every error included. -/
theorem compStep_match (s : State) (hi : s.i < s.n) (hq : 7 ≤ (findMatch (ibufByte s) s.n s.i).bestLen)
    (hl : s.acc.length = s.accLen) (hs : s.accLen ≤ 65535) :
    (capAdmits s.cfg.outCap (s.outLen + (matchBytes s).length) = false ∧
      (compStep s = .ended (errorEntry .outOverflow s.i (searchStep s)) ∨
        (capAdmits s.cfg.outCap (s.outLen + (literalBytes s.acc).length) = true ∨ s.accLen = 0) ∧
          compStep s = .ended (errorEntry .outOverflow s.i
            (clearAccumulator (outAppendSeq (literalBytes s.acc) (searchStep s)))))) ∨
    (capAdmits s.cfg.outCap (s.outLen + (matchBytes s).length) = true ∧ compStep s = .go (afterMatch s)) := by
  obtain ⟨d1, -, d2, l1, -, -⟩ := findMatch_valid hi (by omega : 1 ≤ (findMatch (ibufByte s) s.n s.i).bestLen)
  have hqual : qualifies (searchStep s).bestLen = true := decide_eq_true hq
  rw [compStep, matchOrLiteral, if_pos hqual, matchStep]
  rcases flushNonEmpty_cases s.i (searchStep s) hl hs with ⟨hc, -, he⟩ | ⟨hc, he⟩
  · refine .inl ⟨?_, .inl (by rw [he]; rfl)⟩
    by_contra hcon
    rw [Bool.not_eq_false] at hcon
    refine Bool.false_ne_true (hc.symm.trans (capAdmits_mono ?_ hcon))
    show s.outLen + (literalBytes s.acc).length ≤ _
    simp only [matchBytes, List.length_append]
    omega
  · rw [he, Flow.andThen_go]
    set u := clearAccumulator (outAppendSeq (literalBytes (searchStep s).acc) (searchStep s)) with hu
    have hout : u.outLen = s.outLen + (literalBytes s.acc).length := by
      rw [hu, outAppendSeq_eq]; rfl
    have hcfg : u.cfg = s.cfg := by rw [hu, outAppendSeq_eq]; rfl
    have hbd : u.bestDist = (findMatch (ibufByte s) s.n s.i).bestDist := by rw [hu, outAppendSeq_eq]; rfl
    have hbl : u.bestLen = (findMatch (ibufByte s) s.n s.i).bestLen := by rw [hu, outAppendSeq_eq]; rfl
    rw [hbd, hbl]
    rcases emitChunk_cases (.backRef (findMatch (ibufByte s) s.n s.i).bestDist (findMatch (ibufByte s) s.n s.i).bestLen)
      s.i u with ⟨h0, -⟩ | ⟨bytes, h0, h1⟩
    · rw [encodeValue_backRef d1 d2 (by omega)] at h0
      simp at h0
    · rw [encodeValue_backRef d1 d2 (by omega), Except.ok.injEq] at h0
      subst h0
      have hlen : u.outLen + (encLen 1 (findMatch (ibufByte s) s.n s.i).bestLen ++
          encDist (findMatch (ibufByte s) s.n s.i).bestDist).length = s.outLen + (matchBytes s).length := by
        rw [hout, matchBytes, backRefBytes]
        simp only [List.length_append]
        omega
      rw [hlen, hcfg] at h1
      rcases h1 with ⟨h1, h2⟩ | ⟨h1, h2⟩
      · exact .inl ⟨h1, .inr ⟨hc, by rw [h2]; rfl⟩⟩
      · refine .inr ⟨h1, ?_⟩
        rw [h2, Flow.andThen_go, Flow.andThen_go, sizeFlush, if_neg]
        · rw [hu]
          simp only [outAppendSeq_eq, clearAccumulator, advancePastMatch, afterMatch, matchBytes, backRefBytes,
            Memory.writeSeq_append, List.length_append]
          congr 1
          simp only [searchStep]
          congr 1
          omega
        · show ¬(0 ≥ Config.litMax)
          decide

/-- All that a literal step below the flush threshold does. -/
theorem compStep_literal (s : State) (hq : (findMatch (ibufByte s) s.n s.i).bestLen ≤ 6) (hs : s.accLen + 1 < 65535) :
    compStep s = .go (literalStep (searchStep s)) := by
  have hqual : qualifies (searchStep s).bestLen = false :=
    decide_eq_false (show ¬(7 ≤ (findMatch (ibufByte s) s.n s.i).bestLen) by omega)
  rw [compStep, matchOrLiteral, if_neg (by rw [hqual]; exact Bool.false_ne_true), Flow.andThen_go, sizeFlush, if_neg]
  show ¬(s.accLen + 1 ≥ 65535)
  omega

/-- All that a literal step that reaches the flush threshold does (R162). -/
theorem compStep_flush (s : State) (hq : (findMatch (ibufByte s) s.n s.i).bestLen ≤ 6) (hs : s.accLen + 1 = 65535)
    (hl : s.acc.length = s.accLen) :
    (capAdmits s.cfg.outCap (s.outLen + (s.accLen + 4)) = false ∧
      compStep s = .ended (errorEntry .outOverflow s.i (literalStep (searchStep s)))) ∨
    (capAdmits s.cfg.outCap (s.outLen + (s.accLen + 4)) = true ∧
      compStep s = .go (clearAccumulator (outAppendSeq (literalBytes (s.acc ++ [ibufByte s s.i]))
        (literalStep (searchStep s))))) := by
  have hqual : qualifies (searchStep s).bestLen = false :=
    decide_eq_false (show ¬(7 ≤ (findMatch (ibufByte s) s.n s.i).bestLen) by omega)
  have hlen : (s.acc ++ [ibufByte s s.i]).length = 65535 := by simp [hl, hs]
  have hbytes : literalBytes (s.acc ++ [ibufByte s s.i]) =
      encLen 0 (s.acc ++ [ibufByte s s.i]).length ++ (s.acc ++ [ibufByte s s.i]) := by
    rw [literalBytes, if_neg (by omega)]
  have hsize : (literalBytes (s.acc ++ [ibufByte s s.i])).length = s.accLen + 4 := by
    rw [hbytes, List.length_append, hlen]
    simp only [encLen, Config.shortLenMax, longLengthBytes]
    simp
    omega
  have hge : (literalStep (searchStep s)).accLen ≥ Config.litMax := Nat.le_of_eq hs.symm
  rw [compStep, matchOrLiteral, if_neg (by rw [hqual]; exact Bool.false_ne_true), Flow.andThen_go, sizeFlush, if_pos hge,
    flush]
  have hacc : (literalStep (searchStep s)).acc = s.acc ++ [ibufByte s s.i] := rfl
  rw [hacc]
  rcases emitChunk_cases (.literal (s.acc ++ [ibufByte s s.i])) s.i (literalStep (searchStep s)) with
    ⟨h0, -⟩ | ⟨bytes, h0, h1⟩
  · rw [encodeValue_literal (by omega)] at h0
    simp at h0
  · rw [encodeValue_literal (by omega), Except.ok.injEq, ← hbytes] at h0
    subst h0
    rw [hsize] at h1
    rcases h1 with ⟨h1, h2⟩ | ⟨h1, h2⟩
    · exact .inl ⟨h1, by rw [h2]; rfl⟩
    · exact .inr ⟨h1, by rw [h2]; rfl⟩

/-! ### The finish (R166) -/

/-- All that the finish does. -/
theorem compFinish_cases (s : State) (hl : s.acc.length = s.accLen) (hs : s.accLen ≤ 65535) :
    (capAdmits s.cfg.outCap (s.outLen + (literalBytes s.acc).length) = false ∧ 0 < s.accLen ∧
      compFinish s = .ended (errorEntry .outOverflow s.n s)) ∨
    ((capAdmits s.cfg.outCap (s.outLen + (literalBytes s.acc).length) = true ∨ s.accLen = 0) ∧
      compFinish s = .go (finishOperation (clearAccumulator (outAppendSeq (literalBytes s.acc) s)))) := by
  rw [compFinish]
  rcases flushNonEmpty_cases s.n s hl hs with ⟨h1, h2, h3⟩ | ⟨h1, h2⟩
  · exact .inl ⟨h1, h2, by rw [h3]; rfl⟩
  · exact .inr ⟨h1, by rw [h2]; rfl⟩

end Sys2Proof.Machine
end

