-- ==== Sys2Proof/Laws/Turn.lean ====
section
/-! SUPPORT. What a turn is, by the inbox and by MODE: the lemmas that take `step` to the meaning it runs. -/

namespace Sys2Proof.Machine

theorem step_pending {s : State} {a : HostAction} {rest : List HostAction} (h : s.inbox = a :: rest) :
    step s = hostTurn a { s with inbox := rest } := by
  rw [step, takeTurn, h]

theorem step_engine {s : State} (h : s.inbox = []) : step s = engineTurn s := by
  rw [step, takeTurn, h]

/-- Where the engine has the turn, the step is its turn. -/
theorem step_of_turn {s u : State} (h : EngineHasTurn s u) : step s = engineTurn u := by
  rcases h with ⟨h, rfl⟩ | ⟨rest, h, rfl⟩
  · exact step_engine h
  · exact step_pending h

/-- Error entry enters the error, whatever of the dead registers has been written before it. -/
theorem errorEntry_entered (cause : Cause) (pos : Nat) (s : State) : ErrorEntered cause pos s (errorEntry cause pos s) := rfl

theorem errorEntry_latched_entered (cause : Cause) (pos : Nat) (kind : ChunkKind) (length distance header : Nat) (s : State) :
    ErrorEntered cause pos s (errorEntry cause pos (latchChunk kind length distance header s)) := rfl

theorem engineTurn_notBusy {s : State} (h : s.status ≠ .busy) : engineTurn s = .next s := by
  rw [engineTurn, if_neg h]

theorem engineTurn_compressing {s : State} (h : s.status = .busy) (hm : s.mode = .compressing) :
    engineTurn s = compressorTurn s := by
  rw [engineTurn, if_pos h, hm]

theorem engineTurn_decompressing {s : State} (h : s.status = .busy) (hm : s.mode = .decompressing) :
    engineTurn s = decompressorTurn s := by
  rw [engineTurn, if_pos h, hm]

/-- All that COMPRESS can do when not BUSY; what error entry keeps of dead registers is the model's choice (log 18). -/
theorem exec_compress_notBusy {s : State} (h : s.status ≠ .busy) :
    exec .compress s = .next
      (if capAdmits s.cfg.inCap s.inLen = false then errorEntry .inOverflow 0 (startOperation .compressing s)
      else if s.inLen = 0 then errorEntry .invalidInput 0 (startOperation .compressing s)
      else seedAccumulator (startOperation .compressing s)) := by
  show execCompress s = _
  rw [execCompress, if_neg h, startCompress]
  cases capAdmits s.cfg.inCap s.inLen
  · rfl
  · by_cases hl : s.inLen = 0
    · simp only [if_true, hl, raise, Flow.outcome]
      rfl
    · simp only [if_true, hl, if_false]
      rfl

/-- All that DECOMPRESS can do when not BUSY. -/
theorem exec_decompress_notBusy {s : State} (h : s.status ≠ .busy) :
    exec .decompress s = .next
      (if capAdmits s.cfg.inCap s.inLen = false then errorEntry .inOverflow 0 (startOperation .decompressing s)
      else seedReadCursor (startOperation .decompressing s)) := by
  show execDecompress s = _
  rw [execDecompress, if_neg h, startDecompress]
  cases capAdmits s.cfg.inCap s.inLen <;> rfl

/-- The fetched bytes are the first of the stream from RP to N. -/
theorem fetchHeader_eq (s : State) : fetchHeader s = (ibufSlice s s.rp (s.n - s.rp)).take 5 := by
  simp [fetchHeader, ibufSlice, List.take_range, maxHeader, ← List.map_take]

/-- A chunk step decodes the stream from RP to N. -/
theorem decompStep_stream (s : State) :
    (∃ c, decodeChunk (ibufSlice s s.rp (s.n - s.rp)) = .error c ∧ decompStep s = .next (errorEntry c s.rp s)) ∨
    ∃ i, decodeChunk (ibufSlice s s.rp (s.n - s.rp)) = .ok i ∧ decompStep s = exec i s := by
  have h := decodeChunk_take (ibufSlice s s.rp (s.n - s.rp))
  rw [← fetchHeader_eq] at h
  rw [← h, decompStep]
  cases decodeChunk (fetchHeader s) with
  | error c => exact .inl ⟨c, rfl, rfl⟩
  | ok i => exact .inr ⟨i, rfl, rfl⟩

/-! ### Runs -/

/-- A run of one step more, of any machine. -/
theorem coreRun_succ (M : Host.Core) {s t : M.State} (h : M.step s = .next t) (k : Nat) : M.run (k + 1) s = M.run k t := by
  rw [Host.Core.run, h]

/-- A run in two parts, of any machine. -/
theorem coreRun_add (M : Host.Core) (k j : Nat) (s t : M.State) (h : M.run k s = .next t) :
    M.run (k + j) s = M.run j t := by
  induction k generalizing s with
  | zero =>
    rw [Host.Core.run] at h
    injection h with h
    rw [h, Nat.zero_add]
  | succ k ih =>
    rw [show k + 1 + j = k + j + 1 by omega, Host.Core.run]
    rw [Host.Core.run] at h
    cases hs : M.step s with
    | next u => rw [hs] at h; exact ih u h
    | fault r => rw [hs] at h; simp at h
    | refused r => rw [hs] at h; simp at h

@[simp] theorem runSteps_zero (s : State) : runSteps 0 s = .next s := rfl

/-- One step, then the rest of the run. -/
theorem runSteps_succ {s t : State} (h : step s = .next t) (k : Nat) : runSteps (k + 1) s = runSteps k t :=
  coreRun_succ Sys2Proof.core h k

/-- A run that goes on from where another ended. -/
theorem runSteps_add {s t : State} {k : Nat} (h : runSteps k s = .next t) (j : Nat) : runSteps (k + j) s = runSteps j t :=
  coreRun_add Sys2Proof.core k j s t h

/-- A run that answers a next state took a first step that did. -/
theorem runSteps_inv {s t : State} {k : Nat} (h : runSteps (k + 1) s = .next t) :
    ∃ u, step s = .next u ∧ runSteps k u = .next t := by
  have hc : ∀ (M : Host.Core) (a b : M.State), M.run (k + 1) a = .next b → ∃ u, M.step a = .next u ∧ M.run k u = .next b := by
    intro M a b h
    rw [Host.Core.run] at h
    cases hs : M.step a with
    | next u => rw [hs] at h; exact ⟨u, rfl, h⟩
    | fault r => rw [hs] at h; simp at h
    | refused r => rw [hs] at h; simp at h
  exact hc Sys2Proof.core s t h

end Sys2Proof.Machine
end

