-- ==== Sys2Proof/Laws/Frame.lean ====
section
/-! SUPPORT. What every part of an engine step leaves alone, in every state: the configuration, the input, the host's side,
the latched N, the output below OUT_LEN. An error adds error entry and nothing else. -/

namespace Sys2Proof.Machine

/-- `t` comes from `s` by the engine's work on its own registers and appends to OBUF. -/
structure Keeps (s t : State) : Prop where
  cfg : t.cfg = s.cfg
  status : t.status = s.status
  err : t.err = s.err
  errPos : t.errPos = s.errPos
  inLen : t.inLen = s.inLen
  mode : t.mode = s.mode
  n : t.n = s.n
  ibuf : t.ibuf = s.ibuf
  inbox : t.inbox = s.inbox
  reply : t.reply = s.reply
  epoch : t.epoch = s.epoch
  draws : t.draws = s.draws
  outLen : s.outLen ≤ t.outLen
  obuf : ∀ a < s.outLen, obufByte t a = obufByte s a

theorem Keeps.refl (s : State) : Keeps s s := by constructor <;> first | rfl | exact Nat.le_refl _ | exact fun _ _ => rfl

theorem Keeps.trans {s t u : State} (h : Keeps s t) (h' : Keeps t u) : Keeps s u := by
  constructor
  all_goals first
    | exact Nat.le_trans h.outLen h'.outLen
    | exact fun a ha => (h'.obuf a (Nat.lt_of_lt_of_le ha h.outLen)).trans (h.obuf a ha)
    | simp only [h'.cfg, h'.status, h'.err, h'.errPos, h'.inLen, h'.mode, h'.n, h'.ibuf, h'.inbox, h'.reply, h'.epoch,
        h'.draws, h.cfg, h.status, h.err, h.errPos, h.inLen, h.mode, h.n, h.ibuf, h.inbox, h.reply, h.epoch, h.draws]

/-- The same of a flow: it goes on from such a state, or error entry ended it there. -/
def Flow.Keeps (s : State) : Flow → Prop
  | .go t => Machine.Keeps s t
  | .ended t => ∃ c pos u, Machine.Keeps s u ∧ t = errorEntry c pos u

theorem Flow.Keeps.andThen {s : State} {x : Flow} {f : State → Flow} (hx : x.Keeps s)
    (hf : ∀ t, Machine.Keeps s t → (f t).Keeps s) : (x.andThen f).Keeps s := by
  cases x with
  | go t => exact hf t hx
  | ended t => exact hx

theorem Flow.Keeps.mono {s t : State} {x : Flow} (h : Machine.Keeps s t) (hx : x.Keeps t) : x.Keeps s := by
  cases x with
  | go u => exact h.trans hx
  | ended u =>
    obtain ⟨c, pos, v, hv, rfl⟩ := hx
    exact ⟨c, pos, v, h.trans hv, rfl⟩

theorem raise_keeps (c : Cause) (pos : Nat) (s : State) : (raise c pos s).Keeps s := ⟨c, pos, s, Keeps.refl s, rfl⟩

/-! ### The parts -/

theorem latchChunk_keeps (kind : ChunkKind) (length distance header : Nat) (s : State) :
    Keeps s (latchChunk kind length distance header s) := by
  constructor <;> first | rfl | exact Nat.le_refl _ | exact fun _ _ => rfl

theorem searchStep_keeps (s : State) : Keeps s (searchStep s) := by
  constructor <;> first | rfl | exact Nat.le_refl _ | exact fun _ _ => rfl

theorem clearAccumulator_keeps (s : State) : Keeps s (clearAccumulator s) := by
  constructor <;> first | rfl | exact Nat.le_refl _ | exact fun _ _ => rfl

theorem advancePastMatch_keeps (s : State) : Keeps s (advancePastMatch s) := by
  constructor <;> first | rfl | exact Nat.le_refl _ | exact fun _ _ => rfl

theorem literalStep_keeps (s : State) : Keeps s (literalStep s) := by
  constructor <;> first | rfl | exact Nat.le_refl _ | exact fun _ _ => rfl

theorem outAppendSeq_keeps (vs : List Byte) (s : State) : Keeps s (outAppendSeq vs s) := by
  constructor
  case outLen => rw [outAppendSeq_eq]; exact Nat.le_add_right _ _
  case obuf => exact fun a ha => obufByte_outAppendSeq_outside vs s (.inl ha)
  all_goals rw [outAppendSeq_eq]

theorem emitChunk_keeps (c : ChunkValue) (pos : Nat) (s : State) : (emitChunk c pos s).Keeps s := by
  rcases emitChunk_cases c pos s with ⟨-, h⟩ | ⟨bytes, -, ⟨-, h⟩ | ⟨-, h⟩⟩ <;> rw [h]
  · exact raise_keeps _ _ _
  · exact raise_keeps _ _ _
  · exact outAppendSeq_keeps bytes s

theorem flush_keeps (pos : Nat) (s : State) : (flush pos s).Keeps s :=
  (emitChunk_keeps _ pos s).andThen fun t ht => ht.trans (clearAccumulator_keeps t)

theorem flushNonEmpty_keeps (pos : Nat) (s : State) : (flushNonEmpty pos s).Keeps s := by
  rw [flushNonEmpty]
  split
  · exact flush_keeps pos s
  · exact Keeps.refl s

theorem sizeFlush_keeps (pos : Nat) (s : State) : (sizeFlush pos s).Keeps s := by
  rw [sizeFlush]
  split
  · exact flush_keeps pos s
  · exact Keeps.refl s

theorem matchStep_keeps (pos : Nat) (s : State) : (matchStep pos s).Keeps s :=
  ((flushNonEmpty_keeps pos s).andThen fun t ht => .mono ht (emitChunk_keeps _ pos t)).andThen fun t ht =>
    (ht.trans (clearAccumulator_keeps t)).trans (advancePastMatch_keeps _)

/-- One compressor iteration. -/
theorem compStep_keeps (s : State) : (compStep s).Keeps s := by
  rw [compStep]
  refine .andThen (.mono (searchStep_keeps s) ?_) fun t ht => .mono ht (sizeFlush_keeps _ t)
  rw [matchOrLiteral]
  split
  · exact matchStep_keeps _ _
  · exact literalStep_keeps _

/-- The compressor's finish: as above, then DONE. -/
theorem compFinish_keeps (s : State) :
    ∃ t, compFinish s = .ended t ∧ (∃ c pos u, Keeps s u ∧ t = errorEntry c pos u) ∨
      ∃ u, Keeps s u ∧ compFinish s = .go (finishOperation u) := by
  have h := flushNonEmpty_keeps s.n s
  rw [compFinish]
  cases he : flushNonEmpty s.n s with
  | go u =>
    rw [he] at h
    exact ⟨s, .inr ⟨u, h, rfl⟩⟩
  | ended t =>
    rw [he] at h
    exact ⟨t, .inl ⟨rfl, h⟩⟩

/-- A literal chunk. -/
theorem literalChunk_keeps (length header : Nat) (s : State) : (literalChunk length header s).Keeps s := by
  rcases literalChunk_cases length header s with ⟨-, h⟩ | ⟨-, -, h⟩ | ⟨-, -, h⟩ <;> rw [h]
  · exact raise_keeps _ _ _
  · exact ⟨_, _, _, latchChunk_keeps _ _ _ _ s, rfl⟩
  · refine Keeps.trans (outAppendSeq_keeps (ibufSlice s (s.rp + header) length) s) ?_
    rw [literal_applied, outAppendSeq_eq]
    constructor <;> first | rfl | exact fun _ _ => rfl | simp

/-- A back-reference chunk. -/
theorem refChunk_keeps (distance length header : Nat) (s : State) : (refChunk distance length header s).Keeps s := by
  rcases refChunk_cases distance length header s with ⟨-, h⟩ | ⟨-, -, -, h⟩ | ⟨-, -, -, h⟩ <;> rw [h]
  · exact ⟨_, _, _, latchChunk_keeps _ _ _ _ s, rfl⟩
  · exact ⟨_, _, _, latchChunk_keeps _ _ _ _ s, rfl⟩
  · refine Keeps.mk ?_ ?_ ?_ ?_ ?_ ?_ ?_ ?_ ?_ ?_ ?_ ?_ ?_ fun a ha => ?_
    case refine_14 => exact obufByte_copyBack_outside length (refStart distance length header s) (.inl ha)
    all_goals rw [ref_applied]
    exact Nat.le_add_right _ _

/-! ### The engine's turn -/

/-- Every engine turn, in every state: nothing, a chunk or iteration, error entry after one, the end of the operation; a
stop changes nothing. -/
theorem engineTurn_cases {s t : State} (h : engineTurn s = .next t) :
    (s.status ≠ .busy ∧ t = s) ∨
    (s.status = .busy ∧
      (Keeps s t ∨ (∃ c pos u, Keeps s u ∧ t = errorEntry c pos u) ∨ ∃ u, Keeps s u ∧ t = finishOperation u)) := by
  have flow : ∀ x : Flow, x.Keeps s → x.outcome = .next t → Keeps s t ∨ ∃ c pos u, Keeps s u ∧ t = errorEntry c pos u := by
    intro x hx ht
    cases x with
    | go u => injection ht with ht; subst ht; exact .inl hx
    | ended u => injection ht with ht; subst ht; exact .inr hx
  by_cases hb : s.status = .busy
  · refine .inr ⟨hb, ?_⟩
    cases hm : s.mode with
    | none => rw [engineTurn, if_pos hb, hm] at h; simp at h
    | compressing =>
      rw [engineTurn_compressing hb hm, compressorTurn] at h
      split at h
      · rcases flow _ (compStep_keeps s) h with h | h
        · exact .inl h
        · exact .inr (.inl h)
      · obtain ⟨u, ⟨he, hc⟩ | ⟨v, hv, he⟩⟩ := compFinish_keeps s
        · rw [he] at h; injection h with h; subst h; exact .inr (.inl hc)
        · rw [he] at h; injection h with h; subst h; exact .inr (.inr ⟨v, hv, rfl⟩)
    | decompressing =>
      rw [engineTurn_decompressing hb hm, decompressorTurn] at h
      split at h
      · rcases decompStep_stream s with ⟨c, -, he⟩ | ⟨i, hi, he⟩
        · rw [he] at h; injection h with h; subst h
          exact .inr (.inl ⟨c, s.rp, s, Keeps.refl s, rfl⟩)
        · rw [he] at h
          have : Keeps s t ∨ ∃ c pos u, Keeps s u ∧ t = errorEntry c pos u := by
            cases i with
            | litS length => exact flow _ (literalChunk_keeps _ _ s) h
            | litL length => exact flow _ (literalChunk_keeps _ _ s) h
            | refS1 distance length => exact flow _ (refChunk_keeps _ _ _ s) h
            | refS2 distance length => exact flow _ (refChunk_keeps _ _ _ s) h
            | refL1 distance length => exact flow _ (refChunk_keeps _ _ _ s) h
            | refL2 distance length => exact flow _ (refChunk_keeps _ _ _ s) h
            | nop => exact absurd (decodeChunk_headerSize hi).1 (by simp [Instr.headerSize])
            | compress => exact absurd (decodeChunk_headerSize hi).1 (by simp [Instr.headerSize])
            | decompress => exact absurd (decodeChunk_headerSize hi).1 (by simp [Instr.headerSize])
          rcases this with h | h
          · exact .inl h
          · exact .inr (.inl h)
      · split at h
        · injection h with h; exact .inr (.inr ⟨s, Keeps.refl s, h.symm⟩)
        · simp at h
  · rw [engineTurn_notBusy hb] at h
    injection h with h
    exact .inl ⟨hb, h.symm⟩

/-! ### A step -/

/-- All that a step answering a next state can be: the engine's turn (with or without a `yield` taken off), a host write of
IBUF or IN_LEN, a host access that changes nothing of the machine, reset, or one of the two commands. -/
theorem step_cases {s t : State} (h : step s = .next t) :
    (∃ s', (s' = s ∨ ∃ rest, s.inbox = .yield :: rest ∧ s' = { s with inbox := rest }) ∧ engineTurn s' = .next t) ∨
    (∃ a v rest, s.inbox = .writeIbuf a v :: rest ∧ s.status ≠ .busy ∧ hasOffset s.cfg.inCap a = true ∧
      t = { s with inbox := rest, ibuf := Memory.write s.ibuf a v }) ∨
    (∃ rest v d, t = { s with inbox := rest, reply := v, draws := d }) ∨
    (∃ v rest, s.inbox = .writeReg 4 v :: rest ∧ fitsLenw s.cfg.lenw v = true ∧ s.status ≠ .busy ∧
      t = { s with inbox := rest, inLen := v }) ∨
    (∃ rest, s.inbox = .reset :: rest ∧ t = applyReset { s with inbox := rest }) ∨
    (∃ rest i,
      (s.inbox = .writeReg 0 1 :: rest ∧ i = .compress ∨ s.inbox = .writeReg 0 2 :: rest ∧ i = .decompress) ∧
      exec i { s with inbox := rest } = .next t) := by
  cases hi : s.inbox with
  | nil => exact .inl ⟨s, .inl rfl, by rw [step_engine hi] at h; exact h⟩
  | cons a rest =>
    rw [step_pending hi] at h
    cases a with
    | writeIbuf a v =>
      simp only [hostTurn, hostWriteIbuf] at h
      split at h
      · simp at h
      · split at h
        · injection h with h; subst h; rename_i h1 h2; exact .inr (.inl ⟨a, v, rest, rfl, h1, h2, rfl⟩)
        · simp at h
    | readObuf a =>
      simp only [hostTurn, hostReadObuf] at h
      split at h
      · simp at h
      · split at h
        · split at h
          · injection h with h; subst h; exact .inr (.inr (.inl ⟨rest, _, _, rfl⟩))
          · injection h with h; subst h; exact .inr (.inr (.inl ⟨rest, _, _, rfl⟩))
        · simp at h
    | readIbuf a => simp [hostTurn] at h
    | writeReg r v =>
      simp only [hostTurn, hostWriteReg] at h
      match r with
      | 0 =>
        simp only [regOfNumber, hostWriteCmd] at h
        split at h
        · have : v = 0 ∨ v = 1 ∨ v = 2 ∨ v = 3 := by omega
          rcases this with rfl | rfl | rfl | rfl
          · injection h with h; subst h; exact .inr (.inr (.inl ⟨rest, _, _, rfl⟩))
          · exact .inr (.inr (.inr (.inr (.inr ⟨rest, _, .inl ⟨rfl, rfl⟩, h⟩))))
          · exact .inr (.inr (.inr (.inr (.inr ⟨rest, _, .inr ⟨rfl, rfl⟩, h⟩))))
          · injection h with h; subst h; exact .inr (.inr (.inl ⟨rest, _, _, rfl⟩))
        · simp at h
      | 1 | 2 | 3 | 5 => injection h with h; subst h; exact .inr (.inr (.inl ⟨rest, _, _, rfl⟩))
      | 4 =>
        simp only [regOfNumber, hostWriteInLen] at h
        split at h
        · split at h
          · injection h with h; subst h; exact .inr (.inr (.inl ⟨rest, _, _, rfl⟩))
          · injection h with h; subst h; rename_i h1 h2; exact .inr (.inr (.inr (.inl ⟨v, rest, rfl, h1, h2, rfl⟩)))
        · simp at h
      | r + 6 => simp [regOfNumber] at h
    | readReg r =>
      simp only [hostTurn, hostReadReg] at h
      match r with
      | 0 | 1 | 2 | 3 | 4 => injection h with h; subst h; exact .inr (.inr (.inl ⟨rest, _, _, rfl⟩))
      | 5 =>
        simp only [regOfNumber, readReg] at h
        split at h
        · injection h with h; subst h; exact .inr (.inr (.inl ⟨rest, _, _, rfl⟩))
        · injection h with h; subst h; exact .inr (.inr (.inl ⟨rest, _, _, rfl⟩))
      | r + 6 => simp [regOfNumber] at h
    | reset => injection h with h; exact .inr (.inr (.inr (.inr (.inl ⟨rest, rfl, h.symm⟩))))
    | yield => exact .inl ⟨{ s with inbox := rest }, .inr ⟨rest, rfl, rfl⟩, h⟩

end Sys2Proof.Machine
end

