-- ==== Sys2Proof/Laws/Engine.lean ====
section
/-! SUPPORT. Everything an engine's turn can do in a state of its invariant: one inversion lemma for the compressor (R165,
R166), one for the decompressor (R207, R208). -/

namespace Sys2Proof.Machine

/-! ### The compressor -/

/-- The state after the literal step that fills the accumulator, its flush fitting (R161 to R163). -/
def afterFlush (s : State) : State :=
  clearAccumulator (outAppendSeq (literalBytes (s.acc ++ [ibufByte s s.i])) (literalStep (searchStep s)))

/-- The state after the finish (R166). -/
def afterFinish (s : State) : State := finishOperation (clearAccumulator (outAppendSeq (literalBytes s.acc) s))

/-- The states in which an emit of the compressor can overflow: before a flush of a match step, between its two chunks,
after a literal step, at the finish. -/
def OverflowsAt (s u : State) : Prop :=
  (s.i < s.n ∧ u = searchStep s) ∨
  (s.i < s.n ∧ (capAdmits s.cfg.outCap (s.outLen + (literalBytes s.acc).length) = true ∨ s.accLen = 0) ∧
    u = clearAccumulator (outAppendSeq (literalBytes s.acc) (searchStep s))) ∨
  (s.i < s.n ∧ s.accLen + 1 = 65535 ∧ u = literalStep (searchStep s)) ∨
  (s.i = s.n ∧ u = s)

/-- All that a compressor's turn can do. -/
theorem compressorTurn_cases {s : State} (h : s.AtLoopHead) :
    (s.i < s.n ∧ 7 ≤ (findMatch (ibufByte s) s.n s.i).bestLen ∧
      capAdmits s.cfg.outCap (s.outLen + (matchBytes s).length) = true ∧ compressorTurn s = .next (afterMatch s)) ∨
    (s.i < s.n ∧ (findMatch (ibufByte s) s.n s.i).bestLen ≤ 6 ∧ s.accLen + 1 < 65535 ∧
      compressorTurn s = .next (literalStep (searchStep s))) ∨
    (s.i < s.n ∧ (findMatch (ibufByte s) s.n s.i).bestLen ≤ 6 ∧ s.accLen + 1 = 65535 ∧
      capAdmits s.cfg.outCap (s.outLen + (s.accLen + 4)) = true ∧ compressorTurn s = .next (afterFlush s)) ∨
    (s.i = s.n ∧ (capAdmits s.cfg.outCap (s.outLen + (literalBytes s.acc).length) = true ∨ s.accLen = 0) ∧
      compressorTurn s = .next (afterFinish s)) ∨
    ∃ u, OverflowsAt s u ∧ s.cfg.outCap ≠ none ∧ compressorTurn s = .next (errorEntry .outOverflow s.i u) := by
  have hcap : ∀ v, capAdmits s.cfg.outCap v = false → s.cfg.outCap ≠ none := by
    intro v hv hn
    rw [hn] at hv
    exact Bool.false_ne_true hv.symm
  have hlen := h.accLen
  have hshort : s.accLen < 65535 := h.accShort
  by_cases hi : s.i < s.n
  · by_cases hq : 7 ≤ (findMatch (ibufByte s) s.n s.i).bestLen
    · rcases compStep_match s hi hq hlen (by omega) with ⟨hc, he | ⟨hc', he⟩⟩ | ⟨hc, he⟩ <;>
      rw [compressorTurn, if_pos hi, he]
      · exact .inr (.inr (.inr (.inr ⟨_, .inl ⟨hi, rfl⟩, hcap _ hc, rfl⟩)))
      · exact .inr (.inr (.inr (.inr ⟨_, .inr (.inl ⟨hi, hc', rfl⟩), hcap _ hc, rfl⟩)))
      · exact .inl ⟨hi, hq, hc, rfl⟩
    · by_cases hs : s.accLen + 1 < 65535
      · rw [compressorTurn, if_pos hi, compStep_literal s (by omega) hs]
        exact .inr (.inl ⟨hi, by omega, hs, rfl⟩)
      · rcases compStep_flush s (by omega) (by omega) hlen with ⟨hc, he⟩ | ⟨hc, he⟩ <;>
        rw [compressorTurn, if_pos hi, he]
        · exact .inr (.inr (.inr (.inr ⟨_, .inr (.inr (.inl ⟨hi, by omega, rfl⟩)), hcap _ hc, rfl⟩)))
        · exact .inr (.inr (.inl ⟨hi, by omega, by omega, hc, rfl⟩))
  · have hn : s.i = s.n := Nat.le_antisymm h.iLe (Nat.le_of_not_lt hi)
    rcases compFinish_cases s hlen (by omega) with ⟨hc, -, he⟩ | ⟨hc, he⟩ <;> rw [compressorTurn, if_neg hi, he]
    · exact .inr (.inr (.inr (.inr ⟨s, .inr (.inr (.inr ⟨hn, rfl⟩)), hcap _ hc, by rw [hn]; rfl⟩)))
    · exact .inr (.inr (.inr (.inl ⟨hn, hc, rfl⟩)))

/-! ### The decompressor -/

theorem exec_literal {i : Instr} {length header : Nat} (hi : IsLiteral i length header) (s : State) :
    exec i s = (literalChunk length header s).outcome := by
  rcases hi with ⟨rfl, rfl⟩ | ⟨rfl, rfl⟩ <;> rfl

theorem exec_backRef {i : Instr} {distance length header : Nat} (hi : IsBackRef i distance length header) (s : State) :
    exec i s = (refChunk distance length header s).outcome := by
  rcases hi with ⟨rfl, rfl⟩ | ⟨rfl, rfl⟩ | ⟨rfl, rfl⟩ | ⟨rfl, rfl⟩ <;> rfl

/-- A decoded chunk is a literal or a back-reference, its fields within their widths (R109). -/
theorem decodeChunk_form {bs : List Byte} {i : Instr} (h : decodeChunk bs = .ok i) :
    (∃ length header, IsLiteral i length header ∧ length ≤ 65535 ∧ header = i.headerSize ∧ length = i.payloadSize) ∨
    ∃ distance length header, IsBackRef i distance length header ∧ distance ≤ 32767 ∧ length ≤ 65535 ∧
      header = i.headerSize ∧ i.payloadSize = 0 := by
  have big : ∀ b c : Byte, bigEndian b.toNat c.toNat ≤ 65535 := by
    intro b c
    have := byte_lt b
    have := byte_lt c
    simp only [bigEndian]
    omega
  have dist : ∀ b c : Byte, bigEndian (bits b 6 0) c.toNat ≤ 32767 := by
    intro b c
    have := bits_6_0_le b
    have := byte_lt c
    simp only [bigEndian]
    omega
  rcases decodeChunk_ok h with ⟨t, _, -, -, -, rfl⟩ | ⟨t, e, _, -, -, -, -, rfl⟩ | ⟨t, e, d, _, -, -, -, -, rfl⟩ |
    ⟨_, hi, lo, _, -, -, -, -, rfl⟩ | ⟨_, hi, lo, e, _, -, -, -, -, -, rfl⟩ | ⟨_, hi, lo, e, d, _, -, -, -, -, -, rfl⟩
  · exact .inl ⟨_, _, .inl ⟨rfl, rfl⟩, by have := bits_5_0_le t; omega, rfl, rfl⟩
  · exact .inr ⟨_, _, _, .inl ⟨rfl, rfl⟩, by have := bits_6_0_le e; omega, by have := bits_5_0_le t; omega, rfl, rfl⟩
  · exact .inr ⟨_, _, _, .inr (.inl ⟨rfl, rfl⟩), dist e d, by have := bits_5_0_le t; omega, rfl, rfl⟩
  · exact .inl ⟨_, _, .inr ⟨rfl, rfl⟩, big hi lo, rfl, rfl⟩
  · exact .inr ⟨_, _, _, .inr (.inr (.inl ⟨rfl, rfl⟩)), by have := bits_6_0_le e; omega, big hi lo, rfl, rfl⟩
  · exact .inr ⟨_, _, _, .inr (.inr (.inr ⟨rfl, rfl⟩)), dist e d, big hi lo, rfl, rfl⟩

/-- All that a chunk step can do. -/
theorem decompStep_cases (s : State) (hrp : s.rp < s.n) :
    (∃ c, (c = .reservedTag ∨ c = .truncHeader) ∧ decodeChunk (ibufSlice s s.rp (s.n - s.rp)) = .error c ∧
      decompStep s = .next (errorEntry c s.rp s)) ∨
    (∃ i length header, decodeChunk (ibufSlice s s.rp (s.n - s.rp)) = .ok i ∧ IsLiteral i length header ∧
      length ≤ 65535 ∧ 1 ≤ header ∧ header ≤ 5 ∧ s.rp + header ≤ s.n ∧
      decompStep s = (literalChunk length header s).outcome) ∨
    ∃ i distance length header, decodeChunk (ibufSlice s s.rp (s.n - s.rp)) = .ok i ∧
      IsBackRef i distance length header ∧ distance ≤ 32767 ∧ length ≤ 65535 ∧ 1 ≤ header ∧ header ≤ 5 ∧
      s.rp + header ≤ s.n ∧ decompStep s = (refChunk distance length header s).outcome := by
  rcases decompStep_stream s with ⟨c, hd, he⟩ | ⟨i, hd, he⟩
  · exact .inl ⟨c, decodeChunk_error hd, hd, he⟩
  · obtain ⟨h1, h2, h3⟩ := decodeChunk_headerSize hd
    rw [ibufSlice_length] at h2
    rcases decodeChunk_form hd with ⟨length, header, hl, hb, rfl, -⟩ | ⟨distance, length, header, hl, hd', hb, rfl, -⟩
    · exact .inr (.inl ⟨i, length, _, hd, hl, hb, h1, h3, by omega, by rw [he, exec_literal hl]⟩)
    · exact .inr (.inr ⟨i, distance, length, _, hd, hl, hd', hb, h1, h3, by omega, by rw [he, exec_backRef hl]⟩)

end Sys2Proof.Machine
end

