-- ==== Sys2Proof/Laws/PerInstr.lean ====
section
/-! SUPPORT. Statements about every instruction as syntax, one lemma per constructor. HeaderShape: a chunk's encoding is as
many bytes as R100 says, 1 to 5, and a command is no bytes of the stream. -/

namespace Sys2Proof.Laws

-- One proof after the other: in parallel, each waits for the same equation lemmas on a thread of its own.
set_option Elab.async false

/-- R100: the encoding of a well-formed instruction has the form's header size. -/
def HeaderShape.Statement (i : Instr) : Prop :=
  WellFormed i = true →
    match encode i with
    | .stream bytes => bytes.length = i.headerSize ∧ 1 ≤ i.headerSize ∧ i.headerSize ≤ 5
    | .command _ => i.headerSize = 0

theorem HeaderShape.litS (length : Nat) : HeaderShape.Statement (.litS length) := fun _ => by
  simp [encode, Instr.headerSize]
theorem HeaderShape.litL (length : Nat) : HeaderShape.Statement (.litL length) := fun _ => by
  simp [encode, Instr.headerSize, longLengthBytes]
theorem HeaderShape.refS1 (distance length : Nat) : HeaderShape.Statement (.refS1 distance length) := fun _ => by
  simp [encode, Instr.headerSize, shortDistanceBytes]
theorem HeaderShape.refS2 (distance length : Nat) : HeaderShape.Statement (.refS2 distance length) := fun _ => by
  simp [encode, Instr.headerSize, longDistanceBytes]
theorem HeaderShape.refL1 (distance length : Nat) : HeaderShape.Statement (.refL1 distance length) := fun _ => by
  simp [encode, Instr.headerSize, longLengthBytes, shortDistanceBytes]
theorem HeaderShape.refL2 (distance length : Nat) : HeaderShape.Statement (.refL2 distance length) := fun _ => by
  simp [encode, Instr.headerSize, longLengthBytes, longDistanceBytes]
theorem HeaderShape.nop : HeaderShape.Statement .nop := fun _ => rfl
theorem HeaderShape.compress : HeaderShape.Statement .compress := fun _ => rfl
theorem HeaderShape.decompress : HeaderShape.Statement .decompress := fun _ => rfl

end Sys2Proof.Laws
end

