-- ==== Sys2Proof/Tests/Slice0.lean ====
section
/-! SUPPORT. The model's own tests. Expected values come from the spec: the encodings of 30_encoding.md and the vectors of
95_test_vectors.md, named beside each test. Then, for every statement with hypotheses, a witness that meets them. -/

namespace Sys2Proof.Tests

-- One proof after the other: in parallel, each waits for the same equation lemmas on a thread of its own.
set_option Elab.async false

open Sys2Proof.Machine

/-! ## Helpers -/

/-- The next state of an outcome. -/
def after : Host.Outcome State Fault Refusal → Option State
  | .next s => some s
  | .fault _ => none
  | .refused _ => none

/-- The refusal of an outcome. -/
def refusal : Host.Outcome State Fault Refusal → Option Refusal
  | .next _ => none
  | .fault _ => none
  | .refused r => some r

/-- A DECOMPRESS running at RP 0 over a stream, its output so far given. -/
def decompressing (stream out : List Byte) : State :=
  { State.reset with
    status := .busy, mode := .decompressing, n := stream.length, outLen := out.length
    ibuf := Memory.writeSeq [] 0 stream, obuf := Memory.writeSeq [] 0 out }

/-- A COMPRESS running at cursor `i` over an input, its last `accLen` bytes in the accumulator. -/
def compressing (input : List Byte) (i accLen : Nat) : State :=
  { State.reset with
    status := .busy, mode := .compressing, n := input.length, i := i, accLen := accLen
    acc := (input.drop (i - accLen)).take accLen, ibuf := Memory.writeSeq [] 0 input }

/-- An idle machine with an input loaded. -/
def loaded (input : List Byte) : State :=
  { State.reset with inLen := input.length, ibuf := Memory.writeSeq [] 0 input }

/-- The same machine with capacities. -/
def capped (inCap outCap : Nat) (s : State) : State := { s with cfg := { inCap := inCap, outCap := outCap, lenw := some 16 } }

/-- The host's next access. -/
def host (a : HostAction) (s : State) : State := { s with inbox := [a] }

/-- "aaaaaaaaaa", the source's S8. -/
def tenA : List Byte := List.replicate 10 0x61

/-- What a step leaves of RP, OUT_LEN, STATUS and the output. -/
def decompressed (s : State) : Option (Nat × Nat × Status × List Byte) :=
  (after (step s)).map fun t => (t.rp, t.outLen, t.status, t.result)

/-- What a step leaves of STATUS, ERR, ERR_POS, OUT_LEN. -/
def errorOf (s : State) : Option (Status × Cause × Nat × Nat) :=
  (after (step s)).map fun t => (t.status, t.err, t.errPos, t.outLen)

/-! ## WellFormed refuses (R100, R109) -/

theorem test_litS_length : WellFormed (.litS 64) = false := by decide
theorem test_litL_length : WellFormed (.litL 65536) = false := by decide
theorem test_refS1_distance : WellFormed (.refS1 128 7) = false := by decide
theorem test_refS1_length : WellFormed (.refS1 1 64) = false := by decide
theorem test_refS2_distance : WellFormed (.refS2 32768 7) = false := by decide
theorem test_refS2_length : WellFormed (.refS2 128 64) = false := by decide
theorem test_refL1_distance : WellFormed (.refL1 128 64) = false := by decide
theorem test_refL1_length : WellFormed (.refL1 1 65536) = false := by decide
theorem test_refL2_distance : WellFormed (.refL2 32768 64) = false := by decide
theorem test_refL2_length : WellFormed (.refL2 128 65536) = false := by decide

/-! ## Decoding words written out (R93 to R99, R230; 95_test_vectors.md section 2.2) -/

theorem test_decode_litS : decodeChunk [0b00111111] = .ok (.litS 63) := rfl
theorem test_decode_litL : decodeChunk [0b01000000, 0b00000001, 0b00000000] = .ok (.litL 256) := rfl
theorem test_decode_refS1 : decodeChunk [0b10111111, 0b01111111] = .ok (.refS1 127 63) := rfl
theorem test_decode_refS2 : decodeChunk [0b10000111, 0b10000000, 0b10000000] = .ok (.refS2 128 7) := rfl
theorem test_decode_refL1 : decodeChunk [0b11000000, 0b00000001, 0b00101100, 0b01100100] = .ok (.refL1 100 300) := rfl
theorem test_decode_refL2 : decodeChunk [0b11000000, 0x03, 0xE8, 0b10000001, 0x2C] = .ok (.refL2 300 1000) := rfl
theorem test_decode_commands :
    decodeCommand 0b00 = some .nop ∧ decodeCommand 0b01 = some .compress ∧ decodeCommand 0b10 = some .decompress ∧
      decodeCommand 0b11 = none := by decide
theorem test_decode_reserved : decodeChunk [0x41] = .error .reservedTag ∧ decodeChunk [0xFF] = .error .reservedTag := ⟨rfl, rfl⟩
theorem test_decode_truncated :
    decodeChunk [0xC0, 0x00] = .error .truncHeader ∧ decodeChunk [0xC0, 0x00, 0x05, 0x80] = .error .truncHeader := ⟨rfl, rfl⟩

/-! ## The host's table words (log 16) -/

theorem test_table_litS : decodeTableWord 8 0x05 = some (.litS 5) := rfl
theorem test_table_litL : decodeTableWord 24 0x400100 = some (.litL 256) := rfl
theorem test_table_refS1 : decodeTableWord 16 0x8901 = some (.refS1 1 9) := rfl
theorem test_table_refS2 : decodeTableWord 24 0x878080 = some (.refS2 128 7) := rfl
theorem test_table_refL1 : decodeTableWord 32 0xC0012C64 = some (.refL1 100 300) := rfl
theorem test_table_refL2 : decodeTableWord 40 0xC003E8812C = some (.refL2 300 1000) := rfl
theorem test_table_commands :
    decodeTableWord 2 0 = some .nop ∧ decodeTableWord 2 1 = some .compress ∧ decodeTableWord 2 2 = some .decompress ∧
      decodeTableWord 2 3 = none := ⟨rfl, rfl, rfl, rfl⟩

/-- A placed literal of three bytes runs at once: its payload, zeros, is appended. -/
theorem test_fetchWord_litS :
    (after (step (State.reset.withFetchWord 8 0x03))).map (fun t => (t.rp, t.result)) = some (4, [0, 0, 0]) := by
  decide
/-- A placed back-reference runs at once: with no output its distance check fails (R203). -/
theorem test_fetchWord_refS1 : errorOf (State.reset.withFetchWord 16 0x8901) = some (.error, .badDistance, 0, 0) := by
  decide
/-- A placed COMPRESS runs at once: IN_LEN is 0 (R254). -/
theorem test_fetchWord_compress : errorOf (State.reset.withFetchWord 2 1) = some (.error, .invalidInput, 0, 0) := by
  decide

/-! ## Encode (95_test_vectors.md section 2.1) -/

theorem test_encode_backRef : encodeValue (.backRef 32767 32767) = .ok [0xC0, 0x7F, 0xFF, 0xFF, 0xFF] := rfl
theorem test_encode_range : encodeValue (.backRef 0 5) = .error .encodingRange := rfl

/-! ## The chunk forms, one step each (95_test_vectors.md sections 2.4, 2.5, 2.6) -/

theorem test_litS : decompressed (decompressing [0x03, 0x61, 0x62, 0x63] []) = some (4, 3, .busy, [0x61, 0x62, 0x63]) := by
  decide
theorem test_litS_truncated : errorOf (decompressing [0x0A, 0x78, 0x79, 0x7A] []) = some (.error, .truncPayload, 0, 0) := by
  decide
theorem test_litL : decompressed (decompressing [0x40, 0x00, 0x02, 0x61, 0x62] []) = some (5, 2, .busy, [0x61, 0x62]) := by
  decide
theorem test_litL_overflow :
    errorOf (capped 16 2 (decompressing [0x40, 0x00, 0x03, 0x61, 0x62, 0x63] [])) = some (.error, .outOverflow, 0, 0) := by
  decide
/-- S6: "abababa". -/
theorem test_refS1 :
    decompressed (decompressing [0x85, 0x02] [0x61, 0x62]) =
      some (2, 7, .busy, [0x61, 0x62, 0x61, 0x62, 0x61, 0x62, 0x61]) := by decide
theorem test_refS1_distance_before_capacity :
    errorOf (capped 16 2 (decompressing [0x89, 0x05] [0x61])) = some (.error, .badDistance, 0, 0) := by decide
theorem test_refS2 :
    decompressed (decompressing [0x85, 0x80, 0x01] [0x61]) = some (3, 6, .busy, List.replicate 6 0x61) := by decide
theorem test_refS2_distance_zero : errorOf (decompressing [0x82, 0x80, 0x00] [0x61]) = some (.error, .badDistance, 0, 0) := by
  decide
theorem test_refL1 :
    decompressed (decompressing [0xC0, 0x00, 0x05, 0x01] [0x61]) = some (4, 6, .busy, List.replicate 6 0x61) := by
  decide
/-- Exactly full is not an overflow. -/
theorem test_refL1_full :
    (decompressed (capped 16 6 (decompressing [0xC0, 0x00, 0x05, 0x01] [0x61]))).map (·.2.1) = some 6 := by decide
theorem test_refL2 :
    decompressed (decompressing [0xC0, 0x00, 0x03, 0x80, 0x02] [0x61, 0x62]) =
      some (5, 5, .busy, [0x61, 0x62, 0x61, 0x62, 0x61]) := by decide
theorem test_refL2_overflow :
    errorOf (capped 16 4 (decompressing [0xC0, 0x00, 0x03, 0x80, 0x02] [0x61, 0x62])) = some (.error, .outOverflow, 0, 0) := by
  decide
theorem test_reserved_tag : errorOf (decompressing [0x7F, 0x00, 0x00] []) = some (.error, .reservedTag, 0, 0) := by
  decide
theorem test_decompress_finish : errorOf (decompressing [] []) = some (.done, .none, 0, 0) := by decide

/-! ## The commands (95_test_vectors.md sections 2.6, 2.7) -/

theorem test_nop : (after (exec .nop (loaded tenA))) = some (loaded tenA) := by decide
theorem test_compress_start :
    (after (exec .compress (loaded tenA))).map (fun t => (t.status, t.n, t.i, t.acc)) = some (.busy, 10, 1, [0x61]) := by
  decide
theorem test_compress_inOverflow : errorOf (host (.writeReg 0 1) (capped 4 4 (loaded (List.replicate 5 0)))) =
    some (.error, .inOverflow, 0, 0) := by decide
theorem test_decompress_start :
    (after (exec .decompress (loaded [0x01, 0x5A]))).map (fun t => (t.status, t.n, t.rp, t.err)) = some (.busy, 2, 0, .none) := by
  decide
theorem test_decompress_while_busy :
    (after (step (host (.writeReg 0 2) (decompressing [0x00] [])))) = some (decompressing [0x00] []) := by decide

/-! ## The compressor (95_test_vectors.md sections 2.3, 2.6) -/

theorem test_findMatch_ten : findMatch (byteAt tenA) 10 1 = { p := 0, len := 9, bestLen := 9, bestDist := 1 } := by
  decide
/-- The tie at 16 of "abcdefg1abcdefg2abcdefg" goes to the first candidate. -/
theorem test_findMatch_tie :
    (findMatch (byteAt [1, 2, 3, 4, 5, 6, 7, 0x31, 1, 2, 3, 4, 5, 6, 7, 0x32, 1, 2, 3, 4, 5, 6, 7]) 23 16).bestDist = 16 := by
  decide
/-- S8: the match step emits `01 61` and `89 01`. -/
theorem test_match_step :
    (after (step (compressing tenA 1 1))).map (fun t => (t.i, t.accLen, t.result)) =
      some (10, 0, [0x01, 0x61, 0x89, 0x01]) := by decide
/-- The literal fits below OUT_CAP = 3, the back-reference does not. -/
theorem test_match_overflow : errorOf (capped 16 3 (compressing tenA 1 1)) = some (.error, .outOverflow, 1, 0) := by
  decide
/-- A repeat of 6 is a literal step (R159). -/
theorem test_literal_step :
    (after (step (compressing (List.replicate 7 0x61) 1 1))).map (fun t => (t.i, t.acc, t.outLen)) =
      some (2, [0x61, 0x61], 0) := by decide
theorem test_compress_finish :
    (after (step (compressing [0x5A] 1 1))).map (fun t => (t.status, t.result)) = some (.done, [0x01, 0x5A]) := by
  decide
/-- The final flush's error reports N. -/
theorem test_compress_finish_overflow : errorOf (capped 16 1 (compressing [0x5A] 1 1)) = some (.error, .outOverflow, 1, 0) := by
  decide
/-- "abcabcabcabcX". -/
theorem test_compressBytes :
    (compressBytes [0x61, 0x62, 0x63, 0x61, 0x62, 0x63, 0x61, 0x62, 0x63, 0x61, 0x62, 0x63, 0x58]).toOption =
      some [0x03, 0x61, 0x62, 0x63, 0x89, 0x03, 0x01, 0x58] := by decide
/-- "hellohhohh". -/
theorem test_decompressBytes :
    (decompressBytes [0x05, 0x68, 0x65, 0x6C, 0x6C, 0x6F, 0x81, 0x05, 0x81, 0x01, 0x83, 0x03]).toOption =
      some [0x68, 0x65, 0x6C, 0x6C, 0x6F, 0x68, 0x68, 0x6F, 0x68, 0x68] := by decide

/-! ## The host port (95_test_vectors.md section 2.7) -/

theorem test_host_inLen : (after (step (host (.writeReg 4 99) (loaded [])))).map (·.inLen) = some 99 := by decide
theorem test_host_inLen_busy : (after (step (host (.writeReg 4 99) (decompressing [0x00] [])))).map (·.inLen) = some 0 := by
  decide
theorem test_host_ibuf_busy :
    refusal (step (host (.writeIbuf 0 1) (decompressing [0x00] []))) = some .bufferAccessWhileBusy := by decide
theorem test_host_reset_busy :
    (after (step (host .reset (decompressing [0x00] [0x61])))).map (fun t => (t.status, t.outLen)) = some (.idle, 0) := by
  decide

/-! ## Witnesses: each statement's hypotheses are met, each clause at a boundary -/

/-- An outcome that a test finds to be a next state is one. -/
theorem next_of_isSome {o : Host.Outcome State Fault Refusal} (h : (after o).isSome = true) : ∃ t, o = .next t := by
  cases o with
  | next t => exact ⟨t, rfl⟩
  | fault r => simp [after] at h
  | refused r => simp [after] at h

/-- The same with a property of the next state. -/
theorem next_with {o : Host.Outcome State Fault Refusal} (p : State → Bool) (h : (after o).map p = some true) :
    ∃ t, o = .next t ∧ p t = true := by
  cases o with
  | next t => exact ⟨t, rfl, by simpa [after] using h⟩
  | fault r => simp [after] at h
  | refused r => simp [after] at h

theorem witness_DecodeOfEncodeIsIdentity :
    WellFormed (.litS 63) = true ∧ WellFormed (.litL 65535) = true ∧ WellFormed (.refS1 127 63) = true ∧
      WellFormed (.refS2 32767 63) = true ∧ WellFormed (.refL1 127 65535) = true ∧ WellFormed (.refL2 32767 65535) = true ∧
      WellFormed .nop = true ∧ WellFormed .compress = true ∧ WellFormed .decompress = true := by decide

theorem witness_DecodedHeaderIsItsEncoding : decodeChunk [0xC0, 0xFF, 0xFF, 0xFF, 0xFF, 0x00] = .ok (.refL2 32767 65535) := rfl

theorem witness_EncodeChecksItsRange :
    encodeValue (.backRef 0 5) = .error .encodingRange ∧ encodeValue (.backRef 32768 5) = .error .encodingRange ∧
      encodeValue (.backRef 5 65536) = .error .encodingRange := ⟨rfl, rfl, rfl⟩

/-- For DecodeOfEncodedValueReportsIt, EncodeIsMinimal and EncodedSizes: 95_test_vectors.md section 2.1. -/
theorem witness_encoded_values :
    encodeValue (.literal []) = .ok [0x00] ∧ encodeValue (.literal [0x61, 0x62, 0x63]) = .ok [0x03, 0x61, 0x62, 0x63] ∧
      encodeValue (.literal (List.replicate 64 0)) = .ok (0x40 :: 0x00 :: 0x40 :: List.replicate 64 0) ∧
      encodeValue (.backRef 127 63) = .ok [0xBF, 0x7F] ∧ encodeValue (.backRef 128 63) = .ok [0xBF, 0x80, 0x80] ∧
      encodeValue (.backRef 127 64) = .ok [0xC0, 0x00, 0x40, 0x7F] ∧
      encodeValue (.backRef 32767 65535) = .ok [0xC0, 0xFF, 0xFF, 0xFF, 0xFF] := ⟨rfl, rfl, rfl, rfl, rfl, rfl, rfl⟩

/-- DecodeOfEncodedValueReportsIt's second clause, at both ends of the non-minimal lengths of a literal and in each form of a
back-reference (R105). -/
theorem witness_non_minimal :
    (WellFormed (.litL 0) = true ∧ minimalForm (.litL 0) = false ∧ encode (.litL 0) = .stream [0x40, 0x00, 0x00] ∧
      ([] : List Byte).length = (Instr.litL 0).payloadSize) ∧
      (WellFormed (.litL 63) = true ∧ minimalForm (.litL 63) = false ∧ encode (.litL 63) = .stream [0x40, 0x00, 0x3F]) ∧
      (WellFormed (.refS2 127 7) = true ∧ minimalForm (.refS2 127 7) = false ∧
        encode (.refS2 127 7) = .stream [0x87, 0x80, 0x7F] ∧ ([] : List Byte).length = (Instr.refS2 127 7).payloadSize) ∧
      (WellFormed (.refL1 127 63) = true ∧ minimalForm (.refL1 127 63) = false ∧
        encode (.refL1 127 63) = .stream [0xC0, 0x00, 0x3F, 0x7F]) ∧
      (WellFormed (.refL2 128 63) = true ∧ minimalForm (.refL2 128 63) = false ∧
        encode (.refL2 128 63) = .stream [0xC0, 0x00, 0x3F, 0x80, 0x80]) :=
  ⟨⟨rfl, rfl, rfl, rfl⟩, ⟨rfl, rfl, rfl⟩, ⟨rfl, rfl, rfl, rfl⟩, ⟨rfl, rfl, rfl⟩, ⟨rfl, rfl, rfl⟩⟩

/-- EncodeIsMinimal's inner hypothesis. -/
theorem witness_EncodeIsMinimal : decodeChunk [0xC0, 0x00, 0x40, 0x7F] = .ok (.refL1 127 64) := rfl

/-- The three clauses: one payload byte short; one byte over OUT_CAP; exactly full. -/
theorem witness_LiteralChunkEffect :
    IsLiteral (.litS 3) 3 1 ∧ IsLiteral (.litL 3) 3 3 ∧
      (let s := decompressing [0x03, 0x61, 0x62] []; s.rp + 1 + 3 > s.n) ∧
      (let s := capped 16 2 (decompressing [0x03, 0x61, 0x62, 0x63] []);
        ¬s.rp + 1 + 3 > s.n ∧ capAdmits s.cfg.outCap (s.outLen + 3) = false) ∧
      (let s := capped 16 3 (decompressing [0x03, 0x61, 0x62, 0x63] []);
        ¬s.rp + 1 + 3 > s.n ∧ ¬capAdmits s.cfg.outCap (s.outLen + 3) = false) :=
  ⟨.inl ⟨rfl, rfl⟩, .inr ⟨rfl, rfl⟩, by decide, by decide, by decide⟩

/-- The clauses: distance 0; distance one beyond OUT_LEN; one byte over OUT_CAP; exactly full, the distance OUT_LEN. -/
theorem witness_BackReferenceEffect :
    IsBackRef (.refS1 2 5) 2 5 2 ∧ IsBackRef (.refS2 2 5) 2 5 3 ∧ IsBackRef (.refL1 2 5) 2 5 4 ∧
      IsBackRef (.refL2 2 5) 2 5 5 ∧ IsBackRef (.refS1 0 5) 0 5 2 ∧
      (let s := decompressing [0x85, 0x03] [0x61, 0x62]; 3 > s.outLen) ∧
      (let s := capped 16 6 (decompressing [0x85, 0x02] [0x61, 0x62]);
        ¬((2 : Nat) = 0 ∨ 2 > s.outLen) ∧ capAdmits s.cfg.outCap (s.outLen + 5) = false) ∧
      (let s := capped 16 7 (decompressing [0x85, 0x02] [0x61, 0x62]);
        ¬((2 : Nat) = 0 ∨ 2 > s.outLen) ∧ ¬capAdmits s.cfg.outCap (s.outLen + 5) = false) :=
  ⟨.inl ⟨rfl, rfl⟩, .inr (.inl ⟨rfl, rfl⟩), .inr (.inr (.inl ⟨rfl, rfl⟩)), .inr (.inr (.inr ⟨rfl, rfl⟩)),
    .inl ⟨rfl, rfl⟩, by decide, by decide, by decide⟩

theorem witness_CopySeesItsOwnOutput :
    IsBackRef (.refS1 2 5) 2 5 2 ∧ ∃ t, exec (.refS1 2 5) (decompressing [0x85, 0x02] [0x61, 0x62]) = .next t ∧
      decide (t.rp ≠ (decompressing [0x85, 0x02] [0x61, 0x62]).rp) = true :=
  ⟨.inl ⟨rfl, rfl⟩, next_with (fun t => decide (t.rp ≠ (decompressing [0x85, 0x02] [0x61, 0x62]).rp)) (by decide)⟩

/-- One state, two spellings of distance 1, length 5; and both with a distance too large. -/
theorem witness_SpellingDoesNotMatter :
    IsBackRef (.refS1 1 5) 1 5 2 ∧ IsBackRef (.refL2 1 5) 1 5 5 ∧
      (∃ t, exec (.refS1 1 5) (decompressing [0x85, 0x01] [0x61]) = .next t) ∧
      (∃ t, exec (.refL2 1 5) (decompressing [0x85, 0x01] [0x61]) = .next t) :=
  ⟨.inl ⟨rfl, rfl⟩, .inr (.inr (.inr ⟨rfl, rfl⟩)), next_of_isSome (by decide), next_of_isSome (by decide +kernel)⟩

/-- For CompressStarts and DecompressStarts: IN_LEN one above IN_CAP; 0; exactly IN_CAP. -/
theorem witness_starts :
    (let s := capped 9 99 (loaded tenA); s.status ≠ .busy ∧ capAdmits s.cfg.inCap s.inLen = false) ∧
      (let s := loaded []; s.status ≠ .busy ∧ ¬capAdmits s.cfg.inCap s.inLen = false ∧ s.inLen = 0) ∧
      (let s := capped 10 99 (loaded tenA);
        s.status ≠ .busy ∧ ¬capAdmits s.cfg.inCap s.inLen = false ∧ ¬s.inLen = 0) := by decide

theorem witness_BusyIgnoresCommands :
    (let s := host (.writeReg 0 3) (decompressing [0x00] []);
      s.status = .busy ∧ 3 < 4 ∧ s.inbox = .writeReg 0 3 :: []) := by decide

theorem witness_StepRunsDecodedChunk :
    (let s := decompressing [0x89, 0x01] [0x61];
      s.status = .busy ∧ s.mode = .decompressing ∧ s.rp < s.n ∧ s.inbox = []) ∧
      (host .yield (decompressing [0x89, 0x01] [0x61])).inbox = .yield :: [] := by decide

theorem witness_StepRunsDecodedChunk_decodes :
    (let s := decompressing [0x89, 0x01] [0x61]; decodeChunk (ibufSlice s s.rp (s.n - s.rp)) = .ok (.refS1 1 9)) := rfl

theorem witness_StepIssuesCommand :
    (host (.writeReg 0 0) (loaded [])).inbox = .writeReg 0 0 :: [] ∧
      (host (.writeReg 0 1) (loaded [])).inbox = .writeReg 0 1 :: [] ∧
      (host (.writeReg 0 2) (loaded [])).inbox = .writeReg 0 2 :: [] ∧
      (host (.writeReg 0 3) (loaded [])).inbox = .writeReg 0 3 :: [] := by decide

theorem atChunk_decompressing (t : Byte) (stream out : List Byte) : (decompressing (t :: stream) out).atChunk :=
  ⟨rfl, rfl, Nat.succ_pos _⟩

/-- The engine has the turn with no access pending, and where the host passes its turn on. -/
theorem witness_EngineHasTurn (stream out : List Byte) :
    EngineHasTurn (decompressing stream out) (decompressing stream out) ∧
      EngineHasTurn (host .yield (decompressing stream out)) (decompressing stream out) :=
  ⟨.inl ⟨rfl, rfl⟩, .inr ⟨[], rfl, rfl⟩⟩

/-- The first and the last reserved tag bytes of both variants; the turn is witness_EngineHasTurn's. -/
theorem witness_ReservedTagEndsTheOperation :
    (decompressing [0x41] []).atChunk ∧ reservedTagByte (ibufByte (decompressing [0x41] []) 0) = true ∧
      reservedTagByte (ibufByte (decompressing [0x7F] []) 0) = true ∧
      reservedTagByte (ibufByte (decompressing [0xC1] []) 0) = true ∧
      reservedTagByte (ibufByte (decompressing [0xFF] []) 0) = true :=
  ⟨atChunk_decompressing _ _ _, by decide, by decide, by decide, by decide⟩

/-- One byte short in each clause: a length byte, the first distance byte, the second distance byte; the turn is
witness_EngineHasTurn's. -/
theorem witness_TruncatedHeaderEndsTheOperation :
    (decompressing [0x40, 0x00] []).atChunk ∧
      (let s := decompressing [0x40, 0x00] [];
        reservedTagByte (ibufByte s s.rp) = false ∧ bits (ibufByte s s.rp) 6 6 = 1 ∧ s.rp + 3 > s.n) ∧
      (let s := decompressing [0xC0, 0x00, 0x05] [];
        reservedTagByte (ibufByte s s.rp) = false ∧ bits (ibufByte s s.rp) 7 7 = 1 ∧
          s.rp + 1 + lengthBytes (ibufByte s s.rp) + 1 > s.n) ∧
      (let s := decompressing [0x81, 0x80] [];
        reservedTagByte (ibufByte s s.rp) = false ∧ bits (ibufByte s s.rp) 7 7 = 1 ∧
          bits (ibufByte s (s.rp + 1 + lengthBytes (ibufByte s s.rp))) 7 7 = 1 ∧
          s.rp + 1 + lengthBytes (ibufByte s s.rp) + 2 > s.n) :=
  ⟨atChunk_decompressing _ _ _, by decide, by decide, by decide⟩

/-- Exactly whole headers: a long literal; the longest back-reference. -/
theorem witness_WholeHeaderDecodes :
    (let s := decompressing [0x40, 0x00, 0x00] [];
      s.rp < s.n ∧ reservedTagByte (ibufByte s s.rp) = false ∧ s.rp + 1 + lengthBytes (ibufByte s s.rp) ≤ s.n ∧
        ¬bits (ibufByte s s.rp) 7 7 = 1) ∧
      (let s := decompressing [0xC0, 0x00, 0x05, 0x80, 0x01] [];
        s.rp < s.n ∧ reservedTagByte (ibufByte s s.rp) = false ∧ s.rp + 1 + lengthBytes (ibufByte s s.rp) ≤ s.n ∧
          s.rp + 1 + lengthBytes (ibufByte s s.rp) + 1 ≤ s.n ∧
          s.rp + 1 + lengthBytes (ibufByte s s.rp) + 2 ≤ s.n) := by decide

theorem witness_DecompressFinishes :
    (let s := decompressing [] [0x61]; s.status = .busy ∧ s.mode = .decompressing ∧ s.inbox = [] ∧ s.rp = s.n) := by decide

/-- For MatchLenIsCommonPrefix and FindMatchIsFirstLongest: the first position, the last. -/
theorem witness_matcher :
    ((0 : Nat) < 1 ∧ (1 : Nat) < 10) ∧ ((8 : Nat) < 9 ∧ (9 : Nat) < 10) ∧
      1 ≤ (findMatch (byteAt tenA) 10 1).bestLen ∧ (findMatch (byteAt [0x61, 0x62]) 2 1).bestLen = 0 := by decide

theorem atIteration_compressing (input : List Byte) (i accLen : Nat) (h1 : 1 ≤ i) (h2 : i < input.length) :
    (compressing input i accLen).atIteration := ⟨rfl, rfl, rfl, h1, h2⟩

/-- A best match of exactly 6. -/
theorem witness_LiteralStepEffect :
    (compressing (List.replicate 7 0x61) 1 1).atIteration ∧
      (compressing (List.replicate 7 0x61) 1 1).search.bestLen = 6 ∧
      (compressing (List.replicate 7 0x61) 1 1).accLen + 1 < 65535 :=
  ⟨atIteration_compressing _ _ _ (by decide) (by decide), by decide, by decide⟩

/-- An accumulator one byte short of the threshold. -/
theorem witness_SizeFlushEffect :
    ∃ s : State, s.atIteration ∧ s.search.bestLen ≤ 6 ∧ s.accLen + 1 = 65535 ∧ s.acc.length = s.accLen ∧
      capAdmits s.cfg.outCap (s.outLen + (s.accLen + 4)) = true := by
  refine ⟨{ compressing [0x61, 0x62] 1 1 with acc := List.replicate 65534 0, accLen := 65534 },
    ⟨rfl, rfl, rfl, by decide, by decide⟩, ?_, rfl, List.length_replicate, rfl⟩
  show (compressing [0x61, 0x62] 1 1).search.bestLen ≤ 6
  decide

/-- For MatchStepEffect and MatchStepOverflows: a best match of exactly 7, the output exactly full and one byte over. -/
theorem witness_match_step :
    (compressing (List.replicate 8 0x61) 1 1).atIteration ∧
      (let s := capped 16 4 (compressing (List.replicate 8 0x61) 1 1);
        s.search.bestLen = 7 ∧ s.acc.length = s.accLen ∧ s.accLen ≤ 65535 ∧
          capAdmits s.cfg.outCap
            (s.outLen + (literalBytes s.acc ++ backRefBytes s.search.bestDist s.search.bestLen).length) = true) ∧
      (let s := capped 16 3 (compressing (List.replicate 8 0x61) 1 1);
        capAdmits s.cfg.outCap
          (s.outLen + (literalBytes s.acc ++ backRefBytes s.search.bestDist s.search.bestLen).length) = false) :=
  ⟨atIteration_compressing _ _ _ (by decide) (by decide), by decide, by decide +kernel⟩

theorem witness_CompressFinishes :
    (let s := capped 16 2 (compressing [0x5A] 1 1);
      s.status = .busy ∧ s.mode = .compressing ∧ s.inbox = [] ∧ s.i = s.n ∧ s.acc.length = s.accLen ∧ s.accLen ≤ 65535 ∧
        capAdmits s.cfg.outCap (s.outLen + (literalBytes s.acc).length) = true) := by decide

/-- Both clauses, the output one byte over OUT_CAP. -/
theorem witness_FlushOverflows :
    (∃ s : State, s.atIteration ∧ s.search.bestLen ≤ 6 ∧ s.accLen + 1 = 65535 ∧ s.acc.length = s.accLen ∧
      capAdmits s.cfg.outCap (s.outLen + (s.accLen + 4)) = false) ∧
      (let s := capped 16 1 (compressing [0x5A] 1 1);
        s.status = .busy ∧ s.mode = .compressing ∧ s.inbox = [] ∧ s.i = s.n ∧ s.acc.length = s.accLen ∧ 1 ≤ s.accLen ∧
          s.accLen ≤ 65535 ∧ capAdmits s.cfg.outCap (s.outLen + (literalBytes s.acc).length) = false) := by
  refine ⟨⟨{ capped 16 65537 (compressing [0x61, 0x62] 1 1) with acc := List.replicate 65534 0, accLen := 65534 },
    ⟨rfl, rfl, rfl, by decide, by decide⟩, ?_, rfl, List.length_replicate, by decide⟩, by decide⟩
  show (compressing [0x61, 0x62] 1 1).search.bestLen ≤ 6
  decide

/-! ### The invariant's witnesses -/

/-- A compressor after its seed. -/
theorem inv_compressing : (compressing [0x5A] 1 1).Inv := by
  constructor
  · constructor <;> decide
  · constructor <;> decide
  · intro _
    constructor <;> decide
  · intro h
    exact absurd h (by decide)

/-- A decompressor with one byte of output. -/
theorem inv_decompressing : (decompressing [0x89, 0x01] [0x61]).Inv := by
  constructor
  · constructor <;> decide
  · constructor <;> decide
  · intro h
    exact absurd h (by decide)
  · intro _
    constructor <;> decide

/-- An idle machine with an input loaded, a command first in the inbox. -/
theorem inv_loaded : (host (.writeReg 0 1) (loaded [])).Inv := by
  constructor
  · constructor <;> decide
  · constructor <;> decide
  · intro h
    exact absurd h (by decide)
  · intro h
    exact absurd h (by decide)

/-- For CompressErrors: the running engine; a start. -/
theorem witness_CompressErrors :
    ((compressing [0x5A] 1 1).Inv ∧ (compressing [0x5A] 1 1).status = .busy ∧ (compressing [0x5A] 1 1).mode = .compressing ∧
      ∃ t, engineTurn (compressing [0x5A] 1 1) = .next t) ∧
      (loaded []).status ≠ .busy ∧ ∃ t, exec .compress (loaded []) = .next t :=
  ⟨⟨inv_compressing, rfl, rfl, next_of_isSome (by decide)⟩, by decide, next_of_isSome (by decide +kernel)⟩

/-- For DecompressErrors, OutputIsAppendOnly, CursorAdvances, OperationEnds, EngineIsNeverBlocked, StepKeepsInvariant. -/
theorem witness_DecompressErrors :
    ((decompressing [0x89, 0x01] [0x61]).Inv ∧ (decompressing [0x89, 0x01] [0x61]).status = .busy ∧
      (decompressing [0x89, 0x01] [0x61]).mode = .decompressing ∧ (decompressing [0x89, 0x01] [0x61]).inbox = [] ∧
      (∃ t, step (decompressing [0x89, 0x01] [0x61]) = .next t) ∧
      ∃ t, engineTurn (decompressing [0x89, 0x01] [0x61]) = .next t ∧ decide (t.status = .busy) = true) ∧
      (loaded []).status ≠ .busy ∧ ∃ t, exec .decompress (loaded []) = .next t :=
  ⟨⟨inv_decompressing, rfl, rfl, rfl, next_of_isSome (by decide),
    next_with (fun t => decide (t.status = .busy)) (by decide)⟩, by decide, next_of_isSome (by decide +kernel)⟩

/-- The four kinds of transition, and a step that changes nothing of STATUS. -/
theorem witness_StatusTransitions :
    (∃ t, step (host (.writeReg 0 2) (loaded [])) = .next t ∧ decide (t.status = .busy) = true) ∧
      (∃ t, step (host (.writeReg 0 1) (loaded [])) = .next t ∧ decide (t.status = .error) = true) ∧
      (∃ t, step (decompressing [] []) = .next t ∧ decide (t.status = .done) = true) ∧
      (∃ t, step (host .reset (decompressing [] [])) = .next t ∧ decide (t.status = .idle) = true) ∧
      ∃ t, step (loaded []) = .next t ∧ decide (t.status = .idle) = true :=
  ⟨next_with (fun t => decide (t.status = .busy)) (by decide),
    next_with (fun t => decide (t.status = .error)) (by decide),
    next_with (fun t => decide (t.status = .done)) (by decide),
    next_with (fun t => decide (t.status = .idle)) (by decide),
    next_with (fun t => decide (t.status = .idle)) (by decide)⟩

/-- A host write of IBUF and one of IN_LEN answer next states. -/
theorem witness_OnlyTheHostChangesInput :
    (∃ t, step (host (.writeIbuf 0 7) (loaded [])) = .next t) ∧ ∃ t, step (host (.writeReg 4 1) (loaded [])) = .next t :=
  ⟨next_of_isSome (by decide), next_of_isSome (by decide +kernel)⟩

/-- A running decompressor at a reserved tag after one applied literal. -/
theorem inv_malformed : ({ decompressing [0x01, 0x61, 0x41] [0x61] with rp := 2 } : State).Inv := by
  constructor
  · constructor <;> decide
  · constructor <;> decide
  · intro h
    exact absurd h (by decide)
  · intro _
    constructor <;> decide

/-- A running compressor whose final flush does not fit. -/
theorem inv_overfull : (capped 4 1 (compressing [0x5A, 0x5B] 2 2)).Inv := by
  constructor
  · constructor <;> decide
  · constructor <;> decide
  · intro _
    constructor <;> decide
  · intro h
    exact absurd h (by decide)

/-- Errors of both running engines, each at a cursor that is not 0. -/
theorem witness_ErrorEntryState_running :
    ((∃ t, step { decompressing [0x01, 0x61, 0x41] [0x61] with rp := 2 } = .next t ∧
        decide (t.status = .error ∧ t.errPos = 2) = true)) ∧
      ∃ t, step (capped 4 1 (compressing [0x5A, 0x5B] 2 2)) = .next t ∧
        decide (t.status = .error ∧ t.errPos = 2) = true :=
  ⟨next_with (fun t => decide (t.status = .error ∧ t.errPos = 2)) (by decide),
    next_with (fun t => decide (t.status = .error ∧ t.errPos = 2)) (by decide)⟩

/-- An error at the start, from a state of the invariant. -/
theorem witness_ErrorEntryState :
    (host (.writeReg 0 1) (loaded [])).Inv ∧ (host (.writeReg 0 1) (loaded [])).status ≠ .error ∧
      ∃ t, step (host (.writeReg 0 1) (loaded [])) = .next t ∧ decide (t.status = .error) = true :=
  ⟨inv_loaded, by decide, next_with (fun t => decide (t.status = .error)) (by decide)⟩

/-- Two states at the same point whose dead registers, unread input and host's sides differ. -/
theorem witness_EngineDependsOnTheOperationOnly :
    SameOperation (decompressing [0x89, 0x01] [0x61])
        (host (.readReg 1) { decompressing [0x89, 0x01] [0x61] with i := 5, k := 9, acc := [0x62], draws := 3 }) ∧
      ∃ t, engineTurn (decompressing [0x89, 0x01] [0x61]) = .next t := by
  refine ⟨?_, next_of_isSome (by decide)⟩
  constructor <;> first | rfl | exact fun _ => rfl | exact fun _ _ _ => rfl | exact fun _ _ => rfl | decide

/-- A fresh machine and one that holds an old result, with the same input. -/
theorem witness_StartForgetsThePast :
    (loaded [0x5A]).status ≠ .busy ∧
      (let t : State := { loaded [0x5A] with status := .done, outLen := 1, obuf := [(0, 0x61)], i := 4 };
        t.status ≠ .busy ∧ (loaded [0x5A]).cfg = t.cfg ∧ (loaded [0x5A]).inLen = t.inLen) ∧
      (∃ s, exec .compress (loaded [0x5A]) = .next s) ∧ ∃ s, exec .decompress (loaded [0x5A]) = .next s :=
  ⟨by decide, by decide, next_of_isSome (by decide), next_of_isSome (by decide +kernel)⟩

/-- For DecompressRunIsDecompress and CompressRunIsCompress. -/
theorem witness_runs :
    (loaded [0x01, 0x5A]).status ≠ .busy ∧ (loaded [0x01, 0x5A]).inbox = [] ∧
      capAdmits (loaded [0x01, 0x5A]).cfg.inCap (loaded [0x01, 0x5A]).inLen = true ∧ (loaded [0x01, 0x5A]).inLen ≠ 0 ∧
      (∃ s, exec .decompress (loaded [0x01, 0x5A]) = .next s) ∧ ∃ s, exec .compress (loaded [0x01, 0x5A]) = .next s :=
  ⟨by decide, by decide, by decide, by decide, next_of_isSome (by decide), next_of_isSome (by decide +kernel)⟩

/-- The seeded compressor has emitted nothing and describes nothing. -/
theorem witness_EmittedChunksDescribeInput :
    (compressing [0x5A] 1 1).Inv ∧ (compressing [0x5A] 1 1).mode = .compressing ∧
      (compressing [0x5A] 1 1).EmittedDescribesInput ∧
      (∃ t, engineTurn (compressing [0x5A] 1 1) = .next t ∧ decide (t.status ≠ .error) = true) ∧
      ∃ t, exec .compress (loaded [0x5A]) = .next t ∧ decide (t.status = .busy) = true :=
  ⟨inv_compressing, rfl, rfl, next_with (fun t => decide (t.status ≠ .error)) (by decide),
    next_with (fun t => decide (t.status = .busy)) (by decide)⟩

/-- For RoundTrip, EmittedStreamShape and CompressedSizeBound: compressing "Z" (95_test_vectors.md section 2.3). -/
theorem witness_compressBytes : ([0x5A] : List Byte) ≠ [] ∧ (compressBytes [0x5A]).toOption = some [0x01, 0x5A] := by
  decide

/-! ### The host port -/

/-- Every register's read; OUT_LEN when not BUSY and while BUSY, with a finite LENW. -/
theorem witness_HostRegisterReads :
    (∀ r < 6, (host (.readReg r) (loaded [])).inbox = .readReg r :: []) ∧ (host (.readReg 5) (loaded [])).status ≠ .busy ∧
      (host (.readReg 5) (capped 16 16 (decompressing [] []))).status = .busy ∧
      (capped 16 16 (decompressing [] [])).cfg.lenw = some 16 := by decide

/-- The four ignored registers; IN_LEN at the largest 16-bit value, when not BUSY and while BUSY. -/
theorem witness_HostRegisterWrites :
    (∀ r < 6, (host (.writeReg r 65535) (loaded [])).inbox = .writeReg r 65535 :: []) ∧
      fitsLenw (some 16) 65535 = true ∧ (loaded []).status ≠ .busy ∧ (decompressing [] []).status = .busy := by decide

/-- The last offset of IBUF. -/
theorem witness_HostLoadsInput :
    (let s := host (.writeIbuf 15 7) (capped 16 16 (loaded []));
      s.inbox = .writeIbuf 15 7 :: [] ∧ s.status ≠ .busy ∧ hasOffset s.cfg.inCap 15 = true ∧ Memory.wf s.ibuf = true) := by
  decide

/-- The last byte of a result. -/
theorem witness_HostReadsResult :
    (let s := host (.readObuf 1) (capped 16 2 { decompressing [] [0x61, 0x62] with status := .done, mode := .none });
      s.inbox = .readObuf 1 :: [] ∧ s.status = .done ∧ 1 < s.outLen ∧ hasOffset s.cfg.outCap 1 = true) := by decide

/-- Each clause: while BUSY; the first register number that does not exist; the first offset that does not exist. -/
theorem witness_OutsideTheInterface :
    (let s := host (.writeIbuf 0 7) (decompressing [] []); s.inbox = .writeIbuf 0 7 :: [] ∧ s.status = .busy) ∧
      (let s := host (.readObuf 0) (decompressing [] []); s.inbox = .readObuf 0 :: [] ∧ s.status = .busy) ∧
      (host (.readIbuf 0) (loaded [])).inbox = .readIbuf 0 :: [] ∧
      (host (.writeReg 6 0) (loaded [])).inbox = .writeReg (0 + 6) 0 :: [] ∧
      (host (.readReg 6) (loaded [])).inbox = .readReg (0 + 6) :: [] ∧
      (let s := host (.writeIbuf 16 7) (capped 16 16 (loaded []));
        s.inbox = .writeIbuf 16 7 :: [] ∧ s.status ≠ .busy ∧ hasOffset s.cfg.inCap 16 = false) ∧
      (let s := host (.readObuf 16) (capped 16 16 (loaded []));
        s.inbox = .readObuf 16 :: [] ∧ s.status ≠ .busy ∧ hasOffset s.cfg.outCap 16 = false) := by decide

theorem witness_ResetFromAnyState :
    (host .reset (decompressing [0x00] [])).inbox = .reset :: [] ∧ (host .reset (decompressing [0x00] [])).status = .busy := by
  decide

/-! ### The machine's round trip -/

/-- COMPRESS of "Z", started. -/
def startedZ : State :=
  { loaded [0x5A] with status := .busy, mode := .compressing, n := 1, acc := [0x5A], accLen := 1, i := 1 }
/-- Its end. -/
def compressedZ : State :=
  { startedZ with
    status := .done, mode := .none, acc := [], accLen := 0, outLen := 2, obuf := [(0, 0x01), (1, 0x5A)] }
/-- DECOMPRESS of the result, started. -/
def reloadedZ : State := { loaded [0x01, 0x5A] with status := .busy, mode := .decompressing, n := 2 }
/-- Its end. -/
def restoredZ : State :=
  { reloadedZ with
    status := .done, mode := .none, rp := 2, cLen := 1, cHdr := 1, k := 1, outLen := 1, obuf := [(0, 0x5A)] }

theorem witness_RoundTripOnTheMachine :
    ((loaded [0x5A]).status ≠ .busy ∧ (loaded [0x5A]).inbox = [] ∧ (loaded [0x5A]).inLen ≠ 0 ∧
      exec .compress (loaded [0x5A]) = .next startedZ ∧ runSteps 1 startedZ = .next compressedZ ∧
      compressedZ.status = .done) ∧
      ((loaded [0x01, 0x5A]).status ≠ .busy ∧ (loaded [0x01, 0x5A]).inbox = [] ∧
        (loaded [0x01, 0x5A]).inLen = compressedZ.outLen ∧
        ibufSlice (loaded [0x01, 0x5A]) 0 (loaded [0x01, 0x5A]).inLen = compressedZ.result) ∧
      exec .decompress (loaded [0x01, 0x5A]) = .next reloadedZ ∧ runSteps 2 reloadedZ = .next restoredZ ∧
      restoredZ.ended = true ∧ restoredZ.err ≠ .inOverflow ∧ restoredZ.err ≠ .outOverflow :=
  ⟨⟨by decide, rfl, by decide, rfl, rfl, rfl⟩, ⟨by decide, rfl, rfl, rfl⟩, rfl, rfl, rfl, by decide, by decide⟩

end Sys2Proof.Tests
end

section
/-! The state family: the host's register accesses, the transitions of STATUS, the invariant after reset and across every
step. -/

namespace Sys2Proof.Machine

/-! ### The host's register accesses (R21 to R27, R245) -/

/-- A pending read of a register that exists answers it, the access taken off the inbox. -/
theorem step_readReg {s : State} {number : Nat} {r : HostReg} {rest : List HostAction}
    (h : s.inbox = .readReg number :: rest) (hr : regOfNumber number = some r) :
    step s = .next (readReg r { s with inbox := rest }) := by
  rw [step_pending h, hostTurn, hostReadReg, hr]

theorem readReg_outLen_notBusy {s : State} (h : s.status ≠ .busy) : readReg .outLen s = answer s.outLen s := by
  rw [readReg, if_neg h]

theorem readReg_outLen_busy {s : State} (h : s.status = .busy) :
    readReg .outLen s = answerUnspecified (cutToLenw s.cfg.lenw (Config.unspecifiedLength s.draws)) s := by
  rw [readReg, if_pos h]

theorem cutToLenw_lt (w v : Nat) : cutToLenw (some w) v < 2 ^ w := Nat.mod_lt _ (Nat.two_pow_pos w)

/-- Settles O32: register by register; while BUSY the value read of OUT_LEN is cut to the register's width. -/
theorem hostRegisterReads : Obligations.HostRegisterReads := by
  intro s rest
  refine ⟨fun h => step_readReg h rfl, fun h => step_readReg h rfl, fun h => step_readReg h rfl,
    fun h => step_readReg h rfl, fun h => step_readReg h rfl, fun h hs => ?_, fun h hs => ?_⟩
  · rw [step_readReg h rfl, readReg_outLen_notBusy (s := { s with inbox := rest }) hs]
    rfl
  · refine ⟨cutToLenw s.cfg.lenw (Config.unspecifiedLength s.draws), _, step_readReg h rfl, ?_, fun w hw => ?_⟩
    · rw [readReg_outLen_busy (s := { s with inbox := rest }) hs]
      rfl
    · rw [hw]
      exact cutToLenw_lt w _

/-- A pending write of a register is that write, the access taken off the inbox. -/
theorem step_writeReg {s : State} {number v : Nat} {rest : List HostAction} (h : s.inbox = .writeReg number v :: rest) :
    step s = hostWriteReg number v { s with inbox := rest } := step_pending h

theorem hostWriteInLen_notBusy {s : State} {v : Nat} (hv : fitsLenw s.cfg.lenw v = true) (hs : s.status ≠ .busy) :
    hostWriteInLen v s = .next { s with inLen := v } := by
  rw [hostWriteInLen, if_pos hv, if_neg hs]

theorem hostWriteInLen_busy {s : State} {v : Nat} (hv : fitsLenw s.cfg.lenw v = true) (hs : s.status = .busy) :
    hostWriteInLen v s = .next s := by
  rw [hostWriteInLen, if_pos hv, if_pos hs]

/-- Settles O33: register by register. -/
theorem hostRegisterWrites : Obligations.HostRegisterWrites := by
  intro s r v rest h
  rw [step_writeReg h]
  refine ⟨?_, ?_, ?_⟩
  · rintro (rfl | rfl | rfl | rfl) <;> rfl
  · rintro rfl hv hs
    exact hostWriteInLen_notBusy hv hs
  · rintro rfl hv hs
    exact hostWriteInLen_busy hv hs

/-! ### The two commands, as one inversion lemma (R232, R233, R235) -/

/-- All that COMPRESS and DECOMPRESS can do: nothing while BUSY; else a start that an error ends at once, or the start of
their engine. -/
theorem exec_start_cases {s t : State} {i : Instr} (hi : i = .compress ∨ i = .decompress) (h : exec i s = .next t) :
    (s.status = .busy ∧ t = s) ∨
    (s.status ≠ .busy ∧
      ((∃ m c, m ≠ .none ∧ c ≠ .none ∧ t = errorEntry c 0 (startOperation m s)) ∨
        (capAdmits s.cfg.inCap s.inLen = true ∧ s.inLen ≠ 0 ∧
          t = seedAccumulator (startOperation .compressing s)) ∨
        (capAdmits s.cfg.inCap s.inLen = true ∧ t = seedReadCursor (startOperation .decompressing s)))) := by
  by_cases hb : s.status = .busy
  · have he : exec i s = .next s := by
      rcases hi with rfl | rfl
      · exact if_pos hb
      · exact if_pos hb
    rw [he, Host.Outcome.next.injEq] at h
    exact .inl ⟨hb, h.symm⟩
  · refine .inr ⟨hb, ?_⟩
    rcases hi with rfl | rfl
    · rw [exec_compress_notBusy hb, Host.Outcome.next.injEq] at h
      subst h
      split
      · exact .inl ⟨_, _, by decide, by decide, rfl⟩
      · next hc =>
        split
        · exact .inl ⟨_, _, by decide, by decide, rfl⟩
        · next hl => exact .inr (.inl ⟨by simpa using hc, hl, rfl⟩)
    · rw [exec_decompress_notBusy hb, Host.Outcome.next.injEq] at h
      subst h
      split
      · exact .inl ⟨_, _, by decide, by decide, rfl⟩
      · next hc => exact .inr (.inr ⟨by simpa using hc, rfl⟩)

/-- A start leaves STATUS BUSY, or ERROR where an error ends it. -/
theorem exec_start_status {s t : State} {i : Instr} (hi : i = .compress ∨ i = .decompress) (hs : s.status ≠ .busy)
    (h : exec i s = .next t) : t.status = .busy ∨ t.status = .error := by
  rcases exec_start_cases hi h with ⟨hb, -⟩ | ⟨-, ⟨m, c, -, -, rfl⟩ | ⟨-, -, rfl⟩ | ⟨-, rfl⟩⟩
  · exact absurd hb hs
  · exact .inr rfl
  · exact .inl rfl
  · exact .inl rfl

/-! ### The transitions of STATUS (R23) -/

/-- The engine's turn leaves STATUS, or ends a running operation. -/
theorem engineTurn_status {s t : State} (h : engineTurn s = .next t) :
    t.status = s.status ∨ (s.status = .busy ∧ (t.status = .done ∨ t.status = .error)) := by
  rcases engineTurn_cases h with ⟨-, rfl⟩ | ⟨hb, hk | ⟨c, pos, u, -, rfl⟩ | ⟨u, -, rfl⟩⟩
  · exact .inl rfl
  · exact .inl hk.status
  · exact .inr ⟨hb, .inr rfl⟩
  · exact .inr ⟨hb, .inl rfl⟩

/-- Settles O38, by the cases of a step. -/
theorem statusTransitions : Obligations.StatusTransitions := by
  refine ⟨⟨rfl, rfl, rfl, rfl⟩, fun s t h => ?_⟩
  rcases step_cases h with ⟨s', hs', he⟩ | ⟨a, v, rest, -, -, -, rfl⟩ | ⟨rest, v, d, rfl⟩ | ⟨v, rest, -, -, -, rfl⟩ |
    ⟨rest, hr, rfl⟩ | ⟨rest, i, hc, he⟩
  · have hst : s'.status = s.status := by rcases hs' with rfl | ⟨rest, -, rfl⟩ <;> rfl
    rw [← hst]
    exact (engineTurn_status he).imp_right fun h => .inr (.inl h)
  · exact .inl rfl
  · exact .inl rfl
  · exact .inl rfl
  · exact .inr (.inr (.inr ⟨rfl, rest, hr⟩))
  · have hi : i = .compress ∨ i = .decompress := hc.imp And.right And.right
    by_cases hb : s.status = .busy
    · rcases exec_start_cases hi he with ⟨-, rfl⟩ | ⟨hn, -⟩
      · exact .inl rfl
      · exact absurd hb hn
    · exact .inr (.inl ⟨hb, exec_start_status (s := { s with inbox := rest }) hi hb he, rest, hc.imp And.left And.left⟩)

/-! ### Widths and capacities (R6, R20) -/

theorem fitsLenw_zero (lenw : Option Nat) : fitsLenw lenw 0 = true := by
  cases lenw with
  | none => rfl
  | some w => exact decide_eq_true (Nat.two_pow_pos w)

theorem fitsLenw_mono {lenw : Option Nat} {v w : Nat} (h : v ≤ w) (hw : fitsLenw lenw w = true) :
    fitsLenw lenw v = true := by
  cases lenw with
  | none => rfl
  | some l =>
    simp only [fitsLenw, decide_eq_true_eq] at hw ⊢
    omega

/-- R6: LENW bits hold every length that fits OBUF. -/
theorem fitsLenw_of_capAdmits {c : Config} (hc : c.wf = true) {v : Nat} (hv : capAdmits c.outCap v = true) :
    fitsLenw c.lenw v = true := by
  obtain ⟨a, b, l⟩ := c
  cases l with
  | none => rfl
  | some l =>
    cases a with
    | none => simp [Config.wf] at hc
    | some a =>
      cases b with
      | none => simp [Config.wf] at hc
      | some b =>
        simp only [Config.wf, Bool.and_eq_true, decide_eq_true_eq] at hc
        simp only [capAdmits, fitsLenw, decide_eq_true_eq] at hv ⊢
        omega

/-! ### The invariant after reset (R40) -/

/-- Reset establishes the invariant, whatever it passes on of the host's side. -/
theorem inv_afterReset {c : Config} (hc : c.wf = true) (epoch draws : Nat) (inbox : List HostAction)
    (reply : Option Nat) : (State.afterReset c epoch draws inbox reply).Inv where
  widths := by
    constructor
    case accLen | acc | len | bestLen | bestDist | cLen | cDist | cHdr | k => exact Nat.two_pow_pos _
    all_goals exact fitsLenw_zero _
  coherent := {
    cfg := hc
    ibufWf := rfl
    obufWf := rfl
    ibufCap := fun _ h => absurd h List.not_mem_nil
    obufCap := fun _ h => absurd h List.not_mem_nil
    busyMode := by simp [State.afterReset]
    errStatus := by simp [State.afterReset]
    errPosZero := fun _ => rfl
    outLenZero := fun _ => rfl
    outLenCap := by
      show capAdmits c.outCap 0 = true
      cases c.outCap with
      | none => rfl
      | some b => exact decide_eq_true (Nat.zero_le b)
    outLenWritten := fun _ h => absurd h (Nat.not_lt_zero _) }
  compressing := nofun
  decompressing := nofun

/-- Settles O45: reset establishes the invariant for every configuration of R6, the infinite one included. -/
theorem resetMeetsInvariant : Obligations.ResetMeetsInvariant := inv_afterReset rfl 0 0 [] none

end Sys2Proof.Machine
end

section
/-! The invariant across every step (R20 to R35, R43). Between the parts of an engine step everything of the invariant but the
claims on the cursors holds: State.Running. Each part keeps it, and the step's end adds the cursors or leaves BUSY. -/

namespace Sys2Proof.Machine

/-! ### The part of the invariant that holds inside an engine step -/

/-- What the invariant says of a running operation, its cursors and the accumulator's content left out. -/
structure State.Running (s : State) : Prop where
  widths : s.Widths
  coherent : s.Coherent
  busy : s.status = .busy

theorem State.Inv.running {s : State} (h : s.Inv) (hb : s.status = .busy) : s.Running := ⟨h.widths, h.coherent, hb⟩

namespace State.Running

variable {s : State}

/-! #### Parts that write registers only -/

theorem searchStep (h : s.Running) (h1 : 1 ≤ s.i) (hn : s.i < s.n) : (Machine.searchStep s).Running := by
  obtain ⟨hp, hlen⟩ := findMatch_last (input := ibufByte s) (n := s.n) h1
  have hl : (findMatch (ibufByte s) s.n s.i).len ≤ 32767 := hlen ▸ matchLen_le_maxLen _ _ _ _
  have hbl := findMatch_bestLen_le (input := ibufByte s) hn
  have hbd := findMatch_bestDist_le (ibufByte s) s.n s.i
  exact {
    widths := { h.widths with
      wstart := fitsLenw_mono (windowStart_le s.i) h.widths.i
      p := fitsLenw_mono (by omega : (findMatch (ibufByte s) s.n s.i).p ≤ s.i) h.widths.i
      len := Nat.lt_succ_of_le hl
      bestLen := Nat.lt_succ_of_le hbl
      bestDist := Nat.lt_succ_of_le hbd }
    coherent := { h.coherent with }
    busy := h.busy }

theorem literalStep (h : s.Running) (hn : s.i < s.n) (hl : s.acc.length = s.accLen) (hs : s.accLen < 65535) :
    (Machine.literalStep s).Running where
  widths := { h.widths with
    i := fitsLenw_mono (Nat.succ_le_of_lt hn) h.widths.n
    accLen := Nat.succ_lt_succ hs
    acc := by simp [Machine.literalStep]; omega }
  coherent := { h.coherent with }
  busy := h.busy

theorem clearAccumulator (h : s.Running) : (Machine.clearAccumulator s).Running where
  widths := { h.widths with accLen := Nat.two_pow_pos 16, acc := Nat.two_pow_pos 16 }
  coherent := { h.coherent with }
  busy := h.busy

theorem latchChunk (h : s.Running) (kind : ChunkKind) {length distance header : Nat} (hl : length ≤ 65535)
    (hd : distance ≤ 32767) (hh : header ≤ 5) : (Machine.latchChunk kind length distance header s).Running where
  widths := { h.widths with
    cLen := Nat.lt_succ_of_le hl
    cDist := Nat.lt_succ_of_le hd
    cHdr := Nat.lt_of_le_of_lt hh (by decide) }
  coherent := { h.coherent with }
  busy := h.busy

theorem withScanCursor (h : s.Running) {i : Nat} (hi : i ≤ s.n) : State.Running { s with i := i } where
  widths := { h.widths with i := fitsLenw_mono hi h.widths.n }
  coherent := { h.coherent with }
  busy := h.busy

theorem withCopyCursors (h : s.Running) {rp base k : Nat} (hrp : rp ≤ s.n) (hbase : fitsLenw s.cfg.lenw base = true)
    (hk : k ≤ 65535) : State.Running { s with rp := rp, base := base, k := k } where
  widths := { h.widths with
    rp := fitsLenw_mono hrp h.widths.n
    base := hbase
    k := Nat.lt_succ_of_le hk }
  coherent := { h.coherent with }
  busy := h.busy

/-! #### Parts that append to OBUF (R65) -/

/-- A run of `count` bytes written from OUT_LEN on, all of it within the capacity. -/
theorem append (h : s.Running) {m : Memory} {count : Nat} (hcap : capAdmits s.cfg.outCap (s.outLen + count) = true)
    (hwf : Memory.wf m = true) (hcells : ∀ c ∈ m, (s.outLen ≤ c.1 ∧ c.1 < s.outLen + count) ∨ c ∈ s.obuf)
    (hwritten : ∀ a < s.outLen + count, (Memory.read? m a).isSome = true) :
    State.Running { s with obuf := m, outLen := s.outLen + count } where
  widths := { h.widths with outLen := fitsLenw_of_capAdmits h.coherent.cfg hcap }
  coherent := { h.coherent with
    obufWf := hwf
    obufCap := fun c hc => (hcells c hc).elim (fun hr => hasOffset_of_capAdmits hr.2 hcap) (h.coherent.obufCap c)
    outLenZero := fun hs => by
      have hs : s.status = .idle ∨ s.status = .error := hs
      simp [h.busy] at hs
    outLenCap := hcap
    outLenWritten := hwritten }
  busy := h.busy

theorem outAppendSeq (h : s.Running) {vs : List Byte} (hcap : capAdmits s.cfg.outCap (s.outLen + vs.length) = true) :
    (Machine.outAppendSeq vs s).Running := by
  rw [outAppendSeq_eq]
  refine h.append hcap (Memory.wf_writeSeq h.coherent.obufWf) (fun c hc => Memory.mem_writeSeq hc) fun a ha => ?_
  by_cases hin : a < s.outLen
  · rw [Memory.read?_writeSeq_outside _ _ (.inl hin)]
    exact h.coherent.outLenWritten a hin
  · obtain ⟨j, rfl⟩ := Nat.exists_eq_add_of_le (Nat.le_of_not_lt hin)
    rw [Memory.read?_writeSeq_inside _ _ (by omega), List.getElem?_eq_getElem (by omega)]
    rfl

theorem copyBack (h : s.Running) {count : Nat} (hcap : capAdmits s.cfg.outCap (s.outLen + count) = true)
    (hk : s.k + count ≤ 65535) : (Machine.copyBack count s).Running := by
  have hw := copyBack_written (count := count) h.coherent.outLenWritten
  rw [copyBack_outLen] at hw
  rw [copyBack_eq]
  have happ := h.append hcap (wf_copyBack h.coherent.obufWf) (fun c hc => mem_copyBack hc) hw
  exact {
    widths := { happ.widths with k := Nat.lt_succ_of_le hk }
    coherent := { happ.coherent with }
    busy := happ.busy }

/-! #### How a step ends -/

/-- Error entry (R262). -/
theorem inv_errorEntry (h : s.Running) {c : Cause} (hc : c ≠ .none) {pos : Nat}
    (hp : fitsLenw s.cfg.lenw pos = true) : (errorEntry c pos s).Inv where
  widths := { h.widths with errPos := hp, outLen := fitsLenw_zero _ }
  coherent := { h.coherent with
    busyMode := by simp
    errStatus := by simpa using hc
    errPosZero := fun hs => absurd rfl hs
    outLenZero := fun _ => rfl
    outLenCap := capAdmits_mono (Nat.zero_le _) h.coherent.outLenCap
    outLenWritten := fun _ ha => absurd ha (Nat.not_lt_zero _) }
  compressing := nofun
  decompressing := nofun

/-- The end without error (R166, R208). -/
theorem inv_finishOperation (h : s.Running) : (finishOperation s).Inv where
  widths := { h.widths with }
  coherent := { h.coherent with
    busyMode := by simp
    errStatus := by
      have := h.coherent.errStatus
      simpa [h.busy] using this
    errPosZero := fun _ => h.coherent.errPosZero (by simp [h.busy])
    outLenZero := fun hs => by simp at hs }
  compressing := nofun
  decompressing := nofun

/-- A loop head of the compressor. -/
theorem inv_compressing (h : s.Running) (hm : s.mode = .compressing) (hl : s.AtLoopHead) : s.Inv where
  widths := h.widths
  coherent := h.coherent
  compressing := fun _ => hl
  decompressing := fun hd => absurd (hm.symm.trans hd) (by decide)

/-- A chunk boundary of the decompressor. -/
theorem inv_decompressing (h : s.Running) (hm : s.mode = .decompressing) (hl : s.AtChunkBoundary) : s.Inv where
  widths := h.widths
  coherent := h.coherent
  compressing := fun hc => absurd (hm.symm.trans hc) (by decide)
  decompressing := fun _ => hl

end State.Running

/-! ### The compressor (R165, R166) -/

/-- A loop head with nothing in the accumulator. -/
theorem State.AtLoopHead.of_empty {s : State} (h1 : 1 ≤ s.i) (hn : s.i ≤ s.n) (hcap : capAdmits s.cfg.inCap s.n = true)
    (ha : s.acc = []) (hl : s.accLen = 0) : s.AtLoopHead where
  iPos := h1
  iLe := hn
  nCap := hcap
  accLen := by rw [ha, hl]; rfl
  accShort := by rw [hl]; decide
  accLe := by omega
  accIs := by rw [ha, hl]; rfl

/-- The literal step keeps ACC the input before I (R31). -/
theorem State.AtLoopHead.literalStep {s : State} (h : s.AtLoopHead) (hi : s.i < s.n) (hs : s.accLen + 1 < 65535) :
    (Machine.literalStep (searchStep s)).AtLoopHead where
  iPos := Nat.succ_pos _
  iLe := hi
  nCap := h.nCap
  accLen := by simp [h.accLen]
  accShort := hs
  accLe := Nat.succ_le_succ h.accLe
  accIs := by
    have hle := h.accLe
    show s.acc ++ [ibufByte s s.i] = ibufSlice s (s.i + 1 - (s.accLen + 1)) (s.accLen + 1)
    rw [ibufSlice_snoc, Nat.add_sub_add_right, ← h.accIs, Nat.sub_add_cancel hle]

/-- The chunk of an accumulator that reaches the flush threshold is in long form: 4 bytes more than the accumulator was. -/
theorem literalBytes_length_full {acc : List Byte} (b : Byte) (h : acc.length + 1 = 65535) :
    (literalBytes (acc ++ [b])).length = acc.length + 4 := by
  have hl : (acc ++ [b]).length = 65535 := by simpa using h
  rw [literalBytes, if_neg (by omega), List.length_append, hl, encLen, if_neg (by decide)]
  simp [longLengthBytes]
  omega

section
variable {s : State}

/-- Appending the accumulator's chunk, if there is one. -/
theorem State.Running.appendAccumulator (h : s.Running) {acc : List Byte} (hl : acc.length = s.accLen)
    (hc : capAdmits s.cfg.outCap (s.outLen + (literalBytes acc).length) = true ∨ s.accLen = 0) :
    (Machine.outAppendSeq (literalBytes acc) s).Running := by
  rcases hc with hc | h0
  · exact h.outAppendSeq hc
  · rw [literalBytes, if_pos (by omega)]
    exact h

/-- Where an emit overflows, the step has kept the invariant so far. -/
theorem OverflowsAt.running {u : State} (ho : OverflowsAt s u) (h : s.Running) (hl : s.AtLoopHead) : u.Running := by
  rcases ho with ⟨hi, rfl⟩ | ⟨hi, hc, rfl⟩ | ⟨hi, -, rfl⟩ | ⟨-, rfl⟩
  · exact h.searchStep hl.iPos hi
  · exact ((h.searchStep hl.iPos hi).appendAccumulator hl.accLen hc).clearAccumulator
  · exact (h.searchStep hl.iPos hi).literalStep hi hl.accLen hl.accShort
  · exact h

theorem inv_afterMatch (h : s.Running) (hl : s.AtLoopHead) (hm : s.mode = .compressing) (hi : s.i < s.n)
    (hq : 7 ≤ (findMatch (ibufByte s) s.n s.i).bestLen)
    (hc : capAdmits s.cfg.outCap (s.outLen + (matchBytes s).length) = true) : (afterMatch s).Inv := by
  obtain ⟨-, -, -, -, hend, -⟩ := findMatch_valid hi (by omega : 1 ≤ (findMatch (ibufByte s) s.n s.i).bestLen)
  have hrun := ((h.searchStep hl.iPos hi).outAppendSeq (vs := matchBytes s) hc).clearAccumulator
  have hpos := hl.iPos
  rw [afterMatch]
  rw [outAppendSeq_eq] at hrun ⊢
  exact (hrun.withScanCursor hend).inv_compressing hm (.of_empty (by simp; omega) hend hl.nCap rfl rfl)

theorem inv_afterFlush (h : s.Running) (hl : s.AtLoopHead) (hm : s.mode = .compressing) (hi : s.i < s.n)
    (hs : s.accLen + 1 = 65535) (hc : capAdmits s.cfg.outCap (s.outLen + (s.accLen + 4)) = true) :
    (afterFlush s).Inv := by
  have hlit := (h.searchStep hl.iPos hi).literalStep hi hl.accLen hl.accShort
  have hsize := literalBytes_length_full (acc := s.acc) (ibufByte s s.i) (by rw [hl.accLen, hs])
  rw [hl.accLen] at hsize
  have hrun := (hlit.outAppendSeq (vs := literalBytes (s.acc ++ [ibufByte s s.i])) (hsize ▸ hc)).clearAccumulator
  rw [afterFlush]
  rw [outAppendSeq_eq] at hrun ⊢
  exact hrun.inv_compressing hm (.of_empty (Nat.succ_pos _) hi hl.nCap rfl rfl)

/-- A compressor's turn keeps the invariant. -/
theorem inv_compressorTurn {t : State} (h : s.Running) (hm : s.mode = .compressing) (hl : s.AtLoopHead)
    (ht : compressorTurn s = .next t) : t.Inv := by
  rcases compressorTurn_cases hl with ⟨hi, hq, hc, he⟩ | ⟨hi, -, hs, he⟩ | ⟨hi, -, hs, hc, he⟩ | ⟨-, hc, he⟩ |
    ⟨u, ho, -, he⟩
  all_goals
    rw [he, Host.Outcome.next.injEq] at ht
    subst ht
  · exact inv_afterMatch h hl hm hi hq hc
  · exact ((h.searchStep hl.iPos hi).literalStep hi hl.accLen hl.accShort).inv_compressing hm (hl.literalStep hi hs)
  · exact inv_afterFlush h hl hm hi hs hc
  · exact (h.appendAccumulator hl.accLen hc).clearAccumulator.inv_finishOperation
  · have hcfg : u.cfg = s.cfg := by
      rcases ho with ⟨-, rfl⟩ | ⟨-, -, rfl⟩ | ⟨-, -, rfl⟩ | ⟨-, rfl⟩
      · rfl
      · exact (outAppendSeq_keeps _ _).cfg
      · rfl
      · rfl
    exact (ho.running h hl).inv_errorEntry (by decide) (hcfg ▸ h.widths.i)

end

/-! ### The decompressor (R207, R208) -/

section
variable {s : State} {length header : Nat}

theorem inv_literal_applied (h : s.Running) (hm : s.mode = .decompressing) (hb : s.AtChunkBoundary)
    (hl : length ≤ 65535) (hh : header ≤ 5) (hn : s.rp + header + length ≤ s.n)
    (hc : capAdmits s.cfg.outCap (s.outLen + length) = true) :
    (advancePastLiteral (copyLiteral length (literalStart length header s))).Inv := by
  have happ := (h.latchChunk .literal hl (Nat.zero_le _) hh).outAppendSeq
    (vs := ibufSlice s (s.rp + header) length) (by simpa using hc)
  rw [outAppendSeq_eq, ibufSlice_length] at happ
  rw [literal_applied]
  exact (happ.withCopyCursors hn h.widths.base hl).inv_decompressing hm ⟨hn, hb.nCap⟩

theorem inv_ref_applied {distance : Nat} (h : s.Running) (hm : s.mode = .decompressing) (hb : s.AtChunkBoundary)
    (hd : distance ≤ 32767) (hl : length ≤ 65535) (hh : header ≤ 5) (hn : s.rp + header ≤ s.n)
    (hc : capAdmits s.cfg.outCap (s.outLen + length) = true) :
    (advancePastRef (copyBack length (refStart distance length header s))).Inv := by
  have hbase : fitsLenw s.cfg.lenw (s.outLen - distance) = true := fitsLenw_mono (Nat.sub_le _ _) h.widths.outLen
  have hstart : (refStart distance length header s).Running :=
    (h.latchChunk .backRef hl hd hh).withCopyCursors hb.rpLe hbase (Nat.zero_le _)
  have hcopy := hstart.copyBack (count := length) hc (by simpa [refStart] using hl)
  rw [copyBack_eq] at hcopy
  rw [ref_applied]
  exact (hcopy.withCopyCursors hn hbase hl).inv_decompressing hm ⟨hn, hb.nCap⟩

theorem inv_literalChunk {t : State} (h : s.Running) (hm : s.mode = .decompressing) (hb : s.AtChunkBoundary)
    (hl : length ≤ 65535) (hh : header ≤ 5) (ht : (literalChunk length header s).outcome = .next t) : t.Inv := by
  rcases literalChunk_cases length header s with ⟨-, he⟩ | ⟨-, -, he⟩ | ⟨hn, hc, he⟩
  all_goals
    rw [he] at ht
    injection ht with ht
    subst ht
  · exact h.inv_errorEntry (by decide) h.widths.rp
  · exact (h.latchChunk .literal hl (Nat.zero_le _) hh).inv_errorEntry (by decide) h.widths.rp
  · exact inv_literal_applied h hm hb hl hh hn hc

theorem inv_refChunk {t : State} {distance : Nat} (h : s.Running) (hm : s.mode = .decompressing)
    (hb : s.AtChunkBoundary) (hd : distance ≤ 32767) (hl : length ≤ 65535) (hh : header ≤ 5)
    (hn : s.rp + header ≤ s.n) (ht : (refChunk distance length header s).outcome = .next t) : t.Inv := by
  have hlatch := h.latchChunk .backRef hl hd hh
  rcases refChunk_cases distance length header s with ⟨-, he⟩ | ⟨-, -, -, he⟩ | ⟨-, -, hc, he⟩
  all_goals
    rw [he] at ht
    injection ht with ht
    subst ht
  · exact hlatch.inv_errorEntry (by decide) h.widths.rp
  · exact hlatch.inv_errorEntry (by decide) h.widths.rp
  · exact inv_ref_applied h hm hb hd hl hh hn hc

/-- A chunk step keeps the invariant. -/
theorem inv_decompStep {t : State} (h : s.Running) (hm : s.mode = .decompressing) (hb : s.AtChunkBoundary)
    (hrp : s.rp < s.n) (ht : decompStep s = .next t) : t.Inv := by
  rcases decompStep_cases s hrp with ⟨c, hc, -, he⟩ | ⟨i, length, header, -, -, hl, -, hh, -, he⟩ |
    ⟨i, distance, length, header, -, -, hd, hl, -, hh, hn, he⟩
  · rw [he, Host.Outcome.next.injEq] at ht
    subst ht
    exact h.inv_errorEntry (by rcases hc with rfl | rfl <;> decide) h.widths.rp
  · exact inv_literalChunk h hm hb hl hh (he ▸ ht)
  · exact inv_refChunk h hm hb hd hl hh hn (he ▸ ht)

/-- A decompressor's turn keeps the invariant. -/
theorem inv_decompressorTurn {t : State} (h : s.Running) (hm : s.mode = .decompressing) (hb : s.AtChunkBoundary)
    (ht : decompressorTurn s = .next t) : t.Inv := by
  rw [decompressorTurn] at ht
  split at ht
  · next hrp => exact inv_decompStep h hm hb hrp ht
  · split at ht
    · injection ht with ht
      exact ht ▸ h.inv_finishOperation
    · nomatch ht

end

/-! ### A step -/

section
variable {s : State}

/-- The engine's turn keeps the invariant. -/
theorem inv_engineTurn {t : State} (h : s.Inv) (ht : engineTurn s = .next t) : t.Inv := by
  by_cases hb : s.status = .busy
  · cases hm : s.mode with
    | none => exact absurd hm (h.coherent.busyMode.1 hb)
    | compressing =>
      rw [engineTurn_compressing hb hm] at ht
      exact inv_compressorTurn (h.running hb) hm (h.compressing hm) ht
    | decompressing =>
      rw [engineTurn_decompressing hb hm] at ht
      exact inv_decompressorTurn (h.running hb) hm (h.decompressing hm) ht
  · rw [engineTurn_notBusy hb, Host.Outcome.next.injEq] at ht
    exact ht ▸ h

/-- The invariant says nothing of the host's side. -/
theorem State.Inv.withHostSide (h : s.Inv) (inbox : List HostAction) (reply : Option Nat) (draws : Nat) :
    State.Inv { s with inbox := inbox, reply := reply, draws := draws } where
  widths := { h.widths with }
  coherent := { h.coherent with }
  compressing := fun hm => { h.compressing hm with }
  decompressing := fun hm => { h.decompressing hm with }

/-- When not BUSY no engine has a cursor to keep. -/
theorem State.Inv.mode_none (h : s.Inv) (hb : s.status ≠ .busy) : s.mode = .none := by
  by_contra hm
  exact hb (h.coherent.busyMode.2 hm)

/-- A host write of IBUF when not BUSY (R61). -/
theorem State.Inv.writeIbuf (h : s.Inv) (hb : s.status ≠ .busy) {a : Nat} (v : Byte)
    (ha : hasOffset s.cfg.inCap a = true) : State.Inv { s with ibuf := Memory.write s.ibuf a v } where
  widths := { h.widths with }
  coherent := { h.coherent with
    ibufWf := Memory.wf_write a v h.coherent.ibufWf
    ibufCap := fun c hc => (Memory.mem_write hc).elim (fun he => he ▸ ha) (h.coherent.ibufCap c) }
  compressing := fun hm => nomatch (h.mode_none hb).symm.trans hm
  decompressing := fun hm => nomatch (h.mode_none hb).symm.trans hm

/-- A host write of IN_LEN when not BUSY (R26). -/
theorem State.Inv.writeInLen (h : s.Inv) (hb : s.status ≠ .busy) {v : Nat} (hv : fitsLenw s.cfg.lenw v = true) :
    State.Inv { s with inLen := v } where
  widths := { h.widths with inLen := hv }
  coherent := { h.coherent with }
  compressing := fun hm => nomatch (h.mode_none hb).symm.trans hm
  decompressing := fun hm => nomatch (h.mode_none hb).symm.trans hm

/-- What both commands do first (R264) starts a running operation. -/
theorem State.Inv.startOperation (h : s.Inv) {m : Mode} (hm : m ≠ .none) : (Machine.startOperation m s).Running where
  widths := { h.widths with errPos := fitsLenw_zero _, outLen := fitsLenw_zero _, n := h.widths.inLen }
  coherent := { h.coherent with
    busyMode := by simpa using hm
    errStatus := by simp
    errPosZero := fun _ => rfl
    outLenZero := fun _ => rfl
    outLenCap := capAdmits_mono (Nat.zero_le _) h.coherent.outLenCap
    outLenWritten := fun _ ha => absurd ha (Nat.not_lt_zero _) }
  busy := rfl

/-- COMPRESS puts the compressor at its first loop head (R151). -/
theorem State.Inv.startCompressor (h : s.Inv) (hc : capAdmits s.cfg.inCap s.inLen = true) (hn : s.inLen ≠ 0) :
    (seedAccumulator (Machine.startOperation .compressing s)).Inv := by
  have hrun := h.startOperation (m := .compressing) (by decide)
  have h1 : 1 ≤ s.inLen := Nat.pos_of_ne_zero hn
  have hw : 1 < 2 ^ 16 := by decide
  have hshort : 1 < Config.litMax := by decide
  refine State.Running.inv_compressing ⟨?_, { hrun.coherent with }, rfl⟩ rfl ?_
  · exact { hrun.widths with i := fitsLenw_mono h1 h.widths.inLen, accLen := hw, acc := hw }
  · exact {
      iPos := Nat.le_refl 1, iLe := h1, nCap := hc
      accLen := rfl, accShort := hshort, accLe := Nat.le_refl 1, accIs := rfl }

/-- DECOMPRESS puts the decompressor at its first chunk boundary (R191). -/
theorem State.Inv.startDecompressor (h : s.Inv) (hc : capAdmits s.cfg.inCap s.inLen = true) :
    (seedReadCursor (Machine.startOperation .decompressing s)).Inv := by
  have hrun := h.startOperation (m := .decompressing) (by decide)
  refine State.Running.inv_decompressing ⟨?_, { hrun.coherent with }, rfl⟩ rfl ⟨Nat.zero_le _, hc⟩
  exact { hrun.widths with rp := fitsLenw_zero _ }

/-- The two commands keep the invariant. -/
theorem inv_exec_start {t : State} {i : Instr} (h : s.Inv) (hi : i = .compress ∨ i = .decompress)
    (ht : exec i s = .next t) : t.Inv := by
  rcases exec_start_cases hi ht with ⟨-, rfl⟩ | ⟨-, ⟨m, c, hm, hc, rfl⟩ | ⟨hc, hn, rfl⟩ | ⟨hc, rfl⟩⟩
  · exact h
  · exact (h.startOperation hm).inv_errorEntry hc (fitsLenw_zero _)
  · exact h.startCompressor hc hn
  · exact h.startDecompressor hc

end

/-- Settles O46, by the cases of a step: an engine's turn, a host access, reset, a command. -/
theorem stepKeepsInvariant : Obligations.StepKeepsInvariant := by
  intro s t h hst
  have hpop : ∀ rest, State.Inv { s with inbox := rest } := fun rest => h.withHostSide rest s.reply s.draws
  rcases step_cases hst with ⟨s', hs', he⟩ | ⟨a, v, rest, -, hb, ha, rfl⟩ | ⟨rest, v, d, rfl⟩ | ⟨v, rest, -, hv, hb, rfl⟩ |
    ⟨rest, -, rfl⟩ | ⟨rest, i, hc, he⟩
  · rcases hs' with rfl | ⟨rest, -, rfl⟩
    · exact inv_engineTurn h he
    · exact inv_engineTurn (hpop rest) he
  · exact (hpop rest).writeIbuf hb v ha
  · exact h.withHostSide rest v d
  · exact (hpop rest).writeInLen hb hv
  · exact inv_afterReset h.coherent.cfg _ _ _ _
  · exact inv_exec_start (hpop rest) (hc.imp And.right And.right) he

end Sys2Proof.Machine
end

section
/-! The memory family: the host's accesses to the two buffers (R61 to R63), the input that no operation changes (R61), the
output that an engine step only appends to (R65). -/

namespace Sys2Proof.Machine

/-! ### The output (R65) -/

/-- Settles O40, by the cases of the engine's turn: what `Keeps` says of OBUF and OUT_LEN holds of all but error entry. -/
theorem outputIsAppendOnly : Obligations.OutputIsAppendOnly := by
  intro s t h
  rcases engineTurn_cases h with ⟨-, rfl⟩ | ⟨-, hk | ⟨c, pos, u, -, rfl⟩ | ⟨u, hk, rfl⟩⟩
  · exact .inl ⟨Nat.le_refl _, fun _ _ => rfl⟩
  · exact .inl ⟨hk.outLen, hk.obuf⟩
  · exact .inr ⟨rfl, rfl⟩
  · exact .inl ⟨hk.outLen, hk.obuf⟩

/-! ### The input (R61, R26) -/

/-- `t` has the configuration, the input and the input's length of `s`. -/
structure SameInput (s t : State) : Prop where
  cfg : t.cfg = s.cfg
  ibuf : t.ibuf = s.ibuf
  epoch : t.epoch = s.epoch
  inLen : t.inLen = s.inLen

theorem Keeps.sameInput {s t : State} (h : Keeps s t) : SameInput s t := ⟨h.cfg, h.ibuf, h.epoch, h.inLen⟩

/-- No turn of an engine changes the input. -/
theorem engineTurn_sameInput {s t : State} (h : engineTurn s = .next t) : SameInput s t := by
  rcases engineTurn_cases h with ⟨-, rfl⟩ | ⟨-, hk | ⟨c, pos, u, hk, rfl⟩ | ⟨u, hk, rfl⟩⟩
  · exact ⟨rfl, rfl, rfl, rfl⟩
  · exact hk.sameInput
  · exact { hk.sameInput with }
  · exact { hk.sameInput with }

/-- No command changes the input. -/
theorem exec_start_sameInput {s t : State} {i : Instr} (hi : i = .compress ∨ i = .decompress)
    (h : exec i s = .next t) : SameInput s t := by
  rcases exec_start_cases hi h with ⟨-, rfl⟩ | ⟨-, ⟨m, c, -, -, rfl⟩ | ⟨-, -, rfl⟩ | ⟨-, rfl⟩⟩ <;>
    exact ⟨rfl, rfl, rfl, rfl⟩

/-- Settles O39, by the cases of a step: only a host write of IBUF, a host write of IN_LEN and reset touch the input. -/
theorem onlyTheHostChangesInput : Obligations.OnlyTheHostChangesInput := by
  intro s t h
  rcases step_cases h with ⟨s', hs', he⟩ | ⟨a, v, rest, hin, -, -, rfl⟩ | ⟨rest, v, d, rfl⟩ | ⟨v, rest, hin, -, -, rfl⟩ |
    ⟨rest, hin, rfl⟩ | ⟨rest, i, hc, he⟩
  · obtain ⟨hcfg, hibuf, hepoch, hinLen⟩ : SameInput s t := by
      rcases hs' with rfl | ⟨rest, -, rfl⟩
      · exact engineTurn_sameInput he
      · exact { engineTurn_sameInput he with }
    exact ⟨hcfg, .inl ⟨hibuf, hepoch⟩, .inl hinLen⟩
  · exact ⟨rfl, .inr (.inl ⟨a, v, rest, hin⟩), .inl rfl⟩
  · exact ⟨rfl, .inl ⟨rfl, rfl⟩, .inl rfl⟩
  · exact ⟨rfl, .inl ⟨rfl, rfl⟩, .inr (.inl ⟨v, rest, hin⟩)⟩
  · exact ⟨rfl, .inr (.inr ⟨rest, hin⟩), .inr (.inr ⟨rest, hin⟩)⟩
  · obtain ⟨hcfg, hibuf, hepoch, hinLen⟩ := exec_start_sameInput (hc.imp And.right And.right) he
    exact ⟨hcfg, .inl ⟨hibuf, hepoch⟩, .inl hinLen⟩

/-! ### The host's accesses to the buffers (R61 to R63, R245) -/

theorem hostWriteIbuf_notBusy {s : State} {a : Nat} (v : Byte) (hb : s.status ≠ .busy)
    (ha : hasOffset s.cfg.inCap a = true) :
    hostWriteIbuf a v s = .next { s with ibuf := Memory.write s.ibuf a v } := by
  rw [hostWriteIbuf, if_neg hb, if_pos ha]

theorem ibufByte_writeIbuf_same (s : State) (a : Nat) (v : Byte) :
    ibufByte { s with ibuf := Memory.write s.ibuf a v } a = v := by
  rw [ibufByte, Memory.read?_write_same, Option.getD_some]

theorem ibufByte_writeIbuf_other (s : State) {a b : Nat} (v : Byte) (h : b ≠ a) :
    ibufByte { s with ibuf := Memory.write s.ibuf a v } b = ibufByte s b := by
  rw [ibufByte, Memory.read?_write_other _ _ h, ibufByte]

/-- Settles O34, by the laws of a buffer's write. -/
theorem hostLoadsInput : Obligations.HostLoadsInput := by
  intro s a v rest h hb ha
  have hw := hostWriteIbuf_notBusy (s := { s with inbox := rest }) v hb ha
  exact ⟨_, (step_pending h).trans hw, rfl, ibufByte_writeIbuf_same _ a v,
    fun _ hne => ibufByte_writeIbuf_other _ v hne, Memory.wf_write a v⟩

/-- In DONE a read of OBUF below OUT_LEN answers the byte there. -/
theorem hostReadObuf_done {s : State} {a : Nat} (hs : s.status = .done) (hlt : a < s.outLen)
    (ha : hasOffset s.cfg.outCap a = true) : hostReadObuf a s = .next (answer (obufByte s a).toNat s) := by
  have hb : s.status ≠ .busy := by simp [hs]
  rw [hostReadObuf, if_neg hb, if_pos ha, if_pos ⟨hs, hlt⟩]

/-- Settles O35: the pending read is the machine's next step, and it is the read of DONE. -/
theorem hostReadsResult : Obligations.HostReadsResult := by
  intro s a rest h hs hlt ha
  rw [step_pending h]
  exact hostReadObuf_done (s := { s with inbox := rest }) hs hlt ha

end Sys2Proof.Machine
end

section
/-! The encoding family: decoding an encoding, whatever follows it, gives the instruction back (R93 to R99, R103, R230), and the
header bytes of what decodes are its encoding (R100, R103, R110). -/

namespace Sys2Proof

/-! ### Decoding the encoded forms (R93 to R99), one equation each for what follows a tag byte -/

theorem decodeChunk_shortTag_literal {length : Nat} (h : length ≤ 63) (rest : List Byte) :
    decodeChunk (shortTag 0 length :: rest) = .ok (.litS length) := by
  obtain ⟨h7, h6, h5⟩ := bits_shortTag (Nat.zero_le 1) h
  rw [decodeChunk_litS rest h6 h7, h5]

theorem decodeChunk_shortTag_backRef {length : Nat} (h : length ≤ 63) (rest : List Byte) :
    decodeChunk (shortTag 1 length :: rest) =
      decodeDistance (fun d => .refS1 d length) (fun d => .refS2 d length) rest := by
  obtain ⟨h7, h6, h5⟩ := bits_shortTag (Nat.le_refl 1) h
  rw [decodeChunk_refS rest h6 h7, h5]

/-- The two length bytes of R101, read back as one number. -/
theorem bigEndian_byteOf {length : Nat} (h : length ≤ 65535) :
    bigEndian (byteOf (length / 256)).toNat (byteOf (length % 256)).toNat = length := by
  simp only [bigEndian, byteOf_toNat]
  omega

theorem decodeChunk_longTag_literal {length : Nat} (h : length ≤ 65535) (rest : List Byte) :
    decodeChunk (longTag 0 :: (longLengthBytes length ++ rest)) = .ok (.litL length) := by
  obtain ⟨h7, h6, h5⟩ := bits_longTag (Nat.zero_le 1)
  rw [longLengthBytes, List.cons_append, List.cons_append, List.nil_append, decodeChunk_litL _ _ rest h6 h5 h7,
    bigEndian_byteOf h]

theorem decodeChunk_longTag_backRef {length : Nat} (h : length ≤ 65535) (rest : List Byte) :
    decodeChunk (longTag 1 :: (longLengthBytes length ++ rest)) =
      decodeDistance (fun d => .refL1 d length) (fun d => .refL2 d length) rest := by
  obtain ⟨h7, h6, h5⟩ := bits_longTag (Nat.le_refl 1)
  rw [longLengthBytes, List.cons_append, List.cons_append, List.nil_append, decodeChunk_refL _ _ rest h6 h5 h7,
    bigEndian_byteOf h]

/-- The decoder of the stream is the chunk decoder where that answers an instruction. -/
theorem decode_stream_ok {bytes : List Byte} {i : Instr} (h : decodeChunk bytes = .ok i) :
    decode (.stream bytes) = .ok i := by
  rw [decode, h]

/-- Settles O1, by the nine forms: the tag's equation, then the distance's. -/
theorem decodeOfEncodeIsIdentity : Obligations.DecodeOfEncodeIsIdentity := by
  intro i rest hwf
  cases i <;> simp only [WellFormed, Bool.and_eq_true, shortLengthFits_iff, longLengthFits_iff, shortDistanceFits_iff,
    longDistanceFits_iff] at hwf
  case litS length => exact decode_stream_ok (decodeChunk_shortTag_literal hwf rest)
  case litL length => exact decode_stream_ok (decodeChunk_longTag_literal hwf rest)
  case refS1 distance length =>
    obtain ⟨hd, hl⟩ := hwf
    exact decode_stream_ok ((decodeChunk_shortTag_backRef hl _).trans (decodeDistance_short hd _ _ rest))
  case refS2 distance length =>
    obtain ⟨hd, hl⟩ := hwf
    exact decode_stream_ok ((decodeChunk_shortTag_backRef hl _).trans (decodeDistance_long hd _ _ rest))
  case refL1 distance length =>
    obtain ⟨hd, hl⟩ := hwf
    exact decode_stream_ok ((decodeChunk_longTag_backRef hl _).trans (decodeDistance_short hd _ _ rest))
  case refL2 distance length =>
    obtain ⟨hd, hl⟩ := hwf
    exact decode_stream_ok ((decodeChunk_longTag_backRef hl _).trans (decodeDistance_long hd _ _ rest))
  case nop => rfl
  case compress => rfl
  case decompress => rfl

/-! ### Encoding the decoded fields (R110): each part of a header is spelled by the bytes it was read from -/

/-- A byte is spelled by any number that its value is. -/
theorem byteOf_eq {v : Nat} {b : Byte} (h : v = b.toNat) : byteOf v = b := by
  rw [h, byteOf_eq_of_toNat]

theorem shortTag_of_bits {t : Byte} {v : Nat} (h6 : bits t 6 6 = 0) (h7 : bits t 7 7 = v) :
    shortTag v (bits t 5 0) = t := by
  have := byte_eq_of_bits t
  exact byteOf_eq (by omega)

theorem longTag_of_bits {t : Byte} {v : Nat} (h6 : bits t 6 6 = 1) (h5 : bits t 5 0 = 0) (h7 : bits t 7 7 = v) :
    longTag v = t := by
  have := byte_eq_of_bits t
  exact byteOf_eq (by omega)

theorem longLengthBytes_of_bytes (hi lo : Byte) : longLengthBytes (bigEndian hi.toNat lo.toNat) = [hi, lo] := by
  have := byte_lt lo
  rw [longLengthBytes, bigEndian, byteOf_eq (b := hi) (by omega), byteOf_eq (b := lo) (by omega)]

theorem shortDistanceBytes_of_bits {e : Byte} (h7 : bits e 7 7 = 0) : shortDistanceBytes (bits e 6 0) = [e] := by
  have := byte_eq_of_flag e
  rw [shortDistanceBytes, byteOf_eq (b := e) (by omega)]

theorem longDistanceBytes_of_bits {e : Byte} (d : Byte) (h7 : bits e 7 7 = 1) :
    longDistanceBytes (bigEndian (bits e 6 0) d.toNat) = [e, d] := by
  have := byte_eq_of_flag e
  have := byte_lt d
  rw [longDistanceBytes, bigEndian, byteOf_eq (b := e) (by omega), byteOf_eq (b := d) (by omega)]

/-! ### The decoded fields fit their forms (R100 to R102) -/

theorem bigEndian_le_lenFieldMax (hi lo : Byte) : bigEndian hi.toNat lo.toNat ≤ 65535 := by
  have := byte_lt hi
  have := byte_lt lo
  rw [bigEndian]
  omega

theorem bigEndian_le_distFieldMax (e d : Byte) : bigEndian (bits e 6 0) d.toNat ≤ 32767 := by
  have := bits_6_0_le e
  have := byte_lt d
  rw [bigEndian]
  omega

theorem wellFormed_of_decodeChunk {bytes : List Byte} {i : Instr} (h : decodeChunk bytes = .ok i) :
    WellFormed i = true := by
  rcases decodeChunk_ok h with ⟨_, _, -, -, -, rfl⟩ | ⟨_, _, _, -, -, -, -, rfl⟩ | ⟨_, _, _, _, -, -, -, -, rfl⟩ |
    ⟨_, _, _, _, -, -, -, -, rfl⟩ | ⟨_, _, _, _, _, -, -, -, -, -, rfl⟩ | ⟨_, _, _, _, _, _, -, -, -, -, -, rfl⟩ <;>
  simp [WellFormed, bits_5_0_le, bits_6_0_le, bigEndian_le_lenFieldMax, bigEndian_le_distFieldMax]

/-- What the decoder read is spelled by the header bytes it was read from, form by form. -/
theorem encode_of_decodeChunk {bytes : List Byte} {i : Instr} (h : decodeChunk bytes = .ok i) :
    encode i = .stream (bytes.take i.headerSize) := by
  rcases decodeChunk_ok h with ⟨t, rest, rfl, h6, h7, rfl⟩ | ⟨t, e, rest, rfl, h6, h7, he, rfl⟩ |
    ⟨t, e, d, rest, rfl, h6, h7, he, rfl⟩ | ⟨t, hi, lo, rest, rfl, h6, h5, h7, rfl⟩ |
    ⟨t, hi, lo, e, rest, rfl, h6, h5, h7, he, rfl⟩ | ⟨t, hi, lo, e, d, rest, rfl, h6, h5, h7, he, rfl⟩
  · rw [encode, shortTag_of_bits h6 h7]
    rfl
  · rw [encode, shortTag_of_bits h6 h7, shortDistanceBytes_of_bits he]
    rfl
  · rw [encode, shortTag_of_bits h6 h7, longDistanceBytes_of_bits d he]
    rfl
  · rw [encode, longTag_of_bits h6 h5 h7, longLengthBytes_of_bytes]
    rfl
  · rw [encode, longTag_of_bits h6 h5 h7, longLengthBytes_of_bytes, shortDistanceBytes_of_bits he]
    rfl
  · rw [encode, longTag_of_bits h6 h5 h7, longLengthBytes_of_bytes, longDistanceBytes_of_bits d he]
    rfl

/-- Settles O2: the fields fit, the header lies within the bytes, and its bytes are the encoding. -/
theorem decodedHeaderIsItsEncoding : Obligations.DecodedHeaderIsItsEncoding := by
  intro bytes i h
  obtain ⟨-, hsize, -⟩ := decodeChunk_headerSize h
  exact ⟨wellFormed_of_decodeChunk h, hsize, encode_of_decodeChunk h⟩

/-! ### The written-out words (R93 to R99, R230) -/

/-- Settles O3: the decoder computes each of the nine. -/
theorem writtenOutWordsDecode : Obligations.WrittenOutWordsDecode :=
  ⟨rfl, rfl, rfl, rfl, rfl, rfl, rfl, rfl, rfl⟩

end Sys2Proof
end

section
/-! The chunk codec family: the range Encode checks (R127), the minimal form it spells and its size (R122, R128), and
decoding it back (R139). -/

namespace Sys2Proof.Machine

/-! ### What Encode accepts (R127) -/

theorem encodeValue_backRef_error_iff {distance length : Nat} :
    encodeValue (.backRef distance length) = .error .encodingRange ↔
      (distance = 0 ∨ distance > 32767 ∨ length > 65535) := by
  refine ⟨fun h => ?_, fun h => if_pos h⟩
  by_contra hr
  simp [encodeValue_backRef (distance := distance) (length := length) (by omega) (by omega) (by omega)] at h

theorem encodeValue_literal_error_iff {bytes : List Byte} :
    encodeValue (.literal bytes) = .error .encodingRange ↔ bytes.length > 65535 := by
  refine ⟨fun h => ?_, fun h => if_pos h⟩
  by_contra hr
  simp [encodeValue_literal (Nat.le_of_not_lt hr)] at h

/-- Settles O4: the two range tests, and the one cause. -/
theorem encodeChecksItsRange : Obligations.EncodeChecksItsRange :=
  ⟨fun _ _ => encodeValue_backRef_error_iff, fun _ => encodeValue_literal_error_iff, fun _ _ => encodeValue_error⟩

/-- An accepted literal is in range; its bytes are the tag, the length bytes and the literal. -/
theorem encodeValue_literal_ok {bytes spelled : List Byte} (h : encodeValue (.literal bytes) = .ok spelled) :
    bytes.length ≤ 65535 ∧ spelled = encLen 0 bytes.length ++ bytes := by
  have hr : bytes.length ≤ 65535 := by
    by_contra hr
    simp [encodeValue_literal_error_iff.2 (Nat.lt_of_not_le hr)] at h
  rw [encodeValue_literal hr, Except.ok.injEq] at h
  exact ⟨hr, h.symm⟩

/-- An accepted back-reference is in range; its bytes are the tag, the length bytes and the distance bytes. -/
theorem encodeValue_backRef_ok {distance length : Nat} {spelled : List Byte}
    (h : encodeValue (.backRef distance length) = .ok spelled) :
    distance ≤ 32767 ∧ length ≤ 65535 ∧ spelled = encLen 1 length ++ encDist distance := by
  have hr : 1 ≤ distance ∧ distance ≤ 32767 ∧ length ≤ 65535 := by
    by_contra hr
    have he : encodeValue (.backRef distance length) = .error .encodingRange :=
      encodeValue_backRef_error_iff.2 (by omega)
    simp [he] at h
  obtain ⟨h1, hd, hl⟩ := hr
  rw [encodeValue_backRef h1 hd hl, Except.ok.injEq] at h
  exact ⟨hd, hl, h.symm⟩

/-! ### Encode spells the minimal form (R122 to R126) -/

/-- The form that R123 and R126 choose for a chunk value: the shortest that holds its fields. -/
def chunkForm : ChunkValue → Instr
  | .literal bytes => if bytes.length ≤ 63 then .litS bytes.length else .litL bytes.length
  | .backRef distance length =>
    if length ≤ 63 then (if distance ≤ 127 then .refS1 distance length else .refS2 distance length)
    else (if distance ≤ 127 then .refL1 distance length else .refL2 distance length)

/-- What follows the header of a chunk value: a literal's bytes, nothing for a back-reference (R124, R125). -/
def chunkPayload : ChunkValue → List Byte
  | .literal bytes => bytes
  | .backRef _ _ => []

theorem minimalForm_chunkForm (c : ChunkValue) : minimalForm (chunkForm c) = true := by
  cases c with
  | literal bytes =>
    simp only [chunkForm]
    split <;> simp only [minimalForm, decide_eq_true_eq]
    omega
  | backRef distance length =>
    simp only [chunkForm]
    split <;> split <;> simp only [minimalForm, Bool.and_eq_true, decide_eq_true_eq] <;> omega

theorem payloadSize_chunkForm (c : ChunkValue) : (chunkForm c).payloadSize = (chunkPayload c).length := by
  cases c with
  | literal bytes => simp only [chunkForm]; split <;> rfl
  | backRef distance length => simp only [chunkForm]; split <;> split <;> rfl

theorem headerSize_chunkForm_literal (bytes : List Byte) :
    (chunkForm (.literal bytes)).headerSize = if bytes.length ≤ 63 then 1 else 3 := by
  simp only [chunkForm]; split <;> rfl

theorem headerSize_chunkForm_backRef (distance length : Nat) :
    (chunkForm (.backRef distance length)).headerSize =
      if length ≤ 63 then (if distance ≤ 127 then 2 else 3) else (if distance ≤ 127 then 4 else 5) := by
  simp only [chunkForm]; split <;> split <;> rfl

theorem chunkFields_chunkForm_literal (bytes : List Byte) :
    chunkFields (chunkForm (.literal bytes)) = some (.literal, bytes.length, 0) := by
  simp only [chunkForm]; split <;> rfl

theorem chunkFields_chunkForm_backRef (distance length : Nat) :
    chunkFields (chunkForm (.backRef distance length)) = some (.backRef, length, distance) := by
  simp only [chunkForm]; split <;> split <;> rfl

theorem wellFormed_chunkForm_literal {bytes : List Byte} (h : bytes.length ≤ 65535) :
    WellFormed (chunkForm (.literal bytes)) = true := by
  simp only [chunkForm]; split <;> simp [WellFormed, *]

theorem wellFormed_chunkForm_backRef {distance length : Nat} (hd : distance ≤ 32767) (hl : length ≤ 65535) :
    WellFormed (chunkForm (.backRef distance length)) = true := by
  simp only [chunkForm]; split <;> split <;> simp [WellFormed, *]

theorem encode_chunkForm_literal (bytes : List Byte) :
    encode (chunkForm (.literal bytes)) = .stream (encLen 0 bytes.length) := by
  simp only [chunkForm, encLen]; split <;> rfl

theorem encode_chunkForm_backRef (distance length : Nat) :
    encode (chunkForm (.backRef distance length)) = .stream (encLen 1 length ++ encDist distance) := by
  simp only [chunkForm, encLen, encDist, ← Nat.lt_succ_iff (n := 127)]; split <;> split <;> rfl

/-- Encode is the header of the chosen form, then the payload. -/
theorem encodeValue_ok {c : ChunkValue} {spelled : List Byte} (h : encodeValue c = .ok spelled) :
    WellFormed (chunkForm c) = true ∧
      ∃ header, encode (chunkForm c) = .stream header ∧ spelled = header ++ chunkPayload c := by
  cases c with
  | literal bytes =>
    obtain ⟨hl, hs⟩ := encodeValue_literal_ok h
    exact ⟨wellFormed_chunkForm_literal hl, _, encode_chunkForm_literal bytes, hs⟩
  | backRef distance length =>
    obtain ⟨hd, hl, hs⟩ := encodeValue_backRef_ok h
    exact ⟨wellFormed_chunkForm_backRef hd hl, _, encode_chunkForm_backRef distance length,
      hs.trans (List.append_nil _).symm⟩

/-! ### Decoding a spelling, minimal or not (R139) -/

/-- O1 for the stream alone. -/
theorem decodeChunk_of_encode {i : Instr} {header : List Byte} (hwf : WellFormed i = true)
    (he : encode i = .stream header) (rest : List Byte) : decodeChunk (header ++ rest) = .ok i := by
  have h := decodeOfEncodeIsIdentity i rest hwf
  rw [he, Encoding.followedBy, decode] at h
  cases hd : decodeChunk (header ++ rest) with
  | error c => simp [hd] at h
  | ok j => simpa [hd] using h

/-- A header is as long as its form says (R100). -/
theorem length_of_encode {i : Instr} {header : List Byte} (hwf : WellFormed i = true)
    (he : encode i = .stream header) : header.length = i.headerSize := by
  obtain ⟨-, hle, htake⟩ := decodedHeaderIsItsEncoding _ _ (decodeChunk_of_encode hwf he [])
  rw [he, List.append_nil, Encoding.stream.injEq] at htake
  rw [List.append_nil] at hle
  rw [htake, List.length_take_of_le hle]

theorem decodeChunk_of_encodeValue {c : ChunkValue} {spelled : List Byte} (h : encodeValue c = .ok spelled)
    (rest : List Byte) : decodeChunk (spelled ++ rest) = .ok (chunkForm c) := by
  obtain ⟨hwf, header, he, rfl⟩ := encodeValue_ok h
  rw [List.append_assoc]
  exact decodeChunk_of_encode hwf he _

theorem minimalForm_of_encodeValue {c : ChunkValue} {spelled : List Byte} {i : Instr} (h : encodeValue c = .ok spelled)
    (hi : decodeChunk spelled = .ok i) : minimalForm i = true := by
  have hc := decodeChunk_of_encodeValue h []
  rw [List.append_nil, hi, Except.ok.injEq] at hc
  rw [hc]
  exact minimalForm_chunkForm c

theorem length_of_encodeValue {c : ChunkValue} {spelled : List Byte} (h : encodeValue c = .ok spelled) :
    spelled.length = (chunkForm c).headerSize + (chunkForm c).payloadSize := by
  obtain ⟨hwf, header, he, rfl⟩ := encodeValue_ok h
  rw [List.length_append, length_of_encode hwf he, payloadSize_chunkForm]

/-- The payload range of a spelling, whatever follows it, holds the payload. -/
theorem payload_of_encodeValue {c : ChunkValue} {spelled : List Byte} (h : encodeValue c = .ok spelled)
    (rest : List Byte) :
    ((spelled ++ rest).drop (chunkForm c).headerSize).take (chunkForm c).payloadSize = chunkPayload c := by
  obtain ⟨hwf, header, he, rfl⟩ := encodeValue_ok h
  rw [List.append_assoc, ← length_of_encode hwf he, List.drop_left, payloadSize_chunkForm, List.take_left]

/-- Settles O5: a spelling decodes to the value's own form, which is minimal, so a non-minimal spelling is no value's; the
three bytes of an empty LIT.L are such a one. -/
theorem decodeOfEncodedValueReportsIt : Obligations.DecodeOfEncodedValueReportsIt := by
  refine ⟨fun c spelled rest h => ?_, fun i header payload hwf hmin he _ => ?_, [0x40, 0, 0], .litL 0, rfl, rfl, rfl⟩
  · refine ⟨chunkForm c, decodeChunk_of_encodeValue h rest, (length_of_encodeValue h).symm, ?_⟩
    cases c with
    | literal bytes => exact ⟨chunkFields_chunkForm_literal bytes, payload_of_encodeValue h rest⟩
    | backRef distance length => exact chunkFields_chunkForm_backRef distance length
  · have hd := decodeChunk_of_encode hwf he payload
    refine ⟨hd, fun c hc => ?_⟩
    simp [minimalForm_of_encodeValue hc hd] at hmin

/-- Settles O7: the length is the header size of the value's form and the payload. -/
theorem encodedSizes : Obligations.EncodedSizes := by
  refine ⟨fun b spelled h => ?_, fun d l spelled h => ?_⟩
  · rw [length_of_encodeValue h, headerSize_chunkForm_literal, payloadSize_chunkForm, chunkPayload, ite_add]
  · rw [length_of_encodeValue h, headerSize_chunkForm_backRef, payloadSize_chunkForm, chunkPayload, List.length_nil,
      Nat.add_zero]

/-! ### Reserved tag bytes (R131) -/

theorem reservedTagByte_iff {t : Byte} : reservedTagByte t = true ↔ bits t 6 6 = 1 ∧ bits t 5 0 ≠ 0 := by
  simp [reservedTagByte]

/-- What decodes begins with a tag byte that is not reserved. -/
theorem decodeChunk_ok_tag {bytes : List Byte} {i : Instr} (h : decodeChunk bytes = .ok i) :
    ∃ tag tail, bytes = tag :: tail ∧ reservedTagByte tag = false := by
  cases bytes with
  | nil => simp [decodeChunk] at h
  | cons tag tail =>
    refine ⟨tag, tail, rfl, Bool.eq_false_iff.2 fun ht => ?_⟩
    obtain ⟨h6, h5⟩ := reservedTagByte_iff.1 ht
    simp [decodeChunk_reserved tail h6 h5] at h

/-- Settles O6: the spelling decodes, so its tag is not reserved, and to the value's minimal form. -/
theorem encodeIsMinimal : Obligations.EncodeIsMinimal := by
  intro c spelled h
  have hd := decodeChunk_of_encodeValue h []
  rw [List.append_nil] at hd
  exact ⟨decodeChunk_ok_tag hd, fun _ hi => minimalForm_of_encodeValue h hi⟩

end Sys2Proof.Machine
end

section
/-! The headers a chunk step meets at RP: reserved, truncated, or decoded (R131, R135, R136). -/

namespace Sys2Proof.Machine

/-! ### A chunk step whose header does not decode -/

/-- Where the decompressor has the turn before RP = N, the step is a chunk step (R207). -/
theorem step_of_atChunk {s u : State} (ht : EngineHasTurn s u) (hu : u.atChunk) : step s = decompStep u := by
  obtain ⟨hb, hm, hlt⟩ := hu
  rw [step_of_turn ht, engineTurn_decompressing hb hm, decompressorTurn, if_pos hlt]

/-- A header that the decoder rejects is error entry with its cause at the tag's offset (R260). -/
theorem step_rejects {s u : State} {c : Cause} (ht : EngineHasTurn s u) (hu : u.atChunk)
    (hd : decodeChunk (ibufSlice u u.rp (u.n - u.rp)) = .error c) :
    ∃ t, step s = .next t ∧ ErrorEntered c u.rp u t := by
  rw [step_of_atChunk ht hu]
  rcases decompStep_stream u with ⟨c', hd', he⟩ | ⟨i, hd', -⟩
  · obtain rfl : c' = c := by simpa [hd'] using hd
    exact ⟨_, he, errorEntry_entered c' u.rp u⟩
  · simp [hd'] at hd

/-- The stream at RP, below N, is the tag byte and what follows it. -/
theorem stream_at_tag {s : State} (h : s.rp < s.n) :
    ibufSlice s s.rp (s.n - s.rp) = ibufByte s s.rp :: ibufSlice s (s.rp + 1) (s.n - (s.rp + 1)) := by
  rw [← ibufSlice_succ]
  congr 1
  omega

/-- Settles O18: the decoder rejects the tag before it looks at what follows. -/
theorem reservedTagEndsTheOperation : Obligations.ReservedTagEndsTheOperation := by
  intro s u ht hu hres
  obtain ⟨h6, h5⟩ := reservedTagByte_iff.1 hres
  have ⟨_, _, hrp⟩ := hu
  refine step_rejects ht hu ?_
  rw [stream_at_tag hrp]
  exact decodeChunk_reserved _ h6 h5

/-! ### When a header is truncated (R135, R136) -/

/-- R136: the first distance byte at `a`, or the second one it calls for, is at or beyond `n`. -/
def DistanceTruncated (s : State) (a : Nat) : Prop :=
  a + 1 > s.n ∨ (bits (ibufByte s a) 7 7 = 1 ∧ a + 2 > s.n)

/-- R135, R136: a length or distance byte that the header at RP calls for is at or beyond N. -/
def HeaderTruncated (s : State) : Prop :=
  (bits (ibufByte s s.rp) 6 6 = 1 ∧ s.rp + 3 > s.n) ∨
    (bits (ibufByte s s.rp) 7 7 = 1 ∧ DistanceTruncated s (s.rp + 1 + lengthBytes (ibufByte s s.rp)))

/-- The decoder of a distance fails exactly where it is truncated. -/
theorem decodeDistance_error_iff (s : State) (a : Nat) (one two : Nat → Instr) (c : Cause) :
    decodeDistance one two (ibufSlice s a (s.n - a)) = .error c ↔ c = .truncHeader ∧ DistanceTruncated s a := by
  unfold DistanceTruncated
  match hc : s.n - a with
  | 0 =>
    have h1 : a + 1 > s.n := by omega
    simp [ibufSlice, decodeDistance, h1, eq_comm]
  | 1 =>
    have h1 : ¬ a + 1 > s.n := by omega
    have h2 : a + 2 > s.n := by omega
    by_cases he : bits (ibufByte s a) 7 7 = 1 <;> simp [ibufSlice, decodeDistance, h1, h2, he, @eq_comm _ _ c]
  | rest + 2 =>
    have h1 : ¬ a + 1 > s.n := by omega
    have h2 : ¬ a + 2 > s.n := by omega
    rw [ibufSlice_succ, ibufSlice_succ, decodeDistance]
    split <;> simp [h1, h2]

/-- A short form has no length bytes, a long form two (R92). -/
theorem lengthBytes_short {t : Byte} (h6 : bits t 6 6 = 0) : lengthBytes t = 0 := by simp [lengthBytes, h6]
theorem lengthBytes_long {t : Byte} (h6 : bits t 6 6 = 1) : lengthBytes t = 2 := by simp [lengthBytes, h6]

/-- After a tag byte that is not reserved the decoder fails exactly where the header is truncated. -/
theorem decodeChunk_error_iff {s : State} (hrp : s.rp < s.n) (hres : reservedTagByte (ibufByte s s.rp) = false)
    (c : Cause) :
    decodeChunk (ibufSlice s s.rp (s.n - s.rp)) = .error c ↔ c = .truncHeader ∧ HeaderTruncated s := by
  have h6le := bits_6_6_le (ibufByte s s.rp)
  have h7le := bits_7_7_le (ibufByte s s.rp)
  rw [stream_at_tag hrp, HeaderTruncated]
  by_cases h6 : bits (ibufByte s s.rp) 6 6 = 1
  · have h5 : bits (ibufByte s s.rp) 5 0 = 0 := by simpa [reservedTagByte, h6] using hres
    rw [lengthBytes_long h6]
    by_cases hlen : s.rp + 3 > s.n
    · have hshort : (ibufSlice s (s.rp + 1) (s.n - (s.rp + 1))).length < 2 := by
        rw [ibufSlice_length]
        omega
      simp [decodeChunk_shortLong h6 h5 hshort, h6, hlen, eq_comm]
    · have hsplit : s.n - (s.rp + 1) = s.n - (s.rp + 1 + 2) + 1 + 1 := by omega
      rw [hsplit, ibufSlice_succ, ibufSlice_succ]
      by_cases h7 : bits (ibufByte s s.rp) 7 7 = 1
      · rw [decodeChunk_refL _ _ _ h6 h5 h7, decodeDistance_error_iff]
        simp [h7, hlen]
      · simp [decodeChunk_litL _ _ _ h6 h5 (by omega), h7, hlen]
  · have h6' : bits (ibufByte s s.rp) 6 6 = 0 := by omega
    rw [lengthBytes_short h6', Nat.add_zero]
    by_cases h7 : bits (ibufByte s s.rp) 7 7 = 1
    · rw [decodeChunk_refS _ h6' h7, decodeDistance_error_iff]
      simp [h6', h7]
    · simp [decodeChunk_litS _ h6' (by omega), h6', h7]

/-- Settles O19: the decoder reports the truncation, and the step enters the error. -/
theorem truncatedHeaderEndsTheOperation : Obligations.TruncatedHeaderEndsTheOperation := by
  intro s u ht hu hres htr
  have ⟨_, _, hrp⟩ := hu
  exact step_rejects ht hu ((decodeChunk_error_iff hrp hres _).2 ⟨rfl, htr⟩)

/-- Settles O20: the decoder fails only on a truncated header, and each of its truncations is excluded. -/
theorem wholeHeaderDecodes : Obligations.WholeHeaderDecodes := by
  intro s hrp hres hlen hdist
  cases hd : decodeChunk (ibufSlice s s.rp (s.n - s.rp)) with
  | ok i => exact ⟨i, rfl⟩
  | error c =>
    exfalso
    obtain ⟨-, ⟨h6, htr⟩ | ⟨h7, htr | ⟨he, htr⟩⟩⟩ := (decodeChunk_error_iff hrp hres c).1 hd
    · rw [lengthBytes_long h6] at hlen
      omega
    · exact Nat.not_le_of_lt htr (hdist h7).1
    · exact Nat.not_le_of_lt htr ((hdist h7).2 he)

end Sys2Proof.Machine
end

section
/-! The compressor family, its steps: what the matcher finds (R155, R157), the next state of an iteration and of the finish
(R161 to R166), the errors of COMPRESS (R171), the cursor's advance (R168, R210). -/

namespace Sys2Proof.Machine

/-! ### The matcher (R155, R157) -/

/-- Settles O22: the laws of the match extension, started at length 0. -/
theorem matchLenIsCommonPrefix : Obligations.MatchLenIsCommonPrefix := by
  intro input n p i _ hi
  have hend : i + matchLen input n p i ≤ n := extendMatch_le_end input n p i _ 0 (Nat.le_of_lt hi)
  refine ⟨matchLen_le_maxLen input n p i, hend, fun j hj => extendMatch_agrees input n p i _ 0 (Nat.zero_le j) hj, ?_⟩
  rcases extendMatch_stops input n p i Config.maxLen 0 with h | h | h
  · exact .inl (h.trans (Nat.zero_add _))
  · exact .inr (.inl (Nat.le_antisymm hend h))
  · exact .inr (.inr h)

/-- R152: the guarded subtraction is the truncated one. -/
theorem windowStart_eq (i : Nat) : windowStart i = i - 32767 := by
  unfold windowStart Config.maxDist
  split <;> omega

/-- Settles O23: the scan over the window, started with no match. -/
theorem findMatchIsFirstLongest : Obligations.FindMatchIsFirstLongest := by
  intro input n i _ _
  have hw := windowStart_eq i
  have hle := windowStart_le i
  unfold findMatch
  rcases scanWindow_cases input n i (i - windowStart i) (windowStart i)
    { p := windowStart i, len := 0, bestLen := 0, bestDist := 0 } with
    ⟨hlen, hdist, hmax⟩ | ⟨q, hq, hqi, hpos, hlen, hdist, hfirst, hmax⟩
  · rw [hlen, hdist]
    exact ⟨fun p hp hpi => hmax p (by omega) (by omega), fun _ => rfl, fun h => absurd h (Nat.not_succ_le_zero 0)⟩
  · rw [hlen, hdist]
    exact ⟨fun p hp hpi => hmax p (by omega) (by omega), fun h0 => absurd h0 (Nat.ne_of_gt hpos),
      fun _ => ⟨q, by omega, by omega, rfl, rfl, fun p hp hpq => hfirst p (by omega) hpq⟩⟩

/-! ### Appended output (R65) -/

/-- `t` is `s` with `vs` appended to the output; nothing is said of the other registers. -/
structure Appended (vs : List Byte) (s t : State) : Prop where
  obuf : t.obuf = (outAppendSeq vs s).obuf
  epoch : t.epoch = s.epoch
  outLen : t.outLen = s.outLen + vs.length

namespace Appended

variable {vs : List Byte} {s t : State}

theorem byte (h : Appended vs s t) (a : Nat) : obufByte t a = obufByte (outAppendSeq vs s) a :=
  obufByte_congr h.obuf (h.epoch.trans (outAppendSeq_keeps vs s).epoch.symm) a

theorem slice (h : Appended vs s t) : obufSlice t s.outLen vs.length = vs :=
  (obufSlice_congr fun _ _ => h.byte _).trans (obufSlice_outAppendSeq vs s)

theorem outside (h : Appended vs s t) {a : Nat} (ha : a < s.outLen ∨ s.outLen + vs.length ≤ a) :
    obufByte t a = obufByte s a :=
  (h.byte a).trans (obufByte_outAppendSeq_outside vs s ha)

theorem result (h : Appended vs s t) : t.result = s.result ++ vs := by
  rw [State.result, h.outLen, obufSlice_congr fun _ _ => h.byte _]
  exact result_outAppendSeq vs s

end Appended

/-! ### The next states of the compressor (R161 to R166) -/

/-- R160, R164: the fields that a match step changes. -/
theorem afterMatch_eq (s : State) :
    afterMatch s = { searchStep s with
      acc := [], accLen := 0, i := s.i + s.search.bestLen, outLen := s.outLen + (matchBytes s).length
      obuf := (outAppendSeq (matchBytes s) s).obuf } := by
  rw [afterMatch, outAppendSeq_eq, outAppendSeq_eq]
  rfl

/-- R162, R163: the fields that a size flush changes. -/
theorem afterFlush_eq (s : State) :
    afterFlush s = { searchStep s with
      acc := [], accLen := 0, i := s.i + 1, outLen := s.outLen + (literalBytes (s.acc ++ [ibufByte s s.i])).length
      obuf := (outAppendSeq (literalBytes (s.acc ++ [ibufByte s s.i])) s).obuf } := by
  rw [afterFlush, outAppendSeq_eq, outAppendSeq_eq]
  rfl

/-- R166: the fields that the finish changes. -/
theorem afterFinish_eq (s : State) :
    afterFinish s = { s with
      acc := [], accLen := 0, outLen := s.outLen + (literalBytes s.acc).length, mode := .none, status := .done
      obuf := (outAppendSeq (literalBytes s.acc) s).obuf } := by
  rw [afterFinish, outAppendSeq_eq]
  rfl

theorem afterMatch_appended (s : State) : Appended (matchBytes s) s (afterMatch s) := by
  rw [afterMatch_eq]
  exact ⟨rfl, rfl, rfl⟩

theorem afterFlush_appended (s : State) :
    Appended (literalBytes (s.acc ++ [ibufByte s s.i])) s (afterFlush s) := by
  rw [afterFlush_eq]
  exact ⟨rfl, rfl, rfl⟩

theorem afterFinish_appended (s : State) : Appended (literalBytes s.acc) s (afterFinish s) := by
  rw [afterFinish_eq]
  exact ⟨rfl, rfl, rfl⟩

/-! ### One iteration, one finish (R161 to R166) -/

/-- Where the compressor is about to iterate, the step is an iteration. -/
theorem step_of_atIteration {s : State} (h : s.atIteration) : step s = (compStep s).outcome := by
  obtain ⟨hb, hm, hin, -, hi⟩ := h
  rw [step_engine hin, engineTurn_compressing hb hm, compressorTurn, if_pos hi]

/-- Settles O24: the iteration is the search and the literal step. -/
theorem literalStepEffect : Obligations.LiteralStepEffect := by
  intro s hs hq hl
  refine ⟨literalStep (searchStep s), ?_, rfl⟩
  rw [step_of_atIteration hs, compStep_literal s hq hl]
  rfl

/-- The chunk of a full accumulator (R124): a long-form literal of 65535 bytes. -/
theorem literalBytes_full {acc : List Byte} (h : acc.length = 65535) : literalBytes acc = [0x40, 0xFF, 0xFF] ++ acc := by
  rw [literalBytes, if_neg (by omega), h]
  rfl

/-- Settles O25: the iteration fills the accumulator and its chunk is appended. -/
theorem sizeFlushEffect : Obligations.SizeFlushEffect := by
  intro s hs hq hfull hl hc
  have hlen := literalBytes_length_full (acc := s.acc) (ibufByte s s.i) (by omega)
  rw [hl] at hlen
  have happ := afterFlush_appended s
  have hslice := happ.slice
  rw [hlen, literalBytes_full (by simp; omega)] at hslice
  refine ⟨afterFlush s, ?_, ?_, hslice.trans (List.append_assoc _ _ _).symm, fun a ha => happ.outside (by rwa [hlen])⟩
  · rw [step_of_atIteration hs]
    rcases compStep_flush s hq hfull hl with ⟨hc', -⟩ | ⟨-, he⟩
    · exact absurd (hc.symm.trans hc') (by decide)
    · rw [he]
      rfl
  · rw [afterFlush_eq, hlen]
    rfl

/-- Settles O26: both chunks are appended as one run of bytes. -/
theorem matchStepEffect : Obligations.MatchStepEffect := by
  intro s hs hq hl hshort spelled hc
  have happ := afterMatch_appended s
  refine ⟨afterMatch s, ?_, ?_, happ.slice, fun a ha => happ.outside ha⟩
  · rw [step_of_atIteration hs]
    obtain ⟨-, -, -, -, hi⟩ := hs
    rcases compStep_match s hi hq hl hshort with ⟨hc', -⟩ | ⟨-, he⟩
    · exact absurd (hc.symm.trans hc') (by decide)
    · rw [he]
      rfl
  · rw [afterMatch_eq]
    rfl

/-- Settles O29: the accumulator's chunk is appended and the operation ends. -/
theorem compressFinishes : Obligations.CompressFinishes := by
  intro s hb hm hin hi hl hshort hc
  have happ := afterFinish_appended s
  refine ⟨afterFinish s, ?_, ?_, happ.slice, fun a ha => happ.outside ha⟩
  · rw [step_engine hin, engineTurn_compressing hb hm, compressorTurn, if_neg (by omega)]
    rcases compFinish_cases s hl hshort with ⟨hc', -⟩ | ⟨-, he⟩
    · exact absurd (hc.symm.trans hc') (by decide)
    · rw [he]
      rfl
  · rw [afterFinish_eq]

/-! ### The errors of COMPRESS (R171) -/

/-- Settles O30: an iteration or a finish leaves ERR alone or overflows; a start clears it or ends with one of its two. -/
theorem compressErrors : Obligations.CompressErrors := by
  refine ⟨fun s t h hb hm ht => ?_, fun s t hb ht => ?_⟩
  · have herr : s.err = .none := by
      by_contra he
      have := h.coherent.errStatus.2 he
      simp [hb] at this
    rw [engineTurn_compressing hb hm] at ht
    rcases compressorTurn_cases (h.compressing hm) with ⟨-, -, -, he⟩ | ⟨-, -, -, he⟩ | ⟨-, -, -, -, he⟩ | ⟨-, -, he⟩ |
      ⟨u, -, -, he⟩
    all_goals
      rw [he, Host.Outcome.next.injEq] at ht
      subst ht
    · rw [afterMatch_eq]; exact .inl herr
    · exact .inl herr
    · rw [afterFlush_eq]; exact .inl herr
    · rw [afterFinish_eq]; exact .inl herr
    · exact .inr rfl
  · rw [exec_compress_notBusy hb, Host.Outcome.next.injEq] at ht
    subst ht
    split
    · exact .inr (.inr rfl)
    · split
      · exact .inr (.inl rfl)
      · exact .inl rfl

/-! ### The cursor (R168, R210) -/

/-- An engine's turn that does not end the operation keeps all that `Keeps` says. -/
theorem keeps_of_busy {s t : State} (h : engineTurn s = .next t) (hb : t.status = .busy) : Keeps s t := by
  rcases engineTurn_cases h with ⟨-, rfl⟩ | ⟨-, hk | ⟨c, pos, u, -, rfl⟩ | ⟨u, -, rfl⟩⟩
  · exact Keeps.refl t
  · exact hk
  · simp at hb
  · simp at hb

/-- In a running operation the cursor is at most N. -/
theorem State.Inv.cursor_le {s : State} (h : s.Inv) : s.cursor ≤ s.n := by
  rw [State.cursor]
  split
  · next hm => exact (h.compressing hm).iLe
  · next hm => exact (h.decompressing hm).rpLe
  · exact Nat.zero_le _

/-- A compressor's turn that does not end the operation moves I up. -/
theorem compressorTurn_advances {s t : State} (h : s.AtLoopHead) (ht : compressorTurn s = .next t)
    (hb : t.status = .busy) : s.i < t.i := by
  rcases compressorTurn_cases h with ⟨-, hq, -, he⟩ | ⟨-, -, -, he⟩ | ⟨-, -, -, -, he⟩ | ⟨-, -, he⟩ | ⟨u, -, -, he⟩
  all_goals
    rw [he, Host.Outcome.next.injEq] at ht
    subst ht
  · rw [afterMatch_eq]
    exact Nat.lt_add_of_pos_right (Nat.lt_of_lt_of_le (by decide) hq)
  · exact Nat.lt_succ_self s.i
  · rw [afterFlush_eq]
    exact Nat.lt_succ_self s.i
  · simp [afterFinish] at hb
  · simp at hb

/-- A chunk that is applied moves RP past its header. -/
theorem literalChunk_advances {s t : State} {length header : Nat} (h1 : 1 ≤ header)
    (ht : (literalChunk length header s).outcome = .next t) (hb : t.status = .busy) : s.rp < t.rp := by
  rcases literalChunk_cases length header s with ⟨-, he⟩ | ⟨-, -, he⟩ | ⟨-, -, he⟩
  all_goals
    rw [he] at ht
    injection ht with ht
    subst ht
  · simp at hb
  · simp at hb
  · rw [literal_applied]
    show s.rp < s.rp + header + length
    omega

theorem refChunk_advances {s t : State} {distance length header : Nat} (h1 : 1 ≤ header)
    (ht : (refChunk distance length header s).outcome = .next t) (hb : t.status = .busy) : s.rp < t.rp := by
  rcases refChunk_cases distance length header s with ⟨-, he⟩ | ⟨-, -, -, he⟩ | ⟨-, -, -, he⟩
  all_goals
    rw [he] at ht
    injection ht with ht
    subst ht
  · simp at hb
  · simp at hb
  · rw [ref_applied]
    exact Nat.lt_add_of_pos_right h1

/-- A decompressor's turn that does not end the operation moves RP up. -/
theorem decompressorTurn_advances {s t : State} (ht : decompressorTurn s = .next t) (hb : t.status = .busy) :
    s.rp < t.rp := by
  rw [decompressorTurn] at ht
  split at ht
  · next hrp =>
    rcases decompStep_cases s hrp with ⟨c, -, -, he⟩ | ⟨_, _, _, -, -, -, h1, -, -, he⟩ |
      ⟨_, _, _, _, -, -, -, -, h1, -, -, he⟩
    · rw [he, Host.Outcome.next.injEq] at ht
      subst ht
      simp at hb
    · exact literalChunk_advances h1 (he ▸ ht) hb
    · exact refChunk_advances h1 (he ▸ ht) hb
  · split at ht
    · injection ht with ht
      subst ht
      simp at hb
    · nomatch ht

/-- Settles O43: the turn keeps MODE and N, and the invariant bounds the cursor it leaves. -/
theorem cursorAdvances : Obligations.CursorAdvances := by
  intro s t h hb ht htb
  have hk := keeps_of_busy ht htb
  refine ⟨hk.mode, hk.n, ?_, (inv_engineTurn h ht).cursor_le⟩
  simp only [State.cursor, hk.mode]
  cases hm : s.mode with
  | none => exact absurd hm (h.coherent.busyMode.1 hb)
  | compressing =>
    rw [engineTurn_compressing hb hm] at ht
    exact compressorTurn_advances (h.compressing hm) ht htb
  | decompressing =>
    rw [engineTurn_decompressing hb hm] at ht
    exact decompressorTurn_advances ht htb

end Sys2Proof.Machine
end

section
/-! The compressor family, the whole-operation function (R167): its loop case by case, one induction for its invariants, the
shape of what it emits (R170), the bound on its size (R174). -/

namespace Sys2Proof.Machine

/-! ### The loop, case by case (R167) -/

theorem appendChunk_ok {c : ChunkValue} {spelled : List Byte} (h : encodeValue c = .ok spelled) (out : List Byte) :
    appendChunk c out = .ok (out ++ spelled) := by
  rw [appendChunk, h]

theorem literalBytes_of_pos {acc : List Byte} (h : 0 < acc.length) :
    literalBytes acc = encLen 0 acc.length ++ acc := if_neg (Nat.ne_of_gt h)

theorem appendLiteral_ok {acc : List Byte} (h : acc.length ≤ 65535) (out : List Byte) :
    appendLiteral acc out = .ok (out ++ literalBytes acc) := by
  rw [appendLiteral]
  split
  · next hpos => rw [appendChunk_ok (encodeValue_literal h), literalBytes_of_pos hpos]
  · next hzero => rw [literalBytes, if_pos (by omega), List.append_nil]

/-- The back-reference of a qualifying match is one that Encode accepts (R127). -/
theorem encodeValue_findMatch {input : Nat → Byte} {n i : Nat} (hi : i < n) (hq : 7 ≤ (findMatch input n i).bestLen) :
    encodeValue (.backRef (findMatch input n i).bestDist (findMatch input n i).bestLen) =
      .ok (backRefBytes (findMatch input n i).bestDist (findMatch input n i).bestLen) := by
  obtain ⟨hd1, -, hd2, hl, -, -⟩ := findMatch_valid hi (by omega : 1 ≤ (findMatch input n i).bestLen)
  exact encodeValue_backRef hd1 hd2 (by omega)

theorem qualifies_iff (l : Nat) : qualifies l = true ↔ 7 ≤ l := decide_eq_true_iff

section
variable {input : Nat → Byte} {n fuel i : Nat} {acc : List Byte} (out : List Byte)

theorem compressLoop_match (hi : i < n) (hq : 7 ≤ (findMatch input n i).bestLen) (hl : acc.length ≤ 65535) :
    compressLoop input n (fuel + 1) i acc out =
      compressLoop input n fuel (i + (findMatch input n i).bestLen) []
        (out ++ literalBytes acc ++
          backRefBytes (findMatch input n i).bestDist (findMatch input n i).bestLen) := by
  rw [compressLoop, if_pos hi, if_pos ((qualifies_iff _).2 hq), appendLiteral_ok hl]
  simp only [appendChunk_ok (encodeValue_findMatch hi hq)]

theorem compressLoop_literal (hi : i < n) (hq : (findMatch input n i).bestLen ≤ 6) (hl : acc.length + 1 < 65535) :
    compressLoop input n (fuel + 1) i acc out = compressLoop input n fuel (i + 1) (acc ++ [input i]) out := by
  rw [compressLoop, if_pos hi, if_neg (by rw [qualifies_iff]; omega), if_neg (by simp; omega)]

theorem compressLoop_flush (hi : i < n) (hq : (findMatch input n i).bestLen ≤ 6) (hl : acc.length + 1 = 65535) :
    compressLoop input n (fuel + 1) i acc out =
      compressLoop input n fuel (i + 1) [] (out ++ literalBytes (acc ++ [input i])) := by
  have hlen : (acc ++ [input i]).length = 65535 := by simpa using hl
  rw [compressLoop, if_pos hi, if_neg (by rw [qualifies_iff]; omega), if_pos (Nat.le_of_eq hlen.symm),
    appendChunk_ok (encodeValue_literal (Nat.le_of_eq hlen)), literalBytes_of_pos (by omega)]

theorem compressLoop_finish (hi : n ≤ i) (hl : acc.length ≤ 65535) :
    compressLoop input n fuel i acc out = .ok (out ++ literalBytes acc) := by
  cases fuel with
  | zero => exact appendLiteral_ok hl out
  | succ fuel => rw [compressLoop, if_neg (Nat.not_lt_of_le hi), appendLiteral_ok hl]

end

/-- The loop reads the input below N only. -/
theorem compressLoop_congr {input input' : Nat → Byte} {n : Nat} (h : ∀ a < n, input a = input' a)
    (fuel i : Nat) (acc out : List Byte) :
    compressLoop input n fuel i acc out = compressLoop input' n fuel i acc out := by
  induction fuel generalizing i acc out with
  | zero => rfl
  | succ fuel ih =>
    rw [compressLoop, compressLoop]
    by_cases hi : i < n
    · rw [h i hi, findMatch_congr h]
      simp only [ih]
    · rw [if_neg hi, if_neg hi]

/-! ### Invariants of the loop -/

/-- `P i acc out`, said of the cursor, the accumulator and the output at a loop head, is kept by each kind of iteration. -/
structure LoopInvariant (input : Nat → Byte) (n : Nat) (P : Nat → List Byte → List Byte → Prop) : Prop where
  afterMatch : ∀ {i acc out}, i < n → 7 ≤ (findMatch input n i).bestLen → acc.length < 65535 → P i acc out →
    P (i + (findMatch input n i).bestLen) []
      (out ++ literalBytes acc ++ backRefBytes (findMatch input n i).bestDist (findMatch input n i).bestLen)
  afterLiteral : ∀ {i acc out}, i < n → acc.length + 1 < 65535 → P i acc out → P (i + 1) (acc ++ [input i]) out
  afterFlush : ∀ {i acc out}, i < n → acc.length + 1 = 65535 → P i acc out →
    P (i + 1) [] (out ++ literalBytes (acc ++ [input i]))

/-- An invariant that holds at a loop head holds at I = N, and the loop answers the output there with the last flush. -/
theorem LoopInvariant.loop {input : Nat → Byte} {n : Nat} {P : Nat → List Byte → List Byte → Prop}
    (h : LoopInvariant input n P) {fuel i : Nat} {acc out : List Byte} (hi : i ≤ n) (hf : n - i ≤ fuel)
    (hl : acc.length < 65535) (hP : P i acc out) :
    ∃ acc' out', acc'.length < 65535 ∧ P n acc' out' ∧
      compressLoop input n fuel i acc out = .ok (out' ++ literalBytes acc') := by
  induction fuel generalizing i acc out with
  | zero =>
    obtain rfl : i = n := by omega
    exact ⟨acc, out, hl, hP, compressLoop_finish out (Nat.le_refl i) (by omega)⟩
  | succ fuel ih =>
    rcases Nat.eq_or_lt_of_le hi with rfl | hi
    · exact ⟨acc, out, hl, hP, compressLoop_finish out (Nat.le_refl i) (by omega)⟩
    · by_cases hq : 7 ≤ (findMatch input n i).bestLen
      · obtain ⟨-, -, -, -, hend, -⟩ := findMatch_valid hi (by omega : 1 ≤ (findMatch input n i).bestLen)
        rw [compressLoop_match out hi hq (by omega)]
        exact ih hend (by omega) (Nat.succ_pos _) (h.afterMatch hi hq hl hP)
      · rcases Nat.lt_or_eq_of_le (Nat.succ_le_of_lt hl) with hs | hs
        · rw [compressLoop_literal out hi (by omega) hs]
          exact ih hi (by omega) (by simpa using hs) (h.afterLiteral hi hs hP)
        · rw [compressLoop_flush out hi (by omega) hs]
          exact ih hi (by omega) (Nat.succ_pos _) (h.afterFlush hi hs hP)

/-- What an invariant says of the function's answer: it holds of the cursor N and of the answer without its last flush. -/
theorem LoopInvariant.compressBytes {b c : List Byte} {P : Nat → List Byte → List Byte → Prop}
    (h : LoopInvariant (byteAt b) b.length P) (hP : P 1 [byteAt b 0] []) (hc : compressBytes b = .ok c) :
    ∃ acc out, acc.length < 65535 ∧ P b.length acc out ∧ c = out ++ literalBytes acc := by
  rw [Machine.compressBytes] at hc
  split at hc
  · simp at hc
  · next hb =>
    obtain ⟨acc, out, hl, hP', he⟩ :=
      h.loop (fuel := b.length) (Nat.one_le_iff_ne_zero.2 hb) (by omega) (by simp) hP
    rw [he, Except.ok.injEq] at hc
    exact ⟨acc, out, hl, hP', hc.symm⟩

/-! ### The shape of the stream (R170) -/

@[simp] theorem encodeAll_append (xs ys : List ChunkValue) : encodeAll (xs ++ ys) = encodeAll xs ++ encodeAll ys :=
  List.flatMap_append

theorem encodeAll_singleton {c : ChunkValue} {spelled : List Byte} (h : encodeValue c = .ok spelled) :
    encodeAll [c] = spelled := by
  simp [encodeAll, h]

/-- The chunks that a flush of the accumulator emits (R163): one, or none when it is empty. -/
def literalChunks (acc : List Byte) : List ChunkValue := if acc.length = 0 then [] else [.literal acc]

theorem literalChunks_of_pos {acc : List Byte} (h : 0 < acc.length) : literalChunks acc = [.literal acc] :=
  if_neg (Nat.ne_of_gt h)

theorem encodeAll_literalChunks {acc : List Byte} (h : acc.length ≤ 65535) :
    encodeAll (literalChunks acc) = literalBytes acc := by
  rcases Nat.eq_zero_or_pos acc.length with h0 | hpos
  · rw [literalChunks, literalBytes, if_pos h0, if_pos h0]
    rfl
  · rw [literalChunks_of_pos hpos, literalBytes_of_pos hpos, encodeAll_singleton (encodeValue_literal h)]

@[simp] theorem span_literalChunks (acc : List Byte) : ((literalChunks acc).map chunkSpan).sum = acc.length := by
  rcases Nat.eq_zero_or_pos acc.length with h0 | hpos
  · rw [literalChunks, if_pos h0, h0]
    rfl
  · rw [literalChunks_of_pos hpos]
    simp [chunkSpan]

/-- R170 of a sequence of chunks, its total length left out; the empty sequence has it. -/
structure StreamShape (chunks : List ChunkValue) : Prop where
  emittable : ∀ c ∈ chunks, emittable c = true
  chain : List.IsChain mayPrecede chunks
  first : ∀ c ∈ chunks.head?, ∃ bytes, c = .literal bytes

/-- Another chunk may come after the last one. -/
def MayFollow (chunks : List ChunkValue) (c : ChunkValue) : Prop := ∀ x ∈ chunks.getLast?, mayPrecede x c

theorem mayFollow_snoc_iff {chunks : List ChunkValue} {x c : ChunkValue} :
    MayFollow (chunks ++ [x]) c ↔ mayPrecede x c := by
  simp [MayFollow]

theorem mayFollow_backRef (chunks : List ChunkValue) (d l : Nat) : MayFollow chunks (.backRef d l) := by
  intro x _
  cases x <;> trivial

/-- Which literal it is does not matter. -/
theorem MayFollow.literal {chunks : List ChunkValue} {acc : List Byte} (h : MayFollow chunks (.literal acc))
    (acc' : List Byte) : MayFollow chunks (.literal acc') := by
  intro x hx
  have := h x hx
  cases x <;> exact this

namespace StreamShape

variable {chunks : List ChunkValue}

theorem nil : StreamShape [] := ⟨by simp, List.IsChain.nil, by simp⟩

theorem snoc (h : StreamShape chunks) {c : ChunkValue} (he : Machine.emittable c = true) (hf : MayFollow chunks c)
    (hfirst : chunks = [] → ∃ bytes, c = .literal bytes) : StreamShape (chunks ++ [c]) where
  emittable x hx := by
    rcases List.mem_append.1 hx with hx | hx
    · exact h.emittable x hx
    · rwa [List.mem_singleton.1 hx]
  chain := h.chain.append (List.IsChain.singleton c) (by simpa [MayFollow] using hf)
  first := by
    cases chunks with
    | nil => simpa using hfirst rfl
    | cons x xs => exact h.first

theorem literal (h : StreamShape chunks) {acc : List Byte} (h1 : 0 < acc.length) (hl : acc.length ≤ 65535)
    (hf : MayFollow chunks (.literal acc)) : StreamShape (chunks ++ [.literal acc]) :=
  h.snoc (by simp [Machine.emittable, Nat.one_le_iff_ne_zero, Nat.ne_of_gt h1, hl]) hf fun _ => ⟨acc, rfl⟩

theorem literalChunks (h : StreamShape chunks) {acc : List Byte} (hl : acc.length ≤ 65535)
    (hf : MayFollow chunks (.literal acc)) : StreamShape (chunks ++ Machine.literalChunks acc) := by
  rcases Nat.eq_zero_or_pos acc.length with h0 | hpos
  · rwa [Machine.literalChunks, if_pos h0, List.append_nil]
  · rw [literalChunks_of_pos hpos]
    exact h.literal hpos hl hf

theorem backRef (h : StreamShape chunks) (hne : chunks ≠ []) {d l : Nat} (hd1 : 1 ≤ d) (hd2 : d ≤ 32767)
    (hl1 : 7 ≤ l) (hl2 : l ≤ 32767) : StreamShape (chunks ++ [.backRef d l]) :=
  h.snoc (by simp [Machine.emittable, hd1, hd2, hl1, hl2]) (mayFollow_backRef chunks d l) fun h0 => absurd h0 hne

end StreamShape

/-- At a loop head: the output is a stream of R170's shape that a literal may follow, it and the accumulator stand for the
input before I, and if it is empty the accumulator is not. -/
def EmittedShape (i : Nat) (acc out : List Byte) : Prop :=
  ∃ chunks, out = encodeAll chunks ∧ StreamShape chunks ∧ MayFollow chunks (.literal acc) ∧
    (chunks = [] → 0 < acc.length) ∧ (chunks.map chunkSpan).sum + acc.length = i

theorem append_literalChunks_ne_nil {chunks : List ChunkValue} {acc : List Byte} (h : chunks = [] → 0 < acc.length) :
    chunks ++ literalChunks acc ≠ [] := by
  intro h0
  obtain ⟨hc, hl⟩ := List.append_eq_nil_iff.1 h0
  rw [literalChunks_of_pos (h hc)] at hl
  simp at hl

theorem emittedShape_loopInvariant (input : Nat → Byte) (n : Nat) : LoopInvariant input n EmittedShape where
  afterMatch := by
    rintro i acc _ hi hq hl ⟨chunks, rfl, hs, hf, hne, hspan⟩
    obtain ⟨hd1, -, hd2, hl2, -, -⟩ := findMatch_valid hi (by omega : 1 ≤ (findMatch input n i).bestLen)
    have hlit := hs.literalChunks (by omega) hf
    refine ⟨_, ?_, hlit.backRef (append_literalChunks_ne_nil hne) hd1 hd2 hq hl2, mayFollow_snoc_iff.2 trivial, by simp,
      ?_⟩
    · rw [encodeAll_append, encodeAll_append, encodeAll_literalChunks (by omega),
        encodeAll_singleton (encodeValue_findMatch hi hq)]
    · simp [chunkSpan]
      omega
  afterLiteral := by
    rintro i acc _ - - ⟨chunks, rfl, hs, hf, -, hspan⟩
    exact ⟨chunks, rfl, hs, hf.literal _, by simp, by simp; omega⟩
  afterFlush := by
    rintro i acc _ - hl ⟨chunks, rfl, hs, hf, -, hspan⟩
    have hlen : (acc ++ [input i]).length = 65535 := by simpa using hl
    refine ⟨_, ?_, hs.literal (acc := acc ++ [input i]) (by omega) (by omega) (hf.literal _),
      mayFollow_snoc_iff.2 hlen, by simp, ?_⟩
    · rw [encodeAll_append, ← literalChunks_of_pos (by omega), encodeAll_literalChunks (by omega)]
    · simp [chunkSpan]
      omega

/-- Settles O54: the shape holds at every loop head, the last flush included. -/
theorem emittedStreamShape : Obligations.EmittedStreamShape := by
  intro b c hc
  have hstart : EmittedShape 1 [byteAt b 0] [] := ⟨[], rfl, .nil, by simp [MayFollow], by simp, rfl⟩
  obtain ⟨acc, out, hl, ⟨chunks, rfl, hs, hf, hne, hspan⟩, rfl⟩ :=
    (emittedShape_loopInvariant _ _).compressBytes hstart hc
  have hall := hs.literalChunks (by omega) hf
  refine ⟨_, ?_, hall.emittable, ?_, hall.chain, by simpa using hspan⟩
  · rw [encodeAll_append, encodeAll_literalChunks (by omega)]
  · obtain ⟨x, tail, hx⟩ := List.exists_cons_of_ne_nil (append_literalChunks_ne_nil hne)
    obtain ⟨bytes, rfl⟩ := hall.first x (by rw [hx]; rfl)
    exact ⟨bytes, tail, hx⟩

/-! ### The size of the stream (R174) -/

theorem literalBytes_length_le {acc : List Byte} (h : acc.length ≤ 65535) :
    (literalBytes acc).length ≤ acc.length + 3 := by
  rcases Nat.eq_zero_or_pos acc.length with h0 | hpos
  · rw [literalBytes, if_pos h0]
    exact Nat.zero_le _
  · rw [literalBytes_of_pos hpos, encodedSizes.1 acc _ (encodeValue_literal h)]
    split <;> omega

/-- A back-reference the compressor emits is at least 4 bytes shorter than what it stands for. -/
theorem backRefBytes_findMatch_length {input : Nat → Byte} {n i : Nat} (hi : i < n)
    (hq : 7 ≤ (findMatch input n i).bestLen) :
    (backRefBytes (findMatch input n i).bestDist (findMatch input n i).bestLen).length + 4 ≤
      (findMatch input n i).bestLen := by
  rw [encodedSizes.2 _ _ _ (encodeValue_findMatch hi hq)]
  split <;> split <;> omega

/-- At a loop head: each 65535 bytes before the accumulator have paid for the 3 bytes that a literal chunk may cost more
than its payload; a match pays for the literal chunk before it. -/
def SizeBounded (i : Nat) (acc out : List Byte) : Prop :=
  acc.length ≤ i ∧ out.length + acc.length ≤ i + 3 * ((i - acc.length) / 65535)

theorem sizeBounded_loopInvariant (input : Nat → Byte) (n : Nat) : LoopInvariant input n SizeBounded where
  afterMatch := by
    rintro i acc out hi hq hl ⟨hle, hb⟩
    have hlit := literalBytes_length_le (acc := acc) (by omega)
    have href := backRefBytes_findMatch_length hi hq
    simp only [SizeBounded, List.length_append, List.length_nil]
    omega
  afterLiteral := by
    rintro i acc out - - ⟨hle, hb⟩
    simp only [SizeBounded, List.length_append, List.length_singleton]
    omega
  afterFlush := by
    rintro i acc out - hl ⟨hle, hb⟩
    have hlit := literalBytes_length_le (acc := acc ++ [input i]) (by simp; omega)
    simp only [List.length_append, List.length_singleton] at hlit
    simp only [SizeBounded, List.length_append, List.length_nil]
    omega

/-- Settles O55: the bound holds at I = N, and the last flush adds at most 3 bytes to its payload. -/
theorem compressedSizeBound : Obligations.CompressedSizeBound := by
  intro b c hc
  have hstart : SizeBounded 1 [byteAt b 0] [] := by simp [SizeBounded]
  obtain ⟨acc, out, hl, ⟨hle, hb⟩, rfl⟩ := (sizeBounded_loopInvariant _ _).compressBytes hstart hc
  have hlit := literalBytes_length_le (acc := acc) (by omega)
  rw [List.length_append]
  omega

end Sys2Proof.Machine
end

section
/-! The compressor family, COMPRESS as a whole: a run of the machine follows the whole-operation function (R167), and what it
has emitted at a loop head decompresses to the input before the accumulator (R172). -/

namespace Sys2Proof.Machine

/-! ### A run follows the function (R167) -/

/-- A COMPRESS at a loop head, no host access pending. -/
structure State.Compressing (s : State) : Prop where
  busy : s.status = .busy
  mode : s.mode = .compressing
  inbox : s.inbox = []
  head : s.AtLoopHead

/-- The whole-operation function, taken up at the loop head that the machine stands at. -/
def compressFrom (fuel : Nat) (s : State) : Except Cause (List Byte) :=
  compressLoop (ibufByte s) s.n fuel s.i s.acc s.result

/-- The run from `s` ends, with OUT_OVERFLOW under a finite OUT_CAP or DONE with the result `c`. -/
def EndsWith (s : State) (c : List Byte) : Prop :=
  ∃ k t, runSteps k s = .next t ∧ t.ended = true ∧
    ((s.cfg.outCap ≠ none ∧ t.err = .outOverflow) ∨ (t.status = .done ∧ t.result = c))

theorem EndsWith.of_step {s t : State} {c : List Byte} (hst : step s = .next t) (hcfg : t.cfg = s.cfg)
    (h : EndsWith t c) : EndsWith s c := by
  obtain ⟨k, u, hrun, hend, hres⟩ := h
  rw [hcfg] at hres
  exact ⟨k + 1, u, (runSteps_succ hst k).trans hrun, hend, hres⟩

theorem EndsWith.of_overflow {s u : State} {pos : Nat} (hst : step s = .next (errorEntry .outOverflow pos u))
    (hcap : s.cfg.outCap ≠ none) (c : List Byte) : EndsWith s c :=
  ⟨1, _, runSteps_succ hst 0, rfl, .inl ⟨hcap, rfl⟩⟩

namespace State.Compressing

variable {s t : State}

theorem step_eq (h : s.Compressing) : step s = compressorTurn s :=
  (step_engine h.inbox).trans (engineTurn_compressing h.busy h.mode)

/-- A step to another loop head goes on with the operation, its cursor moved up. -/
theorem next (h : s.Compressing) (hst : step s = .next t) (hb : t.status = .busy) (hh : t.AtLoopHead) :
    t.Compressing ∧ Keeps s t ∧ s.i < t.i := by
  have hk := keeps_of_busy ((step_engine h.inbox).symm.trans hst) hb
  exact ⟨⟨hb, hk.mode.trans h.mode, hk.inbox.trans h.inbox, hh⟩, hk,
    compressorTurn_advances h.head (h.step_eq ▸ hst) hb⟩

end State.Compressing

section
variable {s : State}

theorem State.AtLoopHead.afterMatch (h : s.AtLoopHead) (hi : s.i < s.n)
    (hq : 7 ≤ (findMatch (ibufByte s) s.n s.i).bestLen) : (Machine.afterMatch s).AtLoopHead := by
  obtain ⟨-, -, -, -, hend, -⟩ := findMatch_valid hi (by omega : 1 ≤ (findMatch (ibufByte s) s.n s.i).bestLen)
  rw [afterMatch_eq]
  exact .of_empty (Nat.le_trans h.iPos (Nat.le_add_right _ _)) hend h.nCap rfl rfl

theorem State.AtLoopHead.afterFlush (h : s.AtLoopHead) (hi : s.i < s.n) : (Machine.afterFlush s).AtLoopHead := by
  rw [afterFlush_eq]
  exact .of_empty (Nat.succ_pos _) hi h.nCap rfl rfl

theorem compressFrom_afterMatch (h : s.AtLoopHead) (hi : s.i < s.n)
    (hq : 7 ≤ (findMatch (ibufByte s) s.n s.i).bestLen) (fuel : Nat) :
    compressFrom (fuel + 1) s = compressFrom fuel (afterMatch s) := by
  have hshort : s.acc.length ≤ 65535 := h.accLen ▸ Nat.le_of_lt h.accShort
  rw [compressFrom, compressFrom, (afterMatch_appended s).result, compressLoop_match _ hi hq hshort, afterMatch_eq,
    matchBytes, ← List.append_assoc]
  rfl

theorem compressFrom_literalStep (h : s.AtLoopHead) (hi : s.i < s.n)
    (hq : (findMatch (ibufByte s) s.n s.i).bestLen ≤ 6) (hs : s.accLen + 1 < 65535) (fuel : Nat) :
    compressFrom (fuel + 1) s = compressFrom fuel (literalStep (searchStep s)) :=
  compressLoop_literal _ hi hq (h.accLen ▸ hs)

theorem compressFrom_afterFlush (h : s.AtLoopHead) (hi : s.i < s.n)
    (hq : (findMatch (ibufByte s) s.n s.i).bestLen ≤ 6) (hs : s.accLen + 1 = 65535) (fuel : Nat) :
    compressFrom (fuel + 1) s = compressFrom fuel (afterFlush s) := by
  rw [compressFrom, compressFrom, (afterFlush_appended s).result, compressLoop_flush _ hi hq (h.accLen ▸ hs),
    afterFlush_eq]
  rfl

theorem compressFrom_afterFinish (h : s.AtLoopHead) (hi : s.i = s.n) (fuel : Nat) :
    compressFrom fuel s = .ok (afterFinish s).result := by
  have hshort : s.acc.length ≤ 65535 := h.accLen ▸ Nat.le_of_lt h.accShort
  rw [compressFrom, (afterFinish_appended s).result, compressLoop_finish _ (Nat.le_of_eq hi.symm) hshort]

/-- Below N a step of COMPRESS overflows, or goes on to the loop head that the function goes to. -/
theorem compressing_iterates (h : s.Compressing) (hi : s.i < s.n) :
    (∃ pos u, step s = .next (errorEntry .outOverflow pos u) ∧ s.cfg.outCap ≠ none) ∨
    ∃ t, step s = .next t ∧ (t.Compressing ∧ Keeps s t ∧ s.i < t.i) ∧
      ∀ fuel, compressFrom (fuel + 1) s = compressFrom fuel t := by
  have hh := h.head
  rw [h.step_eq]
  rcases compressorTurn_cases hh with ⟨-, hq, -, he⟩ | ⟨-, hq, hs, he⟩ | ⟨-, hq, hs, -, he⟩ | ⟨hn, -, -⟩ |
    ⟨u, -, hcap, he⟩
  · refine .inr ⟨_, he, h.next (h.step_eq.trans he) ?_ (hh.afterMatch hi hq), compressFrom_afterMatch hh hi hq⟩
    rw [afterMatch_eq]
    exact h.busy
  · exact .inr ⟨_, he, h.next (h.step_eq.trans he) h.busy (hh.literalStep hi hs), compressFrom_literalStep hh hi hq hs⟩
  · refine .inr ⟨_, he, h.next (h.step_eq.trans he) ?_ (hh.afterFlush hi), compressFrom_afterFlush hh hi hq hs⟩
    rw [afterFlush_eq]
    exact h.busy
  · exact absurd hn (Nat.ne_of_lt hi)
  · exact .inl ⟨_, u, he, hcap⟩

/-- At N a step of COMPRESS overflows, or ends DONE with what the function answers. -/
theorem compressing_finishes (h : s.Compressing) (hi : s.i = s.n) {fuel : Nat} {c : List Byte}
    (hc : compressFrom fuel s = .ok c) : EndsWith s c := by
  rw [compressFrom_afterFinish h.head hi, Except.ok.injEq] at hc
  rcases compressorTurn_cases h.head with ⟨hn, -⟩ | ⟨hn, -⟩ | ⟨hn, -⟩ | ⟨-, -, he⟩ | ⟨u, -, hcap, he⟩
  · exact absurd hi (Nat.ne_of_lt hn)
  · exact absurd hi (Nat.ne_of_lt hn)
  · exact absurd hi (Nat.ne_of_lt hn)
  · exact ⟨1, _, runSteps_succ (h.step_eq.trans he) 0, rfl, .inr ⟨rfl, hc⟩⟩
  · exact .of_overflow (h.step_eq.trans he) hcap c

end

/-- The run of a COMPRESS ends as the function taken up at its loop head says. -/
theorem compressing_endsWith {s : State} (h : s.Compressing) {fuel : Nat} (hf : s.n - s.i ≤ fuel) {c : List Byte}
    (hc : compressFrom fuel s = .ok c) : EndsWith s c := by
  induction fuel generalizing s with
  | zero => exact compressing_finishes h (Nat.le_antisymm h.head.iLe (Nat.le_of_sub_eq_zero (Nat.le_zero.1 hf))) hc
  | succ fuel ih =>
    rcases Nat.eq_or_lt_of_le h.head.iLe with hi | hi
    · exact compressing_finishes h hi hc
    · rcases compressing_iterates h hi with ⟨pos, u, hst, hcap⟩ | ⟨t, hst, ⟨ht, hk, hadv⟩, hfrom⟩
      · exact .of_overflow hst hcap c
      · have hn := hk.n
        exact .of_step hst hk.cfg (ih ht (by omega) ((hfrom fuel).symm.trans hc))

/-- Compress answers bytes for every input that is not empty. -/
theorem compressBytes_ok {b : List Byte} (hb : b.length ≠ 0) : ∃ c, compressBytes b = .ok c := by
  have htrue : LoopInvariant (byteAt b) b.length fun _ _ _ => True :=
    ⟨fun _ _ _ _ => trivial, fun _ _ _ => trivial, fun _ _ _ => trivial⟩
  obtain ⟨acc, out, -, -, he⟩ := htrue.loop (fuel := b.length) (i := 1) (acc := [byteAt b 0]) (out := [])
    (Nat.one_le_iff_ne_zero.2 hb) (by omega) (by simp) trivial
  exact ⟨_, (if_neg hb).trans he⟩

/-- R10: the bytes of a slice of IBUF. -/
theorem byteAt_ibufSlice (s : State) {count a : Nat} (ha : a < count) :
    byteAt (ibufSlice s 0 count) a = ibufByte s a := by
  rw [byteAt, List.getD_eq_getElem?_getD, ibufSlice_getElem? s ha, Nat.zero_add, Option.getD_some]

/-- The function on the input, taken up where an accepted COMPRESS starts (R151). -/
theorem compressBytes_ibufSlice {s : State} (hn : s.inLen ≠ 0) :
    compressBytes (ibufSlice s 0 s.inLen) =
      compressFrom s.inLen (seedAccumulator (startOperation .compressing s)) := by
  have hlen := ibufSlice_length s 0 s.inLen
  rw [compressBytes, if_neg (by rwa [hlen]), hlen, byteAt_ibufSlice s (Nat.pos_of_ne_zero hn)]
  exact compressLoop_congr (fun a ha => byteAt_ibufSlice s ha) _ _ _ _

/-- An accepted COMPRESS starts at a loop head (R151). -/
theorem compressing_start {s : State} (hin : s.inbox = []) (hc : capAdmits s.cfg.inCap s.inLen = true)
    (hn : s.inLen ≠ 0) : (seedAccumulator (startOperation .compressing s)).Compressing where
  busy := rfl
  mode := rfl
  inbox := hin
  head := {
    iPos := Nat.le_refl 1, iLe := Nat.one_le_iff_ne_zero.2 hn, nCap := hc, accLen := rfl
    accShort := (by decide : 1 < Config.litMax), accLe := Nat.le_refl 1, accIs := rfl }

/-- Settles O50: the start is a loop head, and from each loop head the machine and the function go the same way. -/
theorem compressRunIsCompress : Obligations.CompressRunIsCompress := by
  intro s s' hb hin hc hn hs
  rw [exec_compress_notBusy hb, if_neg (by simp [hc]), if_neg hn, Host.Outcome.next.injEq] at hs
  subst hs
  obtain ⟨c, he⟩ := compressBytes_ok (b := ibufSlice s 0 s.inLen) (by simpa using hn)
  rw [he]
  rw [compressBytes_ibufSlice hn] at he
  exact compressing_endsWith (compressing_start hin hc hn) (Nat.sub_le _ _) he

end Sys2Proof.Machine
end

section
/-! The compressor family, decompressing what has been emitted (R172): the decompressor's function on a stream with one more
chunk (R209), then each step of COMPRESS. -/

namespace Sys2Proof.Machine

/-! ### A stream with one more chunk (R209) -/

/-- The decoder looks at no byte after the header it has decoded. -/
theorem decodeChunk_append {bytes : List Byte} {i : Instr} (h : decodeChunk bytes = .ok i) (rest : List Byte) :
    decodeChunk (bytes ++ rest) = .ok i := by
  obtain ⟨hwf, -, he⟩ := decodedHeaderIsItsEncoding bytes i h
  have := decodeChunk_of_encode hwf he (bytes.drop i.headerSize ++ rest)
  rwa [← List.append_assoc, List.take_append_drop] at this

theorem applyChunkBytes_literal {i : Instr} {length header : Nat} (h : IsLiteral i length header) (input : List Byte)
    (rp : Nat) (out : List Byte) : applyChunkBytes i input rp out = applyLiteralBytes input rp header length out := by
  rcases h with ⟨rfl, rfl⟩ | ⟨rfl, rfl⟩ <;> rfl

theorem applyChunkBytes_backRef {i : Instr} {distance length header : Nat} (h : IsBackRef i distance length header)
    (input : List Byte) (rp : Nat) (out : List Byte) :
    applyChunkBytes i input rp out = applyRefBytes distance length out := by
  rcases h with ⟨rfl, rfl⟩ | ⟨rfl, rfl⟩ | ⟨rfl, rfl⟩ | ⟨rfl, rfl⟩ <;> rfl

theorem applyLiteralBytes_ok {input : List Byte} {rp header length : Nat} {out out' : List Byte} :
    applyLiteralBytes input rp header length out = .ok out' ↔
      rp + header + length ≤ input.length ∧ out ++ (input.drop (rp + header)).take length = out' := by
  rw [applyLiteralBytes]
  split
  · next h => simp [Nat.not_le_of_lt h]
  · next h => simp [Nat.le_of_not_lt h]

/-- A chunk that is applied lies within its stream, and is applied alike in a longer one. -/
theorem applyChunkBytes_append {input : List Byte} {rp : Nat} {i : Instr} {out out' : List Byte}
    (hd : decodeChunk (input.drop rp) = .ok i) (hrp : rp ≤ input.length) (ha : applyChunkBytes i input rp out = .ok out')
    (rest : List Byte) :
    rp + i.headerSize + i.payloadSize ≤ input.length ∧ applyChunkBytes i (input ++ rest) rp out = .ok out' := by
  rcases decodeChunk_form hd with ⟨length, header, hi, -, rfl, rfl⟩ | ⟨distance, length, header, hi, -, -, rfl, hp⟩
  · rw [applyChunkBytes_literal hi] at ha ⊢
    obtain ⟨hle, rfl⟩ := applyLiteralBytes_ok.1 ha
    refine ⟨hle, applyLiteralBytes_ok.2 ⟨by simp; omega, ?_⟩⟩
    rw [List.drop_append_of_le_length (by omega), List.take_append_of_le_length (by simp; omega)]
  · rw [applyChunkBytes_backRef hi] at ha ⊢
    obtain ⟨-, hle, -⟩ := decodeChunk_headerSize hd
    rw [List.length_drop] at hle
    exact ⟨by omega, ha⟩

theorem decompressLoop_chunk {input : List Byte} {rp : Nat} {i : Instr} {out out' : List Byte} (hrp : rp < input.length)
    (hd : decodeChunk (input.drop rp) = .ok i) (ha : applyChunkBytes i input rp out = .ok out') (fuel : Nat) :
    decompressLoop input (fuel + 1) rp out =
      decompressLoop input fuel (rp + i.headerSize + i.payloadSize) out' := by
  rw [decompressLoop, if_pos hrp, hd]
  simp only [ha]

theorem decompressLoop_end {input : List Byte} {rp : Nat} (hrp : input.length ≤ rp) (fuel : Nat) (out : List Byte) :
    decompressLoop input fuel rp out = .ok out := by
  cases fuel with
  | zero => rfl
  | succ fuel => rw [decompressLoop, if_neg (Nat.not_lt_of_le hrp)]

/-- A loop that ends without error before N took a chunk there. -/
theorem decompressLoop_ok {input : List Byte} {fuel rp : Nat} {out result : List Byte} (hrp : rp < input.length)
    (h : decompressLoop input (fuel + 1) rp out = .ok result) :
    ∃ i out', decodeChunk (input.drop rp) = .ok i ∧ applyChunkBytes i input rp out = .ok out' ∧
      decompressLoop input fuel (rp + i.headerSize + i.payloadSize) out' = .ok result := by
  rw [decompressLoop, if_pos hrp] at h
  cases hd : decodeChunk (input.drop rp) with
  | error c => simp [hd] at h
  | ok i =>
    rw [hd] at h
    cases ha : applyChunkBytes i input rp out with
    | error c => simp [ha] at h
    | ok out' => exact ⟨i, out', rfl, ha, by simpa only [ha] using h⟩

/-- On a longer stream the loop comes to the end of the shorter one, with the shorter one's output. -/
theorem decompressLoop_append {input : List Byte} {fuel rp : Nat} {out result : List Byte} (hrp : rp ≤ input.length)
    (hf : input.length - rp ≤ fuel) (h : decompressLoop input fuel rp out = .ok result) (rest : List Byte) (more : Nat) :
    ∃ left, decompressLoop (input ++ rest) (fuel + more) rp out =
      decompressLoop (input ++ rest) (left + more) input.length result := by
  induction fuel generalizing rp out with
  | zero =>
    obtain rfl : rp = input.length := by omega
    rw [decompressLoop_end (Nat.le_refl _), Except.ok.injEq] at h
    exact ⟨0, by rw [h]⟩
  | succ fuel ih =>
    rcases Nat.eq_or_lt_of_le hrp with rfl | hlt
    · rw [decompressLoop_end (Nat.le_refl _), Except.ok.injEq] at h
      exact ⟨fuel + 1, by rw [h]⟩
    · obtain ⟨i, out', hd, ha, h'⟩ := decompressLoop_ok hlt h
      obtain ⟨hend, ha'⟩ := applyChunkBytes_append hd hrp ha rest
      obtain ⟨h1, -, -⟩ := decodeChunk_headerSize hd
      obtain ⟨left, hleft⟩ := ih hend (by omega) h'
      refine ⟨left, ?_⟩
      rw [← hleft, Nat.add_right_comm]
      refine decompressLoop_chunk (by simp; omega) ?_ ha' _
      rw [List.drop_append_of_le_length hrp]
      exact decodeChunk_append hd rest

/-- Decompressing a stream with one more chunk: that chunk, applied to the stream's output. -/
theorem decompressBytes_append {input spelled result result' : List Byte} {c : ChunkValue}
    (h : decompressBytes input = .ok result) (hc : encodeValue c = .ok spelled)
    (ha : applyChunkBytes (chunkForm c) (input ++ spelled) input.length result = .ok result') :
    decompressBytes (input ++ spelled) = .ok result' := by
  have hd := decodeChunk_of_encodeValue hc []
  have hlen := length_of_encodeValue hc
  rw [List.append_nil] at hd
  obtain ⟨h1, -, -⟩ := decodeChunk_headerSize hd
  obtain ⟨more, hmore⟩ := Nat.exists_eq_add_of_le' (by omega : 1 ≤ spelled.length)
  obtain ⟨left, hleft⟩ := decompressLoop_append (Nat.zero_le _) (Nat.sub_le _ _) h spelled spelled.length
  rw [decompressBytes, List.length_append, hleft, hmore, ← Nat.add_assoc,
    decompressLoop_chunk (by simp; omega) (by rwa [List.drop_left]) ha, decompressLoop_end]
  rw [List.length_append, hlen, Nat.add_assoc]

theorem isLiteral_chunkForm (bytes : List Byte) :
    IsLiteral (chunkForm (.literal bytes)) bytes.length (chunkForm (.literal bytes)).headerSize := by
  simp only [chunkForm]
  split
  · exact .inl ⟨rfl, rfl⟩
  · exact .inr ⟨rfl, rfl⟩

theorem isBackRef_chunkForm (distance length : Nat) :
    IsBackRef (chunkForm (.backRef distance length)) distance length
      (chunkForm (.backRef distance length)).headerSize := by
  simp only [chunkForm]
  split <;> split
  · exact .inl ⟨rfl, rfl⟩
  · exact .inr (.inl ⟨rfl, rfl⟩)
  · exact .inr (.inr (.inl ⟨rfl, rfl⟩))
  · exact .inr (.inr (.inr ⟨rfl, rfl⟩))

/-- The accumulator's chunk, if there is one, decompresses to the accumulator. -/
theorem decompressBytes_literalBytes {input result acc : List Byte} (h : decompressBytes input = .ok result)
    (hl : acc.length ≤ 65535) : decompressBytes (input ++ literalBytes acc) = .ok (result ++ acc) := by
  rcases Nat.eq_zero_or_pos acc.length with h0 | hpos
  · obtain rfl := List.eq_nil_of_length_eq_zero h0
    simpa [literalBytes] using h
  · rw [literalBytes_of_pos hpos]
    have hc := encodeValue_literal hl
    have hlen := length_of_encodeValue hc
    have hpay := payload_of_encodeValue hc []
    rw [payloadSize_chunkForm, chunkPayload] at hlen hpay
    rw [List.append_nil] at hpay
    refine decompressBytes_append h hc ?_
    rw [applyChunkBytes_literal (isLiteral_chunkForm acc), applyLiteralBytes_ok, List.drop_length_add_append, hpay,
      List.length_append, hlen]
    exact ⟨Nat.le_of_eq (Nat.add_assoc _ _ _), rfl⟩

/-- A back-reference within the output decompresses to the overlap copy (R204). -/
theorem decompressBytes_backRefBytes {input result : List Byte} {d l : Nat} (h : decompressBytes input = .ok result)
    (h1 : 1 ≤ d) (hd : d ≤ 32767) (hl : l ≤ 65535) (hr : d ≤ result.length) :
    decompressBytes (input ++ backRefBytes d l) = .ok (overlapCopy (result.length - d) l 0 result) := by
  refine decompressBytes_append h (encodeValue_backRef h1 hd hl) ?_
  rw [applyChunkBytes_backRef (isBackRef_chunkForm d l), applyRefBytes, if_neg (by omega)]

/-! ### What the emitted chunks describe (R172) -/

/-- The first `count` bytes of an input. -/
def firstBytes (input : Nat → Byte) (count : Nat) : List Byte := (List.range count).map input

@[simp] theorem firstBytes_length (input : Nat → Byte) (count : Nat) : (firstBytes input count).length = count := by
  simp [firstBytes]

theorem firstBytes_succ (input : Nat → Byte) (count : Nat) :
    firstBytes input (count + 1) = firstBytes input count ++ [input count] := by
  simp [firstBytes, List.range_succ]

theorem byteAt_firstBytes {input : Nat → Byte} {count a : Nat} (h : a < count) :
    byteAt (firstBytes input count) a = input a := by
  simp [byteAt, firstBytes, h]

theorem ibufSlice_zero (s : State) (count : Nat) : ibufSlice s 0 count = firstBytes (ibufByte s) count := by
  simp [ibufSlice, firstBytes]

/-- Where the input repeats from `base` on, the overlap copy goes on with it (R204). -/
theorem overlapCopy_firstBytes {input : Nat → Byte} {base i count k : Nat} (hb : base < i)
    (h : ∀ j, k ≤ j → j < k + count → input (i + j) = input (base + j)) :
    overlapCopy base count k (firstBytes input (i + k)) = firstBytes input (i + k + count) := by
  induction count generalizing k with
  | zero => rfl
  | succ count ih =>
    rw [overlapCopy, byteAt_firstBytes (by omega), ← h k (Nat.le_refl k) (by omega), ← firstBytes_succ, Nat.add_assoc i k,
      ih fun j hj hj' => h j (by omega) (by omega)]
    congr 1
    omega

/-- At a loop head: the accumulator is the input just before I (R31), and the output decompresses to the input before it. -/
structure Describes (input : Nat → Byte) (i : Nat) (acc out : List Byte) : Prop where
  accLe : acc.length ≤ i
  accIs : firstBytes input (i - acc.length) ++ acc = firstBytes input i
  decompresses : decompressBytes out = .ok (firstBytes input (i - acc.length))

namespace Describes

variable {input : Nat → Byte} {n i : Nat} {acc out : List Byte}

/-- A literal step. -/
theorem literal (h : Describes input i acc out) : Describes input (i + 1) (acc ++ [input i]) out := by
  have hlen : i + 1 - (acc ++ [input i]).length = i - acc.length := by simp
  refine ⟨by simpa using h.accLe, ?_, by rw [hlen]; exact h.decompresses⟩
  rw [hlen, ← List.append_assoc, h.accIs, firstBytes_succ]

/-- A flush of the accumulator. -/
theorem flushed (h : Describes input i acc out) (hl : acc.length ≤ 65535) :
    Describes input i [] (out ++ literalBytes acc) :=
  ⟨Nat.zero_le i, List.append_nil _, by rw [decompressBytes_literalBytes h.decompresses hl, h.accIs]; rfl⟩

/-- The back-reference of a match. -/
theorem matched (h : Describes input i [] out) (hi : i < n) (hq : 7 ≤ (findMatch input n i).bestLen) :
    Describes input (i + (findMatch input n i).bestLen) []
      (out ++ backRefBytes (findMatch input n i).bestDist (findMatch input n i).bestLen) := by
  obtain ⟨hd1, hdi, hd2, hl, -, hrep⟩ := findMatch_valid hi (by omega : 1 ≤ (findMatch input n i).bestLen)
  refine ⟨Nat.zero_le _, List.append_nil _, ?_⟩
  have hout : decompressBytes out = .ok (firstBytes input i) := h.decompresses
  rw [decompressBytes_backRefBytes hout hd1 hd2 (by omega) (by simpa using hdi), firstBytes_length]
  exact congrArg _ (overlapCopy_firstBytes (k := 0) (by omega) fun j _ hj => hrep j (by omega))

end Describes

theorem describes_loopInvariant (input : Nat → Byte) (n : Nat) : LoopInvariant input n (Describes input) where
  afterMatch hi hq hl h := (h.flushed (Nat.le_of_lt hl)).matched hi hq
  afterLiteral _ _ h := h.literal
  afterFlush _ hl h := h.literal.flushed (by simp; omega)

/-- At a loop head of the machine the two say the same (R31). -/
theorem State.AtLoopHead.describes {s : State} (h : s.AtLoopHead) (hd : s.EmittedDescribesInput) :
    Describes (ibufByte s) s.i s.acc s.result where
  accLe := h.accLen ▸ h.accLe
  accIs := by
    have hsplit := ibufSlice_append s 0 (s.i - s.accLen) s.accLen
    rw [Nat.zero_add, ← h.accIs, Nat.sub_add_cancel h.accLe, ibufSlice_zero, ibufSlice_zero] at hsplit
    rw [h.accLen, hsplit]
  decompresses := by
    rw [h.accLen, ← ibufSlice_zero]
    exact hd

theorem Describes.emitted {s : State} (h : Describes (ibufByte s) s.i s.acc s.result) (hl : s.acc.length = s.accLen) :
    s.EmittedDescribesInput := by
  rw [State.EmittedDescribesInput, ibufSlice_zero, ← hl]
  exact h.decompresses

/-- The start has emitted nothing, and all of the input before I is in the accumulator (R151). -/
theorem emittedDescribesInput_start {s t : State} (hb : s.status ≠ .busy) (ht : exec .compress s = .next t)
    (htb : t.status = .busy) : t.EmittedDescribesInput := by
  rw [exec_compress_notBusy hb, Host.Outcome.next.injEq] at ht
  subst ht
  split at htb
  · simp at htb
  · split at htb
    · simp at htb
    · next hc hn =>
      rw [if_neg hc, if_neg hn]
      rfl

/-- Settles O51: each step of the machine is one of the loop, the finish its last flush. -/
theorem emittedChunksDescribeInput : Obligations.EmittedChunksDescribeInput := by
  refine ⟨fun s t => emittedDescribesInput_start, fun s t h hm hd ht hne => ?_⟩
  have hb : s.status = .busy := h.coherent.busyMode.2 (by rw [hm]; decide)
  have hh := h.compressing hm
  have hD := hh.describes hd
  have hshort : s.acc.length < 65535 := hh.accLen ▸ hh.accShort
  have hloop := describes_loopInvariant (ibufByte s) s.n
  rw [engineTurn_compressing hb hm] at ht
  rcases compressorTurn_cases hh with ⟨hi, hq, -, he⟩ | ⟨hi, -, hs, he⟩ | ⟨hi, -, hs, -, he⟩ | ⟨-, -, he⟩ | ⟨u, -, -, he⟩
  all_goals
    rw [he, Host.Outcome.next.injEq] at ht
    subst ht
  · have hD' := hloop.afterMatch hi hq hshort hD
    rw [List.append_assoc, ← matchBytes, ← (afterMatch_appended s).result] at hD'
    rw [afterMatch_eq] at hD' ⊢
    exact hD'.emitted rfl
  · exact hD.literal.emitted (by simp [hh.accLen])
  · have hD' := hloop.afterFlush hi (hh.accLen ▸ hs) hD
    rw [← (afterFlush_appended s).result] at hD'
    rw [afterFlush_eq] at hD' ⊢
    exact hD'.emitted rfl
  · have hD' := hD.flushed (Nat.le_of_lt hshort)
    rw [← (afterFinish_appended s).result] at hD'
    rw [afterFinish_eq] at hD' ⊢
    exact hD'.emitted rfl
  · exact absurd rfl hne

end Sys2Proof.Machine
end

section
/-! The decompressor family, one chunk: the next state of a literal chunk and of a back-reference, applied or ended by an error
(R195 to R206), and the step that runs it (R194, R207, R208). -/

namespace Sys2Proof.Machine

/-! ### A literal chunk (R196, R197, R202) -/

/-- A byte of the appended run. -/
theorem Appended.getElem? {vs : List Byte} {s t : State} (h : Appended vs s t) {j : Nat} (hj : j < vs.length) :
    vs[j]? = some (obufByte t (s.outLen + j)) := by
  rw [← obufSlice_getElem? t hj, h.slice]

/-- The state after a literal chunk that is applied: its payload is appended. -/
theorem literal_appended (length header : Nat) (s : State) :
    Appended (ibufSlice s (s.rp + header) length) s
      (advancePastLiteral (copyLiteral length (literalStart length header s))) := by
  rw [literal_applied]
  exact ⟨by rw [outAppendSeq_eq], rfl, by rw [ibufSlice_length]⟩

/-- Settles O8: all that a literal chunk can do, its copy read as one append of the payload. -/
theorem literalChunkEffect : Obligations.LiteralChunkEffect := by
  intro i length header s hi
  rw [exec_literal hi]
  rcases literalChunk_cases length header s with ⟨hn, he⟩ | ⟨hn, hc, he⟩ | ⟨hn, hc, he⟩
  · rw [if_pos hn, he]
    exact ⟨_, rfl, errorEntry_entered _ _ s⟩
  · rw [if_neg (Nat.not_lt_of_le hn), if_pos hc, he]
    exact ⟨_, rfl, errorEntry_latched_entered _ _ _ _ _ _ s⟩
  · rw [if_neg (Nat.not_lt_of_le hn), if_neg (by simp [hc]), he]
    have happ := literal_appended length header s
    have hlen := ibufSlice_length s (s.rp + header) length
    refine ⟨_, rfl, by rw [literal_applied], fun j hj => ?_, fun a ha => happ.outside (by rwa [hlen])⟩
    have hbyte := happ.getElem? (hlen.symm ▸ hj)
    rw [ibufSlice_getElem? s hj, Option.some.injEq] at hbyte
    exact hbyte.symm

/-! ### A back-reference (R198 to R201, R203 to R205) -/

/-- The state that a back-reference leaves where it is applied. -/
def afterRef (distance length header : Nat) (s : State) : State :=
  advancePastRef (copyBack length (refStart distance length header s))

section
variable {distance length header : Nat} {s : State}

/-- R205: the appended bytes repeat the last `distance` bytes of the output. -/
theorem obufByte_afterRef_periodic (h1 : 1 ≤ distance) (hd : distance ≤ s.outLen) {j : Nat} (hj : j < length) :
    obufByte (afterRef distance length header s) (s.outLen + j) = obufByte s (s.outLen - distance + j % distance) :=
  obufByte_copyBack_periodic length (refStart distance length header s) distance h1 (Nat.sub_add_cancel hd) j hj

/-- R204: an appended byte is the byte `distance` before it, in the output as it ends. -/
theorem obufByte_afterRef_source (h1 : 1 ≤ distance) (hd : distance ≤ s.outLen) {j : Nat} (hj : j < length) :
    obufByte (afterRef distance length header s) (s.outLen + j) =
      obufByte (afterRef distance length header s) (s.outLen + j - distance) := by
  have hsource := obufByte_copyBack_source length (refStart distance length header s)
    (Nat.sub_lt_of_pos_le h1 hd : s.outLen - distance < s.outLen) hj
  have hpos : s.outLen - distance + j = s.outLen + j - distance := by omega
  exact hpos ▸ hsource

theorem obufByte_afterRef_outside {a : Nat} (ha : a < s.outLen ∨ s.outLen + length ≤ a) :
    obufByte (afterRef distance length header s) a = obufByte s a :=
  obufByte_copyBack_outside length (refStart distance length header s) ha

end

/-- Settles O9: all that a back-reference can do, its copy by the closed form of R205. -/
theorem backReferenceEffect : Obligations.BackReferenceEffect := by
  intro i distance length header s hi
  rw [exec_backRef hi]
  rcases refChunk_cases distance length header s with ⟨hd, he⟩ | ⟨h1, hd, hc, he⟩ | ⟨h1, hd, hc, he⟩
  · rw [if_pos hd, he]
    exact ⟨_, rfl, errorEntry_latched_entered _ _ _ _ _ _ s⟩
  · rw [if_neg (by omega), if_pos hc, he]
    exact ⟨_, rfl, errorEntry_latched_entered _ _ _ _ _ _ s⟩
  · rw [if_neg (by omega), if_neg (by simp [hc]), he]
    exact ⟨_, rfl, by rw [ref_applied], fun j hj => obufByte_afterRef_periodic h1 hd hj,
      fun a ha => obufByte_afterRef_outside ha⟩

/-- Settles O10: only a back-reference that is applied moves RP, and its copy is the loop of R204. -/
theorem copySeesItsOwnOutput : Obligations.CopySeesItsOwnOutput := by
  intro i distance length header s t hi ht hrp j hj
  rw [exec_backRef hi] at ht
  rcases refChunk_cases distance length header s with ⟨-, he⟩ | ⟨-, -, -, he⟩ | ⟨h1, hd, -, he⟩
  all_goals
    rw [he] at ht
    injection ht with ht
    subst ht
  · exact absurd rfl hrp
  · exact absurd rfl hrp
  · exact obufByte_afterRef_source h1 hd hj

/-- Settles O11: by O9, which of its three ends a back-reference comes to, and the output there, do not depend on the
header. -/
theorem spellingDoesNotMatter : Obligations.SpellingDoesNotMatter := by
  intro i i' distance length header header' s t t' hi hi' ht ht'
  have heff := backReferenceEffect i distance length header s hi
  have heff' := backReferenceEffect i' distance length header' s hi'
  rw [ht] at heff
  rw [ht'] at heff'
  simp only [Host.Outcome.next.injEq, exists_eq_left'] at heff heff'
  split at heff
  · next hd =>
    rw [if_pos hd] at heff'
    rw [heff, heff']
    exact ⟨rfl, rfl, rfl, rfl, fun a ha => absurd ha (Nat.not_lt_zero a)⟩
  · next hd =>
    rw [if_neg hd] at heff'
    split at heff
    · next hc =>
      rw [if_pos hc] at heff'
      rw [heff, heff']
      exact ⟨rfl, rfl, rfl, rfl, fun a ha => absurd ha (Nat.not_lt_zero a)⟩
    · next hc =>
      rw [if_neg hc] at heff'
      obtain ⟨heq, hcopy, hout⟩ := heff
      obtain ⟨heq', hcopy', hout'⟩ := heff'
      refine ⟨by rw [heq, heq'], by rw [heq, heq'], by rw [heq, heq'], by rw [heq, heq'], fun a ha => ?_⟩
      have hlen : t.outLen = s.outLen + length := by rw [heq]
      rcases Nat.lt_or_ge a s.outLen with hlt | hge
      · rw [hout a (.inl hlt), hout' a (.inl hlt)]
      · obtain ⟨j, rfl⟩ := Nat.exists_eq_add_of_le hge
        rw [hcopy j (by omega), hcopy' j (by omega)]

/-! ### The step that runs a chunk (R194, R207, R208) -/

/-- Where the decompressor has the turn and the stream at RP decodes, the step is exec of what it decodes to. -/
theorem step_runs {s u : State} {i : Instr} (ht : EngineHasTurn s u) (hu : u.atChunk)
    (hd : decodeChunk (ibufSlice u u.rp (u.n - u.rp)) = .ok i) : step s = exec i u := by
  rw [step_of_atChunk ht hu]
  rcases decompStep_stream u with ⟨c, hd', -⟩ | ⟨i', hd', he⟩
  · simp [hd] at hd'
  · obtain rfl : i = i' := by simpa [hd] using hd'
    exact he

/-- Settles O16: taking a `yield` off the inbox changes nothing that the decoder reads. -/
theorem stepRunsDecodedChunk : Obligations.StepRunsDecodedChunk := fun _ _ hb hm hrp hd =>
  ⟨fun hin => step_runs (.inl ⟨hin, rfl⟩) ⟨hb, hm, hrp⟩ hd,
    fun rest hin => step_runs (.inr ⟨rest, hin, rfl⟩) ⟨hb, hm, hrp⟩ hd⟩

theorem decompressorTurn_end {s : State} (h : s.rp = s.n) : decompressorTurn s = .next (finishOperation s) := by
  rw [decompressorTurn, if_neg (Nat.not_lt_of_le (Nat.le_of_eq h.symm)), if_pos h]

/-- Settles O21: at RP = N the turn is the finish. -/
theorem decompressFinishes : Obligations.DecompressFinishes := by
  intro s hb hm hin hrp
  rw [step_engine hin, engineTurn_decompressing hb hm, decompressorTurn_end hrp]
  rfl

/-! ### The errors of DECOMPRESS (R211) -/

/-- R24: while an operation runs no error is recorded. -/
theorem State.Inv.err_of_busy {s : State} (h : s.Inv) (hb : s.status = .busy) : s.err = .none := by
  by_contra he
  simpa [hb] using h.coherent.errStatus.2 he

theorem literalChunk_err {s t : State} {length header : Nat} (ht : (literalChunk length header s).outcome = .next t) :
    t.err = s.err ∨ t.err = .truncPayload ∨ t.err = .outOverflow := by
  rcases literalChunk_cases length header s with ⟨-, he⟩ | ⟨-, -, he⟩ | ⟨-, -, he⟩
  all_goals
    rw [he] at ht
    injection ht with ht
    subst ht
  · exact .inr (.inl rfl)
  · exact .inr (.inr rfl)
  · exact .inl (by rw [literal_applied])

theorem refChunk_err {s t : State} {distance length header : Nat}
    (ht : (refChunk distance length header s).outcome = .next t) :
    t.err = s.err ∨ t.err = .badDistance ∨ t.err = .outOverflow := by
  rcases refChunk_cases distance length header s with ⟨-, he⟩ | ⟨-, -, -, he⟩ | ⟨-, -, -, he⟩
  all_goals
    rw [he] at ht
    injection ht with ht
    subst ht
  · exact .inr (.inl rfl)
  · exact .inr (.inr rfl)
  · exact .inl (by rw [ref_applied])

/-- A chunk step leaves ERR, or records a cause of the decoder (R131, R135, R136), of a literal or of a back-reference. -/
theorem decompStep_err {s t : State} (hrp : s.rp < s.n) (ht : decompStep s = .next t) :
    t.err = s.err ∨ t.err = .reservedTag ∨ t.err = .truncHeader ∨ t.err = .truncPayload ∨ t.err = .badDistance ∨
      t.err = .outOverflow := by
  rcases decompStep_cases s hrp with ⟨c, hc, -, he⟩ | ⟨_, _, _, -, -, -, -, -, -, he⟩ |
    ⟨_, _, _, _, -, -, -, -, -, -, -, he⟩
  · rw [he, Host.Outcome.next.injEq] at ht
    subst ht
    exact .inr (hc.imp id .inl)
  · have := literalChunk_err (he ▸ ht)
    tauto
  · have := refChunk_err (he ▸ ht)
    tauto

/-- Settles O31: ERR is clear before the step; a chunk step records one of the causes, the finish none. -/
theorem decompressErrors : Obligations.DecompressErrors := by
  refine ⟨fun s t h hb hm ht => ?_, fun s t hb ht => ?_⟩
  · have herr := h.err_of_busy hb
    rw [engineTurn_decompressing hb hm] at ht
    rcases Nat.eq_or_lt_of_le (h.decompressing hm).rpLe with hn | hn
    · rw [decompressorTurn_end hn, Host.Outcome.next.injEq] at ht
      exact .inl (ht ▸ herr)
    · rw [decompressorTurn, if_pos hn] at ht
      exact herr ▸ decompStep_err hn ht
  · rw [exec_decompress_notBusy hb, Host.Outcome.next.injEq] at ht
    subst ht
    split
    · exact .inr rfl
    · exact .inl rfl

end Sys2Proof.Machine
end

section
/-! The decompressor family, DECOMPRESS as a whole: a run of the machine follows the whole-operation function (R209). -/

namespace Sys2Proof.Machine

/-! ### Slices of the stream -/

theorem drop_ibufSlice (s : State) {a n : Nat} (h : a ≤ n) : (ibufSlice s 0 n).drop a = ibufSlice s a (n - a) := by
  have hsplit := ibufSlice_append s 0 a (n - a)
  rw [Nat.add_sub_of_le h, Nat.zero_add] at hsplit
  rw [hsplit, List.drop_left' (ibufSlice_length s 0 a)]

theorem take_ibufSlice (s : State) (a : Nat) {c n : Nat} (h : c ≤ n) : (ibufSlice s a n).take c = ibufSlice s a c := by
  have hsplit := ibufSlice_append s a c (n - c)
  rw [Nat.add_sub_of_le h] at hsplit
  rw [hsplit, List.take_left' (ibufSlice_length s a c)]

/-- R10: the bytes of the result. -/
theorem byteAt_result (s : State) {a : Nat} (h : a < s.outLen) : byteAt s.result a = obufByte s a := by
  rw [byteAt, State.result, List.getD_eq_getElem?_getD, obufSlice_getElem? s h, Nat.zero_add, Option.getD_some]

theorem State.result_length (s : State) : s.result.length = s.outLen := obufSlice_length s 0 s.outLen

/-! ### One chunk (R202, R204) -/

/-- One turn of the overlap copy appends the byte it reads. -/
theorem result_copyBackByte (s : State) : (copyBackByte s).result = s.result ++ [obufByte s (s.base + s.k)] :=
  Appended.result ⟨rfl, rfl, rfl⟩

/-- The overlap copy of the machine is that of the function. -/
theorem result_copyBack (count : Nat) (s : State) (h : s.base + s.k < s.outLen) :
    (copyBack count s).result = overlapCopy s.base count s.k s.result := by
  induction count generalizing s with
  | zero => rfl
  | succ count ih =>
    rw [copyBack, ih (copyBackByte s) (Nat.succ_lt_succ h), result_copyBackByte, overlapCopy, byteAt_result s h]
    rfl

/-- How a chunk's flow in `s` follows the function's answer for that chunk: it overflows, or raises the answer's cause, or
goes on with the answer as its output and RP at `rp`. -/
def FollowsChunk (s : State) (x : Flow) (answer : Except Cause (List Byte)) (rp : Nat) : Prop :=
  (s.cfg.outCap ≠ none ∧ ∃ u, x = .ended (errorEntry .outOverflow s.rp u)) ∨
  (∃ cause u, answer = .error cause ∧ x = .ended (errorEntry cause s.rp u)) ∨
  ∃ t, answer = .ok t.result ∧ x = .go t ∧ t.rp = rp

theorem outCap_ne_none {cap : Option Nat} {v : Nat} (h : capAdmits cap v = false) : cap ≠ none := by
  rintro rfl
  simp [capAdmits] at h

theorem literalChunk_follows (length header : Nat) (s : State) :
    FollowsChunk s (literalChunk length header s)
      (applyLiteralBytes (ibufSlice s 0 s.n) s.rp header length s.result) (s.rp + header + length) := by
  rcases literalChunk_cases length header s with ⟨hn, he⟩ | ⟨-, hc, he⟩ | ⟨hn, -, he⟩
  · exact .inr (.inl ⟨_, s, by rw [applyLiteralBytes, if_pos (by simpa using hn)], he⟩)
  · exact .inl ⟨outCap_ne_none hc, _, he⟩
  · refine .inr (.inr ⟨_, applyLiteralBytes_ok.2 ⟨by simpa using hn, ?_⟩, he, by rw [literal_applied]⟩)
    rw [(literal_appended length header s).result, drop_ibufSlice s (by omega), take_ibufSlice s _ (by omega)]

theorem refChunk_follows (distance length header : Nat) (s : State) :
    FollowsChunk s (refChunk distance length header s) (applyRefBytes distance length s.result) (s.rp + header) := by
  rcases refChunk_cases distance length header s with ⟨hd, he⟩ | ⟨-, -, hc, he⟩ | ⟨h1, hd, -, he⟩
  · exact .inr (.inl ⟨_, _, by rw [applyRefBytes, s.result_length, if_pos hd], he⟩)
  · exact .inl ⟨outCap_ne_none hc, _, he⟩
  · refine .inr (.inr ⟨_, ?_, he, by rw [ref_applied]⟩)
    rw [applyRefBytes, s.result_length, if_neg (by omega)]
    exact congrArg _ (result_copyBack length (refStart distance length header s)
      (Nat.sub_lt_of_pos_le h1 hd : s.outLen - distance < s.outLen)).symm

theorem sizes_of_isLiteral {i : Instr} {length header : Nat} (h : IsLiteral i length header) :
    i.headerSize = header ∧ i.payloadSize = length := by
  rcases h with ⟨rfl, rfl⟩ | ⟨rfl, rfl⟩ <;> exact ⟨rfl, rfl⟩

theorem sizes_of_isBackRef {i : Instr} {distance length header : Nat} (h : IsBackRef i distance length header) :
    i.headerSize = header ∧ i.payloadSize = 0 := by
  rcases h with ⟨rfl, rfl⟩ | ⟨rfl, rfl⟩ | ⟨rfl, rfl⟩ | ⟨rfl, rfl⟩ <;> exact ⟨rfl, rfl⟩

/-- A chunk step enters an error with the decoder's cause, or runs a flow that follows the function's answer for the chunk,
and whose RP, where it goes on, has moved up but not beyond N. -/
theorem decompStep_follows {s : State} (hrp : s.rp < s.n) :
    (∃ cause, decodeChunk (ibufSlice s s.rp (s.n - s.rp)) = .error cause ∧
      decompStep s = .next (errorEntry cause s.rp s)) ∨
    ∃ i x, decodeChunk (ibufSlice s s.rp (s.n - s.rp)) = .ok i ∧ decompStep s = x.outcome ∧ x.Keeps s ∧
      FollowsChunk s x (applyChunkBytes i (ibufSlice s 0 s.n) s.rp s.result) (s.rp + i.headerSize + i.payloadSize) := by
  rcases decompStep_cases s hrp with ⟨c, -, hd, he⟩ | ⟨i, length, header, hd, hi, -, -, -, -, he⟩ |
    ⟨i, distance, length, header, hd, hi, -, -, -, -, -, he⟩
  · exact .inl ⟨c, hd, he⟩
  · obtain ⟨hh, hp⟩ := sizes_of_isLiteral hi
    refine .inr ⟨i, _, hd, he, literalChunk_keeps length header s, ?_⟩
    rw [applyChunkBytes_literal hi, hh, hp]
    exact literalChunk_follows length header s
  · obtain ⟨hh, hp⟩ := sizes_of_isBackRef hi
    refine .inr ⟨i, _, hd, he, refChunk_keeps distance length header s, ?_⟩
    rw [applyChunkBytes_backRef hi, hh, hp]
    exact refChunk_follows distance length header s

/-! ### The function's loop, where it fails (R209) -/

theorem decompressLoop_rejected {input : List Byte} {rp : Nat} {cause : Cause} (hrp : rp < input.length)
    (hd : decodeChunk (input.drop rp) = .error cause) (fuel : Nat) (out : List Byte) :
    decompressLoop input (fuel + 1) rp out = .error cause := by
  rw [decompressLoop, if_pos hrp, hd]

theorem decompressLoop_failed {input : List Byte} {rp : Nat} {i : Instr} {out : List Byte} {cause : Cause}
    (hrp : rp < input.length) (hd : decodeChunk (input.drop rp) = .ok i)
    (ha : applyChunkBytes i input rp out = .error cause) (fuel : Nat) :
    decompressLoop input (fuel + 1) rp out = .error cause := by
  rw [decompressLoop, if_pos hrp, hd]
  simp only [ha]

/-! ### A run follows the function (R209) -/

/-- A DECOMPRESS at a chunk boundary, no host access pending. -/
structure State.Decompressing (s : State) : Prop where
  busy : s.status = .busy
  mode : s.mode = .decompressing
  inbox : s.inbox = []
  rpLe : s.rp ≤ s.n

/-- The whole-operation function, taken up at the chunk boundary that the machine stands at. -/
def decompressFrom (fuel : Nat) (s : State) : Except Cause (List Byte) :=
  decompressLoop (ibufSlice s 0 s.n) fuel s.rp s.result

/-- The run from `s` ends, with OUT_OVERFLOW under a finite OUT_CAP or as the function's answer says. -/
def EndsAs (s : State) (answer : Except Cause (List Byte)) : Prop :=
  ∃ k t, runSteps k s = .next t ∧ t.ended = true ∧
    ((s.cfg.outCap ≠ none ∧ t.err = .outOverflow) ∨
      (∃ out, answer = .ok out ∧ t.status = .done ∧ t.result = out) ∨
      ∃ cause, answer = .error cause ∧ t.status = .error ∧ t.err = cause)

theorem EndsAs.of_step {s t : State} {answer : Except Cause (List Byte)} (hst : step s = .next t) (hcfg : t.cfg = s.cfg)
    (h : EndsAs t answer) : EndsAs s answer := by
  obtain ⟨k, u, hrun, hend, hres⟩ := h
  rw [hcfg] at hres
  exact ⟨k + 1, u, (runSteps_succ hst k).trans hrun, hend, hres⟩

theorem EndsAs.of_error {s u : State} {pos : Nat} {cause : Cause} (hst : step s = .next (errorEntry cause pos u)) :
    EndsAs s (.error cause) :=
  ⟨1, _, runSteps_succ hst 0, rfl, .inr (.inr ⟨cause, rfl, rfl, rfl⟩)⟩

theorem EndsAs.of_overflow {s u : State} {pos : Nat} (hst : step s = .next (errorEntry .outOverflow pos u))
    (hcap : s.cfg.outCap ≠ none) (answer : Except Cause (List Byte)) : EndsAs s answer :=
  ⟨1, _, runSteps_succ hst 0, rfl, .inl ⟨hcap, rfl⟩⟩

section
variable {s : State}

theorem State.Decompressing.step_eq (h : s.Decompressing) : step s = decompressorTurn s :=
  (step_engine h.inbox).trans (engineTurn_decompressing h.busy h.mode)

/-- At N a step of DECOMPRESS ends DONE with the output so far, and so does the function. -/
theorem decompressing_finishes (h : s.Decompressing) (hn : s.rp = s.n) (fuel : Nat) : EndsAs s (decompressFrom fuel s) := by
  have hend : decompressFrom fuel s = .ok s.result :=
    decompressLoop_end (Nat.le_of_eq ((ibufSlice_length s 0 s.n).trans hn.symm)) fuel s.result
  rw [hend]
  exact ⟨1, _, runSteps_succ (h.step_eq.trans (decompressorTurn_end hn)) 0, rfl, .inr (.inl ⟨_, rfl, rfl, rfl⟩)⟩

/-- Below N a step of DECOMPRESS overflows, or ends with the function's error, or goes on to the chunk boundary that the
function goes to. -/
theorem decompressing_iterates (h : s.Decompressing) (hrp : s.rp < s.n) :
    (∃ pos u, step s = .next (errorEntry .outOverflow pos u) ∧ s.cfg.outCap ≠ none) ∨
    (∃ cause pos u, step s = .next (errorEntry cause pos u) ∧ ∀ fuel, decompressFrom (fuel + 1) s = .error cause) ∨
    ∃ t, step s = .next t ∧ t.Decompressing ∧ Keeps s t ∧ s.rp < t.rp ∧
      ∀ fuel, decompressFrom (fuel + 1) s = decompressFrom fuel t := by
  have hlt : s.rp < (ibufSlice s 0 s.n).length := by rwa [ibufSlice_length]
  have hdrop := drop_ibufSlice s h.rpLe
  have hst : step s = decompStep s := h.step_eq.trans (if_pos hrp)
  rcases decompStep_follows hrp with ⟨cause, hd, he⟩ | ⟨i, x, hd, he, hk, hx⟩
  · rw [← hdrop] at hd
    exact .inr (.inl ⟨cause, _, s, hst.trans he, fun fuel => decompressLoop_rejected hlt hd fuel _⟩)
  · rw [← hdrop] at hd
    rcases hx with ⟨hcap, u, rfl⟩ | ⟨cause, u, ha, rfl⟩ | ⟨t, ha, rfl, hnext⟩
    · exact .inl ⟨_, u, hst.trans he, hcap⟩
    · exact .inr (.inl ⟨cause, _, u, hst.trans he, fun fuel => decompressLoop_failed hlt hd ha fuel⟩)
    · have hk : Keeps s t := hk
      have hle := (applyChunkBytes_append hd (Nat.le_of_lt hlt) ha []).1
      obtain ⟨h1, -, -⟩ := decodeChunk_headerSize hd
      have hslice : ibufSlice t 0 t.n = ibufSlice s 0 s.n := by
        rw [hk.n]
        exact ibufSlice_congr fun j _ => ibufByte_congr hk.ibuf hk.epoch _
      rw [ibufSlice_length] at hle
      refine .inr (.inr ⟨t, hst.trans he, ⟨hk.status.trans h.busy, hk.mode.trans h.mode, hk.inbox.trans h.inbox, ?_⟩, hk,
        by omega, fun fuel => ?_⟩)
      · rw [hnext, hk.n]
        exact hle
      · rw [decompressFrom, decompressFrom, hslice, hnext]
        exact decompressLoop_chunk hlt hd ha fuel

end

/-- The run of a DECOMPRESS ends as the function taken up at its chunk boundary says. -/
theorem decompressing_endsAs {s : State} (h : s.Decompressing) {fuel : Nat} (hf : s.n - s.rp ≤ fuel) :
    EndsAs s (decompressFrom fuel s) := by
  induction fuel generalizing s with
  | zero => exact decompressing_finishes h (Nat.le_antisymm h.rpLe (Nat.le_of_sub_eq_zero (Nat.le_zero.1 hf))) 0
  | succ fuel ih =>
    rcases Nat.eq_or_lt_of_le h.rpLe with hn | hn
    · exact decompressing_finishes h hn _
    · rcases decompressing_iterates h hn with ⟨pos, u, hst, hcap⟩ | ⟨cause, pos, u, hst, hfrom⟩ |
        ⟨t, hst, ht, hk, hadv, hfrom⟩
      · exact .of_overflow hst hcap _
      · exact hfrom fuel ▸ .of_error hst
      · have hn := hk.n
        rw [hfrom fuel]
        exact .of_step hst hk.cfg (ih ht (by omega))

/-- An accepted DECOMPRESS starts at a chunk boundary (R191). -/
theorem decompressing_start {s : State} (hin : s.inbox = []) :
    (seedReadCursor (startOperation .decompressing s)).Decompressing := ⟨rfl, rfl, hin, Nat.zero_le _⟩

/-- The function on the input, taken up where an accepted DECOMPRESS starts. -/
theorem decompressBytes_ibufSlice (s : State) :
    decompressBytes (ibufSlice s 0 s.inLen) =
      decompressFrom s.inLen (seedReadCursor (startOperation .decompressing s)) := by
  rw [decompressBytes, ibufSlice_length]
  rfl

/-- Settles O49: the start is a chunk boundary, and from each chunk boundary the machine and the function go the same way. -/
theorem decompressRunIsDecompress : Obligations.DecompressRunIsDecompress := by
  intro s s' hb hin hc hs
  rw [exec_decompress_notBusy hb, if_neg (by simp [hc]), Host.Outcome.next.injEq] at hs
  subst hs
  obtain ⟨k, t, hrun, hend, hres⟩ := decompressing_endsAs (decompressing_start hin) (Nat.sub_le s.inLen 0)
  rw [← decompressBytes_ibufSlice] at hres
  refine ⟨k, t, hrun, hend, hres.imp id ?_⟩
  rintro (⟨out, ho, hok⟩ | ⟨cause, he, herr⟩)
  · rw [ho]
    exact hok
  · rw [he]
    exact herr

end Sys2Proof.Machine
end

section
/-! The decompressor family, the round trip (R212): of the two functions, then of two runs of the machine. -/

namespace Sys2Proof.Machine

/-! ### The functions -/

/-- A whole input is its first bytes. -/
theorem firstBytes_byteAt (b : List Byte) : firstBytes (byteAt b) b.length = b := by
  apply List.ext_getElem?
  intro j
  by_cases hj : j < b.length
  · simp [firstBytes, byteAt, hj]
  · simp [firstBytes, hj]

/-- Before its first byte the loop has described nothing. -/
theorem describes_zero (input : Nat → Byte) : Describes input 0 [] [] := ⟨Nat.le_refl 0, rfl, rfl⟩

/-- What Compress answers decompresses to its input: at I = N the output describes the input before the accumulator, and the
last flush adds the accumulator. -/
theorem decompressBytes_of_compressBytes {b c : List Byte} (hc : compressBytes b = .ok c) :
    decompressBytes c = .ok b := by
  have hstart : Describes (byteAt b) 1 [byteAt b 0] [] := (describes_zero (byteAt b)).literal
  obtain ⟨acc, out, hl, hD, rfl⟩ := (describes_loopInvariant _ _).compressBytes hstart hc
  rw [decompressBytes_literalBytes hD.decompresses (Nat.le_of_lt hl), hD.accIs, firstBytes_byteAt]

/-- Settles O52, from the invariant of R172. -/
theorem roundTrip : Obligations.RoundTrip := by
  intro b hb
  obtain ⟨c, hc⟩ := compressBytes_ok (b := b) (by simpa using hb)
  exact ⟨c, hc, decompressBytes_of_compressBytes hc⟩

/-! ### Runs without host accesses -/

/-- What every step keeps, no host access pending, holds where a run ends. -/
theorem runSteps_keeps {P : State → Prop} (hP : ∀ s t, P s → step s = .next t → P t) {k : Nat} {s t : State} (hs : P s)
    (h : runSteps k s = .next t) : P t := by
  induction k generalizing s with
  | zero =>
    rw [runSteps_zero, Host.Outcome.next.injEq] at h
    exact h ▸ hs
  | succ k ih =>
    obtain ⟨u, hu, hrun⟩ := runSteps_inv h
    exact ih (hP s u hs hu) hrun

/-- No host access is pending, and a cause stands in ERR only after an error. -/
def State.Undisturbed (s : State) : Prop := s.inbox = [] ∧ (s.status = .error ∨ s.err = .none)

theorem step_keeps_undisturbed (s t : State) (h : s.Undisturbed) (ht : step s = .next t) : t.Undisturbed := by
  obtain ⟨hin, herr⟩ := h
  rw [step_engine hin] at ht
  rcases engineTurn_cases ht with ⟨-, rfl⟩ | ⟨hb, hk | ⟨c, pos, u, hk, rfl⟩ | ⟨u, hk, rfl⟩⟩
  · exact ⟨hin, herr⟩
  · exact ⟨hk.inbox.trans hin, by rwa [hk.status, hk.err]⟩
  · exact ⟨hk.inbox.trans hin, .inl rfl⟩
  · have hnone := herr.resolve_left (by simp [hb])
    exact ⟨hk.inbox.trans hin, .inr (hk.err.trans hnone)⟩

/-- Both commands start so. -/
theorem exec_start_undisturbed {s t : State} {i : Instr} (hi : i = .compress ∨ i = .decompress) (hb : s.status ≠ .busy)
    (hin : s.inbox = []) (ht : exec i s = .next t) : t.Undisturbed := by
  rcases exec_start_cases hi ht with ⟨hb', -⟩ | ⟨-, ⟨m, c, -, -, rfl⟩ | ⟨-, -, rfl⟩ | ⟨-, rfl⟩⟩
  · exact absurd hb' hb
  · exact ⟨hin, .inl rfl⟩
  · exact ⟨hin, .inr rfl⟩
  · exact ⟨hin, .inr rfl⟩

/-- An operation that has ended stays as it is. -/
theorem runSteps_ended {s : State} (hin : s.inbox = []) (hend : s.ended = true) (k : Nat) : runSteps k s = .next s := by
  have hnb : s.status ≠ .busy := by
    intro hb
    simp [State.ended, hb] at hend
  induction k with
  | zero => rfl
  | succ k ih => rw [runSteps_succ ((step_engine hin).trans (engineTurn_notBusy hnb)), ih]

/-- Two runs from one state, each to the operation's end, end in one state. -/
theorem runSteps_ended_unique {s t t' : State} {k k' : Nat} (hs : s.Undisturbed) (h : runSteps k s = .next t)
    (h' : runSteps k' s = .next t') (hend : t.ended = true) (hend' : t'.ended = true) : t = t' := by
  obtain ⟨hin, -⟩ := runSteps_keeps step_keeps_undisturbed hs h
  obtain ⟨hin', -⟩ := runSteps_keeps step_keeps_undisturbed hs h'
  have hk := (runSteps_add h k').trans (runSteps_ended hin hend k')
  have hk' := (runSteps_add h' k).trans (runSteps_ended hin' hend' k)
  rw [Nat.add_comm, hk, Host.Outcome.next.injEq] at hk'
  exact hk'

/-- An operation whose start is IN_OVERFLOW (R257) has ended, and a run from there stays. -/
theorem runSteps_inOverflow {s s' t : State} {i : Instr} {k : Nat} (hi : i = .compress ∨ i = .decompress)
    (hb : s.status ≠ .busy) (hin : s.inbox = []) (hc : capAdmits s.cfg.inCap s.inLen = false) (hs : exec i s = .next s')
    (hrun : runSteps k s' = .next t) : t.status = .error ∧ t.err = .inOverflow := by
  have hstart : ∃ m, s' = errorEntry .inOverflow 0 (startOperation m s) := by
    rcases hi with rfl | rfl
    · rw [exec_compress_notBusy hb, if_pos hc, Host.Outcome.next.injEq] at hs
      exact ⟨_, hs.symm⟩
    · rw [exec_decompress_notBusy hb, if_pos hc, Host.Outcome.next.injEq] at hs
      exact ⟨_, hs.symm⟩
  obtain ⟨m, rfl⟩ := hstart
  rw [runSteps_ended (s := errorEntry .inOverflow 0 (startOperation m s)) hin rfl, Host.Outcome.next.injEq] at hrun
  subst hrun
  exact ⟨rfl, rfl⟩

/-! ### The two operations on the machine -/

/-- A COMPRESS that has ended DONE holds what the function answers. -/
theorem compress_done {s s' t : State} {k : Nat} (hb : s.status ≠ .busy) (hin : s.inbox = []) (hn : s.inLen ≠ 0)
    (hs : exec .compress s = .next s') (hrun : runSteps k s' = .next t) (hdone : t.status = .done) :
    compressBytes (ibufSlice s 0 s.inLen) = .ok t.result := by
  have hu := exec_start_undisturbed (.inl rfl) hb hin hs
  cases hc : capAdmits s.cfg.inCap s.inLen with
  | false =>
    have := (runSteps_inOverflow (.inl rfl) hb hin hc hs hrun).1
    simp [hdone] at this
  | true =>
    obtain ⟨k', t', hrun', hend', hres⟩ := compressRunIsCompress s s' hb hin hc hn hs
    obtain rfl := runSteps_ended_unique hu hrun hrun' (by simp [State.ended, hdone]) hend'
    have herr : t.err = .none := (runSteps_keeps step_keeps_undisturbed hu hrun).2.resolve_left (by simp [hdone])
    rcases hres with ⟨-, hover⟩ | hres
    · simp [herr] at hover
    · cases hcb : compressBytes (ibufSlice s 0 s.inLen) with
      | ok c =>
        rw [hcb] at hres
        rw [hres.2]
      | error cause =>
        rw [hcb] at hres
        have := hres.1
        simp [hdone] at this

/-- A DECOMPRESS that has ended without a capacity fault, on a stream that decompresses, holds what the function answers. -/
theorem decompress_done {u u' v : State} {j : Nat} {out : List Byte} (hb : u.status ≠ .busy) (hin : u.inbox = [])
    (hu : exec .decompress u = .next u') (hrun : runSteps j u' = .next v) (hend : v.ended = true)
    (hne : v.err ≠ .inOverflow) (hne' : v.err ≠ .outOverflow)
    (hout : decompressBytes (ibufSlice u 0 u.inLen) = .ok out) : v.status = .done ∧ v.result = out := by
  have hun := exec_start_undisturbed (.inr rfl) hb hin hu
  cases hc : capAdmits u.cfg.inCap u.inLen with
  | false => exact absurd (runSteps_inOverflow (.inr rfl) hb hin hc hu hrun).2 hne
  | true =>
    obtain ⟨j', v', hrun', hend', hres⟩ := decompressRunIsDecompress u u' hb hin hc hu
    obtain rfl := runSteps_ended_unique hun hrun hrun' hend hend'
    rw [hout] at hres
    exact hres.resolve_left fun h => hne' h.2

/-- Settles O53: the first run leaves what Compress answers, the second what Decompress answers from it. -/
theorem roundTripOnTheMachine : Obligations.RoundTripOnTheMachine := by
  intro s s' t u u' v k j hsb hsin hn hs hrun hdone hub huin _ hload hu hrun' hend hne hne'
  have hc := compress_done hsb hsin hn hs hrun hdone
  refine decompress_done hub huin hu hrun' hend hne hne' ?_
  rw [hload]
  exact decompressBytes_of_compressBytes hc

end Sys2Proof.Machine
end

section
/-! The host commands family, a running operation: an engine's turn always answers, the operation ends within the bytes its
cursor has still to pass (R241, R168, R210), and the turn depends on the operation's own state only (R240). -/

namespace Sys2Proof.Machine

/-! ### The engine is never blocked (R241) -/

/-- At a chunk boundary the decompressor's turn answers: RP is not above N, and a decoded chunk is one of the six forms. -/
theorem decompressorTurn_next {s : State} (h : s.AtChunkBoundary) : ∃ t, decompressorTurn s = .next t := by
  by_cases hrp : s.rp < s.n
  · rw [decompressorTurn, if_pos hrp]
    rcases decompStep_cases s hrp with ⟨c, -, -, he⟩ | ⟨_, _, _, -, -, -, -, -, -, he⟩ |
      ⟨_, _, _, _, -, -, -, -, -, -, -, he⟩
    · exact ⟨_, he⟩
    · rw [he]
      exact Flow.outcome_next _
    · rw [he]
      exact Flow.outcome_next _
  · exact ⟨_, decompressorTurn_end (Nat.le_antisymm h.rpLe (Nat.le_of_not_lt hrp))⟩

theorem compressorTurn_next (s : State) : ∃ t, compressorTurn s = .next t := by
  rw [compressorTurn]
  split
  · exact Flow.outcome_next _
  · exact Flow.outcome_next _

/-- Settles O42: the invariant names an engine while BUSY and keeps RP from passing N, so neither stop is reached. -/
theorem engineIsNeverBlocked : Obligations.EngineIsNeverBlocked := by
  intro s h hin
  rw [step_engine hin]
  by_cases hb : s.status = .busy
  · cases hm : s.mode with
    | none => exact absurd hm (h.coherent.busyMode.1 hb)
    | compressing =>
      rw [engineTurn_compressing hb hm]
      exact compressorTurn_next s
    | decompressing =>
      rw [engineTurn_decompressing hb hm]
      exact decompressorTurn_next (h.decompressing hm)
  · exact ⟨s, engineTurn_notBusy hb⟩

/-! ### The operation ends (R168, R210) -/

/-- Settles O44, by induction on the bytes the cursor has still to pass: a step that does not end the operation passes at
least one. -/
theorem operationEnds : Obligations.OperationEnds := by
  intro s h hb hin
  induction hd : s.n - s.cursor using Nat.strong_induction_on generalizing s with
  | _ d ih =>
    obtain ⟨t, hst⟩ := engineIsNeverBlocked s h hin
    have ht := hst
    rw [step_engine hin] at ht
    by_cases htb : t.status = .busy
    · obtain ⟨-, hn, hlt, hle⟩ := cursorAdvances s t h hb ht htb
      have htin : t.inbox = [] := (keeps_of_busy ht htb).inbox.trans hin
      obtain ⟨k, u, hk, hrun, hend⟩ := ih (t.n - t.cursor) (by omega) t (inv_engineTurn h ht) htb htin rfl
      exact ⟨k + 1, u, by omega, (runSteps_succ hst k).trans hrun, hend⟩
    · have hend : t.ended = true := by
        rcases engineTurn_status ht with hs | ⟨-, hs | hs⟩
        · exact absurd (hs.trans hb) htb
        · simp [State.ended, hs]
        · simp [State.ended, hs]
      exact ⟨1, t, by omega, runSteps_succ hst 0, hend⟩

/-! ### Two states at the same point (R8, R240) -/

/-- Error entry leaves nothing of the operation but its capacities, N, the cause and the position. -/
theorem sameOperation_errorEntry {s t : State} (hcfg : s.cfg = t.cfg) (hn : s.n = t.n) (c : Cause) (pos : Nat) :
    SameOperation (errorEntry c pos s) (errorEntry c pos t) where
  cfg := hcfg
  status := rfl
  mode := rfl
  err := rfl
  errPos := rfl
  outLen := rfl
  n := hn
  i := nofun
  accLen := nofun
  acc := nofun
  rp := nofun
  input := nofun
  output := nofun

namespace SameOperation

variable {s t : State}

theorem errorEntry (h : SameOperation s t) (c : Cause) (pos : Nat) :
    SameOperation (Machine.errorEntry c pos s) (Machine.errorEntry c pos t) := sameOperation_errorEntry h.cfg h.n c pos

theorem latchChunk (h : SameOperation s t) (kind : ChunkKind) (length distance header : Nat) :
    SameOperation (Machine.latchChunk kind length distance header s) (Machine.latchChunk kind length distance header t) :=
  { h with }

theorem finishOperation (h : SameOperation s t) : SameOperation (Machine.finishOperation s) (Machine.finishOperation t) :=
  { h with status := rfl, mode := rfl, i := nofun, accLen := nofun, acc := nofun, rp := nofun, input := nofun }

theorem outAppend (h : SameOperation s t) (v : Byte) : SameOperation (Machine.outAppend v s) (Machine.outAppend v t) :=
  { h with
    outLen := congrArg (· + 1) h.outLen
    output := fun a ha => by
      rw [outAppend_outLen] at ha
      by_cases he : a = s.outLen
      · subst he
        rw [obufByte_outAppend_same, h.outLen, obufByte_outAppend_same]
      · rw [obufByte_outAppend_other v s he, obufByte_outAppend_other v t (h.outLen ▸ he)]
        exact h.output a (by omega) }

theorem outAppendSeq (h : SameOperation s t) (vs : List Byte) :
    SameOperation (Machine.outAppendSeq vs s) (Machine.outAppendSeq vs t) := by
  induction vs generalizing s t with
  | nil => exact h
  | cons v vs ih => exact ih (h.outAppend v)

/-- The overlap copy reads below OUT_LEN only, the bytes it has appended itself included (R204, R300). -/
theorem copyBack (h : SameOperation s t) (hbase : s.base = t.base) (hk : s.k = t.k) (hlt : s.base + s.k < s.outLen)
    (count : Nat) : SameOperation (Machine.copyBack count s) (Machine.copyBack count t) := by
  induction count generalizing s t with
  | zero => exact h
  | succ count ih =>
    have hv : obufByte t (t.base + t.k) = obufByte s (s.base + s.k) := by
      rw [← hbase, ← hk]
      exact (h.output _ hlt).symm
    have hcopied : SameOperation (copyBackByte s) (copyBackByte t) := by
      rw [copyBackByte, copyBackByte, hv]
      exact { h.outAppend (obufByte s (s.base + s.k)) with }
    exact ih hcopied hbase (congrArg (· + 1) hk) (by simp only [copyBackByte, outAppend_base, outAppend_outLen]; omega)

/-- While BUSY the two states share every stretch of input that ends by N (R62). -/
theorem ibufSlice (h : SameOperation s t) (hb : s.status = .busy) {a c : Nat} (hc : a + c ≤ s.n) :
    Machine.ibufSlice s a c = Machine.ibufSlice t a c :=
  ibufSlice_congr fun j hj => h.input hb (a + j) (by omega)

end SameOperation

/-! ### Flows of the two states -/

/-- Both go on, in states related by `R`, or both have been ended at the same point. -/
inductive Flow.Both (R : State → State → Prop) : Flow → Flow → Prop
  | go {s t : State} (h : R s t) : Flow.Both R (.go s) (.go t)
  | ended {s t : State} (h : SameOperation s t) : Flow.Both R (.ended s) (.ended t)

namespace Flow.Both

variable {R R' : State → State → Prop} {x x' y y' : Flow}

theorem andThen {f g : State → Flow} (h : Flow.Both R x y) (hfg : ∀ s t, R s t → Flow.Both R' (f s) (g t)) :
    Flow.Both R' (x.andThen f) (y.andThen g) := by
  cases h with
  | go h => exact hfg _ _ h
  | ended h => exact .ended h

theorem mono (h : Flow.Both R x y) (hR : ∀ s t, R s t → R' s t) : Flow.Both R' x y := by
  cases h with
  | go h => exact .go (hR _ _ h)
  | ended h => exact .ended h

theorem ite {c : Prop} [Decidable c] (hx : c → Flow.Both R x y) (hy : ¬c → Flow.Both R x' y') :
    Flow.Both R (if c then x else x') (if c then y else y') := by
  split
  · next hc => exact hx hc
  · next hc => exact hy hc

/-- Either way the two steps end at the same point. -/
theorem outcome (h : Flow.Both SameOperation x y) {s' : State} (hx : x.outcome = .next s') :
    ∃ t', y.outcome = .next t' ∧ SameOperation s' t' := by
  cases h with
  | go h =>
    injection hx with hx
    exact ⟨_, rfl, hx ▸ h⟩
  | ended h =>
    injection hx with hx
    exact ⟨_, rfl, hx ▸ h⟩

end Flow.Both

/-! ### The decompressor's turn -/

theorem literalChunk_eq (length header : Nat) (s : State) :
    literalChunk length header s =
      if s.n < s.rp + header + length then .ended (errorEntry .truncPayload s.rp s)
      else if capAdmits s.cfg.outCap (s.outLen + length) = true then
        .go (advancePastLiteral (copyLiteral length (literalStart length header s)))
      else .ended (errorEntry .outOverflow s.rp (latchChunk .literal length 0 header s)) := by
  rcases literalChunk_cases length header s with ⟨h1, he⟩ | ⟨h1, hc, he⟩ | ⟨h1, hc, he⟩
  · rw [he, if_pos h1]
  · rw [he, if_neg (Nat.not_lt.2 h1), if_neg (by simp [hc])]
  · rw [he, if_neg (Nat.not_lt.2 h1), if_pos hc]

theorem refChunk_eq (distance length header : Nat) (s : State) :
    refChunk distance length header s =
      if distance = 0 ∨ s.outLen < distance then
        .ended (errorEntry .badDistance s.rp (latchChunk .backRef length distance header s))
      else if capAdmits s.cfg.outCap (s.outLen + length) = true then
        .go (advancePastRef (copyBack length (refStart distance length header s)))
      else .ended (errorEntry .outOverflow s.rp (latchChunk .backRef length distance header s)) := by
  rcases refChunk_cases distance length header s with ⟨h1, he⟩ | ⟨h1, h2, hc, he⟩ | ⟨h1, h2, hc, he⟩
  · rw [he, if_pos h1]
  · rw [he, if_neg (by omega), if_neg (by simp [hc])]
  · rw [he, if_neg (by omega), if_pos hc]

section
variable {s t : State}

theorem literalChunk_both (h : SameOperation s t) (hb : s.status = .busy) (hm : s.mode = .decompressing)
    (length header : Nat) : Flow.Both SameOperation (literalChunk length header s) (literalChunk length header t) := by
  rw [literalChunk_eq, literalChunk_eq, ← h.rp hm, ← h.n, ← h.cfg, ← h.outLen]
  refine .ite (fun _ => .ended (h.errorEntry _ _)) fun hn => .ite (fun _ => .go ?_) fun _ =>
    .ended ((h.latchChunk _ _ _ _).errorEntry _ _)
  have happ := h.outAppendSeq (ibufSlice s (s.rp + header) length)
  rw [outAppendSeq_eq, outAppendSeq_eq, ibufSlice_length] at happ
  rw [literal_applied, literal_applied, ← h.rp hm, ← h.ibufSlice hb (by omega)]
  exact { happ with rp := fun _ => rfl }

theorem refChunk_both (h : SameOperation s t) (hm : s.mode = .decompressing) (distance length header : Nat) :
    Flow.Both SameOperation (refChunk distance length header s) (refChunk distance length header t) := by
  rw [refChunk_eq, refChunk_eq, ← h.rp hm, ← h.cfg, ← h.outLen]
  refine .ite (fun _ => .ended ((h.latchChunk _ _ _ _).errorEntry _ _)) fun hd => .ite (fun _ => .go ?_) fun _ =>
    .ended ((h.latchChunk _ _ _ _).errorEntry _ _)
  have hstart : SameOperation (refStart distance length header s) (refStart distance length header t) := { h with }
  have hcopy := hstart.copyBack (congrArg (· - distance) h.outLen) rfl
    (show s.outLen - distance + 0 < s.outLen by omega) length
  have hrp : s.rp + header = t.rp + header := congrArg (· + header) (h.rp hm)
  exact { hcopy with rp := fun _ => by rw [ref_applied, ref_applied]; exact hrp }

theorem decompStep_sameOperation (h : SameOperation s t) (hb : s.status = .busy) (hm : s.mode = .decompressing)
    (hrp : s.rp < s.n) {s' : State} (hs : decompStep s = .next s') :
    ∃ t', decompStep t = .next t' ∧ SameOperation s' t' := by
  have hfetch : fetchHeader t = fetchHeader s := by
    rw [fetchHeader, fetchHeader, ← h.rp hm, ← h.n]
    exact (h.ibufSlice hb (by omega)).symm
  rw [decompStep] at hs ⊢
  rw [hfetch, ← h.rp hm]
  cases hd : decodeChunk (fetchHeader s) with
  | error c =>
    rw [hd] at hs
    injection hs with hs
    exact ⟨_, rfl, hs ▸ h.errorEntry c s.rp⟩
  | ok i =>
    rw [hd] at hs
    show ∃ t', exec i t = .next t' ∧ SameOperation s' t'
    rcases decodeChunk_form hd with ⟨length, header, hl, -⟩ | ⟨distance, length, header, hl, -⟩
    · rw [exec_literal hl]
      exact (literalChunk_both h hb hm length header).outcome ((exec_literal hl s).symm.trans hs)
    · rw [exec_backRef hl]
      exact (refChunk_both h hm distance length header).outcome ((exec_backRef hl s).symm.trans hs)

theorem decompressorTurn_sameOperation (h : SameOperation s t) (hb : s.status = .busy) (hm : s.mode = .decompressing) {s' : State}
    (hs : decompressorTurn s = .next s') : ∃ t', decompressorTurn t = .next t' ∧ SameOperation s' t' := by
  rw [decompressorTurn] at hs ⊢
  rw [← h.rp hm, ← h.n]
  split at hs
  · next hrp =>
    rw [if_pos hrp]
    exact decompStep_sameOperation h hb hm hrp hs
  · next hrp =>
    split at hs
    · next hn =>
      injection hs with hs
      rw [if_neg hrp, if_pos hn]
      exact ⟨_, rfl, hs ▸ h.finishOperation⟩
    · nomatch hs

end

/-! ### The compressor's turn -/

/-- Inside a turn of the compressor, at the same point; where the search has been made, it has found the same match. -/
structure SameTurn (searched : Prop) (s t : State) : Prop where
  same : SameOperation s t
  busy : s.status = .busy
  mode : s.mode = .compressing
  best : searched → s.bestLen = t.bestLen ∧ s.bestDist = t.bestDist

section
variable {searched : Prop} {s t : State}

namespace SameTurn

theorem outAppendSeq (h : SameTurn searched s t) (vs : List Byte) :
    SameTurn searched (Machine.outAppendSeq vs s) (Machine.outAppendSeq vs t) where
  same := h.same.outAppendSeq vs
  busy := by rw [outAppendSeq_eq]; exact h.busy
  mode := by rw [outAppendSeq_eq]; exact h.mode
  best := by rw [outAppendSeq_eq, outAppendSeq_eq]; exact h.best

theorem clearAccumulator (h : SameTurn searched s t) :
    SameTurn searched (Machine.clearAccumulator s) (Machine.clearAccumulator t) :=
  { h with same := { h.same with acc := fun _ => rfl, accLen := fun _ => rfl } }

theorem advancePastMatch (h : SameTurn True s t) : SameTurn True (Machine.advancePastMatch s) (Machine.advancePastMatch t) :=
  { h with same := { h.same with i := fun _ => congrArg₂ (· + ·) (h.same.i h.mode) (h.best trivial).1 } }

theorem literalStep (h : SameTurn searched s t) (hi : s.i < s.n) :
    SameTurn searched (Machine.literalStep s) (Machine.literalStep t) := by
  have hbyte : ibufByte s s.i = ibufByte t t.i := h.same.i h.mode ▸ h.same.input h.busy s.i hi
  exact { h with same := { h.same with
    i := fun _ => congrArg (· + 1) (h.same.i h.mode)
    accLen := fun _ => congrArg (· + 1) (h.same.accLen h.mode)
    acc := fun _ => congrArg₂ (fun acc b => acc ++ [b]) (h.same.acc h.mode) hbyte } }

theorem emitChunk (h : SameTurn searched s t) (c : ChunkValue) (pos : Nat) :
    Flow.Both (SameTurn searched) (Machine.emitChunk c pos s) (Machine.emitChunk c pos t) := by
  rw [Machine.emitChunk, Machine.emitChunk, ← h.same.cfg, ← h.same.outLen]
  cases encodeValue c with
  | error cause => exact .ended (h.same.errorEntry cause pos)
  | ok bytes => exact .ite (fun _ => .go (h.outAppendSeq bytes)) fun _ => .ended (h.same.errorEntry .outOverflow pos)

theorem flush (h : SameTurn searched s t) (pos : Nat) :
    Flow.Both (SameTurn searched) (Machine.flush pos s) (Machine.flush pos t) := by
  rw [Machine.flush, Machine.flush, ← h.same.acc h.mode]
  exact (h.emitChunk (.literal s.acc) pos).andThen fun _ _ huv => .go huv.clearAccumulator

theorem flushNonEmpty (h : SameTurn searched s t) (pos : Nat) :
    Flow.Both (SameTurn searched) (Machine.flushNonEmpty pos s) (Machine.flushNonEmpty pos t) := by
  rw [Machine.flushNonEmpty, Machine.flushNonEmpty, ← h.same.accLen h.mode]
  exact .ite (fun _ => h.flush pos) fun _ => .go h

theorem sizeFlush (h : SameTurn searched s t) (pos : Nat) :
    Flow.Both (SameTurn searched) (Machine.sizeFlush pos s) (Machine.sizeFlush pos t) := by
  rw [Machine.sizeFlush, Machine.sizeFlush, ← h.same.accLen h.mode]
  exact .ite (fun _ => h.flush pos) fun _ => .go h

theorem matchStep (h : SameTurn True s t) (pos : Nat) :
    Flow.Both (SameTurn True) (Machine.matchStep pos s) (Machine.matchStep pos t) := by
  rw [Machine.matchStep, Machine.matchStep]
  refine .andThen (R := SameTurn True) ((h.flushNonEmpty pos).andThen fun u v huv => ?_)
    fun _ _ huv => .go huv.clearAccumulator.advancePastMatch
  obtain ⟨hlen, hdist⟩ := huv.best trivial
  rw [← hlen, ← hdist]
  exact huv.emitChunk _ pos

theorem matchOrLiteral (h : SameTurn True s t) (hi : s.i < s.n) (pos : Nat) :
    Flow.Both (SameTurn True) (Machine.matchOrLiteral pos s) (Machine.matchOrLiteral pos t) := by
  rw [Machine.matchOrLiteral, Machine.matchOrLiteral, ← (h.best trivial).1]
  exact .ite (fun _ => h.matchStep pos) fun _ => .go (h.literalStep hi)

end SameTurn

theorem searchStep_sameTurn (h : SameOperation s t) (hb : s.status = .busy) (hm : s.mode = .compressing) :
    SameTurn True (searchStep s) (searchStep t) := by
  have hfind : findMatch (ibufByte s) s.n s.i = findMatch (ibufByte t) t.n t.i := by
    rw [← h.n, ← h.i hm]
    exact findMatch_congr (h.input hb)
  exact { same := { h with }, busy := hb, mode := hm,
          best := fun _ => ⟨congrArg Search.bestLen hfind, congrArg Search.bestDist hfind⟩ }

theorem compStep_both (h : SameOperation s t) (hb : s.status = .busy) (hm : s.mode = .compressing) (hi : s.i < s.n) :
    Flow.Both SameOperation (compStep s) (compStep t) := by
  rw [compStep, compStep, ← h.i hm]
  have hbody := (searchStep_sameTurn h hb hm).matchOrLiteral hi s.i
  exact (hbody.andThen fun _ _ huv => huv.sizeFlush s.i).mono fun _ _ huv => huv.same

theorem compFinish_both (h : SameOperation s t) (hb : s.status = .busy) (hm : s.mode = .compressing) :
    Flow.Both SameOperation (compFinish s) (compFinish t) := by
  have hturn : SameTurn False s t := ⟨h, hb, hm, False.elim⟩
  rw [compFinish, compFinish, ← h.n]
  exact (hturn.flushNonEmpty s.n).andThen fun _ _ huv => .go huv.same.finishOperation

theorem compressorTurn_sameOperation (h : SameOperation s t) (hb : s.status = .busy) (hm : s.mode = .compressing) {s' : State}
    (hs : compressorTurn s = .next s') : ∃ t', compressorTurn t = .next t' ∧ SameOperation s' t' := by
  rw [compressorTurn] at hs ⊢
  rw [← h.i hm, ← h.n]
  split at hs
  · next hi =>
    rw [if_pos hi]
    exact (compStep_both h hb hm hi).outcome hs
  · next hi =>
    rw [if_neg hi]
    exact (compFinish_both h hb hm).outcome hs

end

/-- Settles O47: the two turns are the same one, and each part of it reads only what the two states share. -/
theorem engineDependsOnTheOperationOnly : Obligations.EngineDependsOnTheOperationOnly := by
  intro s t s' h hs
  by_cases hb : s.status = .busy
  · have hbt : t.status = .busy := h.status.symm.trans hb
    cases hm : s.mode with
    | none =>
      rw [engineTurn, if_pos hb, hm] at hs
      nomatch hs
    | compressing =>
      rw [engineTurn_compressing hb hm] at hs
      rw [engineTurn_compressing hbt (h.mode.symm.trans hm)]
      exact compressorTurn_sameOperation h hb hm hs
    | decompressing =>
      rw [engineTurn_decompressing hb hm] at hs
      rw [engineTurn_decompressing hbt (h.mode.symm.trans hm)]
      exact decompressorTurn_sameOperation h hb hm hs
  · rw [engineTurn_notBusy hb, Host.Outcome.next.injEq] at hs
    exact ⟨t, engineTurn_notBusy (h.status ▸ hb), hs ▸ h⟩

end Sys2Proof.Machine
end

section
/-! The host commands family, the commands themselves: the write of CMD that issues them, their starts (R231 to R235), and
what a start depends on (R240, R39, R41). -/

namespace Sys2Proof.Machine

/-! ### The write of CMD (R230, R234) -/

/-- Settles O12. -/
theorem nopChangesNothing : Obligations.NopChangesNothing := fun _ => rfl

/-- Settles O17, code by code: the pending write of CMD is taken off, and the decoder names the command. -/
theorem stepIssuesCommand : Obligations.StepIssuesCommand := fun _ _ =>
  ⟨step_writeReg, step_writeReg, step_writeReg, step_writeReg⟩

theorem exec_start_busy {s : State} {i : Instr} (hi : i = .compress ∨ i = .decompress) (hb : s.status = .busy) :
    exec i s = .next s := by
  rcases hi with rfl | rfl
  · exact if_pos hb
  · exact if_pos hb

/-- Settles O15: the step is the command of the code, which is NOP, one that BUSY ignores, or none. -/
theorem busyIgnoresCommands : Obligations.BusyIgnoresCommands := by
  intro s v rest hb hv hin
  obtain ⟨hnop, hcompress, hdecompress, hreserved⟩ := stepIssuesCommand s rest
  match v with
  | 0 => exact (hnop hin).trans (nopChangesNothing _)
  | 1 => exact (hcompress hin).trans (exec_start_busy (.inl rfl) hb)
  | 2 => exact (hdecompress hin).trans (exec_start_busy (.inr rfl) hb)
  | 3 => exact hreserved hin

/-! ### The starts (R232, R233) -/

/-- A start that an error ends has latched N; what else it has written, error entry writes over or leaves dead (R262). -/
theorem startError_entered (c : Cause) (m : Mode) (s : State) :
    ErrorEntered c 0 { s with n := s.inLen } (errorEntry c 0 (startOperation m s)) := rfl

/-- Settles O13, check by check. -/
theorem compressStarts : Obligations.CompressStarts := by
  intro s hb
  rw [exec_compress_notBusy hb]
  split
  · exact ⟨_, rfl, startError_entered .inOverflow .compressing s⟩
  · split
    · exact ⟨_, rfl, startError_entered .invalidInput .compressing s⟩
    · rfl

/-- Settles O14, check by check. -/
theorem decompressStarts : Obligations.DecompressStarts := by
  intro s hb
  rw [exec_decompress_notBusy hb]
  split
  · exact ⟨_, rfl, startError_entered .inOverflow .decompressing s⟩
  · rfl

/-! ### A start forgets the past (R240, R39, R41) -/

section
variable {s t : State}

/-- What both commands do first leaves nothing of an earlier operation but what an engine's seed writes next: with no engine
named yet, the two states are at the same point. -/
theorem sameOperation_startOperation (hcfg : s.cfg = t.cfg) (hlen : s.inLen = t.inLen)
    (hin : ∀ a < s.inLen, ibufByte s a = ibufByte t a) :
    SameOperation (startOperation .none s) (startOperation .none t) where
  cfg := hcfg
  status := rfl
  mode := rfl
  err := rfl
  errPos := rfl
  outLen := rfl
  n := hlen
  i := nofun
  accLen := nofun
  acc := nofun
  rp := nofun
  input _ := hin
  output := nofun

theorem sameOperation_seedAccumulator (hcfg : s.cfg = t.cfg) (hlen : s.inLen = t.inLen) (hpos : s.inLen ≠ 0)
    (hin : ∀ a < s.inLen, ibufByte s a = ibufByte t a) :
    SameOperation (seedAccumulator (startOperation .compressing s)) (seedAccumulator (startOperation .compressing t)) :=
  { sameOperation_startOperation hcfg hlen hin with
    mode := rfl
    i := fun _ => rfl
    accLen := fun _ => rfl
    acc := fun _ => congrArg (fun b => [b]) (hin 0 (Nat.pos_of_ne_zero hpos))
    rp := nofun }

theorem sameOperation_seedReadCursor (hcfg : s.cfg = t.cfg) (hlen : s.inLen = t.inLen)
    (hin : ∀ a < s.inLen, ibufByte s a = ibufByte t a) :
    SameOperation (seedReadCursor (startOperation .decompressing s)) (seedReadCursor (startOperation .decompressing t)) :=
  { sameOperation_startOperation hcfg hlen hin with
    mode := rfl
    i := nofun
    accLen := nofun
    acc := nofun
    rp := fun _ => rfl }

end

/-- Settles O48: the two starts meet the same checks, and each answer is made of what the two states share. -/
theorem startForgetsThePast : Obligations.StartForgetsThePast := by
  intro i s t s' hi hs ht hcfg hlen hin h
  have herr : ∀ c m, SameOperation (errorEntry c 0 (startOperation m s)) (errorEntry c 0 (startOperation m t)) :=
    fun c m => sameOperation_errorEntry (s := startOperation m s) (t := startOperation m t) hcfg hlen c 0
  rcases hi with rfl | rfl
  · rw [exec_compress_notBusy hs, Host.Outcome.next.injEq] at h
    refine ⟨_, exec_compress_notBusy ht, ?_⟩
    rw [← h, ← hcfg, ← hlen]
    split
    · exact herr _ _
    · split
      · exact herr _ _
      · next hpos => exact sameOperation_seedAccumulator hcfg hlen hpos hin
  · rw [exec_decompress_notBusy hs, Host.Outcome.next.injEq] at h
    refine ⟨_, exec_decompress_notBusy ht, ?_⟩
    rw [← h, ← hcfg, ← hlen]
    split
    · exact herr _ _
    · exact sameOperation_seedReadCursor hcfg hlen hin

end Sys2Proof.Machine
end

section
/-! The exceptions family: the emits of the compressor that do not fit (R163, R165, R166, R257), and what every step that goes
to ERROR leaves (R260, R262). -/

namespace Sys2Proof.Machine

/-! ### The emits that overflow (R257) -/

/-- What error entry leaves where a step ends with OUT_OVERFLOW. -/
theorem step_overflows {s u : State} {pos : Nat} (h : step s = .next (errorEntry .outOverflow pos u)) :
    ∃ t, step s = .next t ∧ t.status = .error ∧ t.err = .outOverflow ∧ t.errPos = pos ∧ t.outLen = 0 ∧ t.mode = .none :=
  ⟨_, h, rfl, rfl, rfl, rfl, rfl⟩

/-- Settles O27: whether the accumulator's chunk or the back-reference is the one that does not fit, the error is at I. -/
theorem matchStepOverflows : Obligations.MatchStepOverflows := by
  intro s hs hq hl hshort hc
  have hstep := step_of_atIteration hs
  obtain ⟨-, -, -, -, hi⟩ := hs
  rcases compStep_match s hi hq hl hshort with ⟨-, he | ⟨-, he⟩⟩ | ⟨hfit, -⟩
  · exact step_overflows (hstep.trans (congrArg Flow.outcome he))
  · exact step_overflows (hstep.trans (congrArg Flow.outcome he))
  · exact absurd (hfit.symm.trans hc) (by decide)

/-- Settles O28: the size flush raises at the I that the iteration began with, the final flush at N. -/
theorem flushOverflows : Obligations.FlushOverflows := by
  refine ⟨fun s hs hq hfull hl hc => ?_, fun s hb hm hin hi hl _ hshort hc => ?_⟩
  · rcases compStep_flush s hq hfull hl with ⟨-, he⟩ | ⟨hfit, -⟩
    · exact step_overflows ((step_of_atIteration hs).trans (congrArg Flow.outcome he))
    · exact absurd (hfit.symm.trans hc) (by decide)
  · have hstep : step s = (compFinish s).outcome := by
      rw [step_engine hin, engineTurn_compressing hb hm, compressorTurn, if_neg (Nat.not_lt_of_le (Nat.le_of_eq hi.symm))]
    rcases compFinish_cases s hl hshort with ⟨-, -, he⟩ | ⟨hfit | hempty, -⟩
    · exact step_overflows (hstep.trans (congrArg Flow.outcome he))
    · exact absurd (hfit.symm.trans hc) (by decide)
    · omega

/-! ### Where an error is recorded (R260) -/

section
variable {s t : State} (hb : s.status = .busy) (hte : t.status = .error)
include hb hte

/-- The compressor records I as its turn began; for the size flush too, after the literal step has moved I (log 13). -/
theorem compressorTurn_errPos (h : s.AtLoopHead) (ht : compressorTurn s = .next t) : t.errPos = s.i := by
  rcases compressorTurn_cases h with ⟨-, -, -, he⟩ | ⟨-, -, -, he⟩ | ⟨-, -, -, -, he⟩ | ⟨-, -, he⟩ | ⟨u, -, -, he⟩
  all_goals
    rw [he, Host.Outcome.next.injEq] at ht
    subst ht
  · simp [afterMatch_eq, hb] at hte
  · simp [hb] at hte
  · simp [afterFlush_eq, hb] at hte
  · simp [afterFinish_eq] at hte
  · rfl

theorem literalChunk_errPos {length header : Nat} (ht : (literalChunk length header s).outcome = .next t) :
    t.errPos = s.rp := by
  rcases literalChunk_cases length header s with ⟨-, he⟩ | ⟨-, -, he⟩ | ⟨-, -, he⟩
  all_goals
    rw [he] at ht
    injection ht with ht
    subst ht
  · rfl
  · rfl
  · simp [literal_applied, hb] at hte

theorem refChunk_errPos {distance length header : Nat} (ht : (refChunk distance length header s).outcome = .next t) :
    t.errPos = s.rp := by
  rcases refChunk_cases distance length header s with ⟨-, he⟩ | ⟨-, -, -, he⟩ | ⟨-, -, -, he⟩
  all_goals
    rw [he] at ht
    injection ht with ht
    subst ht
  · rfl
  · rfl
  · rw [ref_applied] at hte
    simp [hb] at hte

/-- The decompressor records the offset of the chunk's tag byte (R131, R135 to R137, R203, R206). -/
theorem decompressorTurn_errPos (h : s.AtChunkBoundary) (ht : decompressorTurn s = .next t) : t.errPos = s.rp := by
  rcases Nat.eq_or_lt_of_le h.rpLe with hrp | hrp
  · rw [decompressorTurn_end hrp, Host.Outcome.next.injEq] at ht
    subst ht
    simp at hte
  · rw [decompressorTurn, if_pos hrp] at ht
    rcases decompStep_cases s hrp with ⟨c, -, -, he⟩ | ⟨_, _, _, -, -, -, -, -, -, he⟩ |
      ⟨_, _, _, _, -, -, -, -, -, -, -, he⟩
    · rw [he, Host.Outcome.next.injEq] at ht
      exact ht ▸ rfl
    · exact literalChunk_errPos hb hte (he ▸ ht)
    · exact refChunk_errPos hb hte (he ▸ ht)

end

theorem State.Inv.cursor_of_notBusy {s : State} (h : s.Inv) (hb : s.status ≠ .busy) : s.cursor = 0 := by
  rw [State.cursor, h.mode_none hb]

/-- An engine's turn that goes to ERROR records the cursor as it began. -/
theorem engineTurn_errPos {s t : State} (h : s.Inv) (hse : s.status ≠ .error) (ht : engineTurn s = .next t)
    (hte : t.status = .error) : t.errPos = s.cursor := by
  by_cases hb : s.status = .busy
  · rw [State.cursor]
    cases hm : s.mode with
    | none => exact absurd hm (h.coherent.busyMode.1 hb)
    | compressing =>
      rw [engineTurn_compressing hb hm] at ht
      exact compressorTurn_errPos hb hte (h.compressing hm) ht
    | decompressing =>
      rw [engineTurn_decompressing hb hm] at ht
      exact decompressorTurn_errPos hb hte (h.decompressing hm) ht
  · rw [engineTurn_notBusy hb, Host.Outcome.next.injEq] at ht
    exact absurd (ht ▸ hte) hse

/-- A start that goes to ERROR records 0, and no engine runs before it. -/
theorem exec_start_errPos {s t : State} {i : Instr} (h : s.Inv) (hse : s.status ≠ .error)
    (hi : i = .compress ∨ i = .decompress) (ht : exec i s = .next t) (hte : t.status = .error) : t.errPos = s.cursor := by
  rcases exec_start_cases hi ht with ⟨-, rfl⟩ | ⟨hb, ⟨m, c, -, -, rfl⟩ | ⟨-, -, rfl⟩ | ⟨-, rfl⟩⟩
  · exact absurd hte hse
  · exact (h.cursor_of_notBusy hb).symm
  · simp at hte
  · simp at hte

/-- A step that goes to ERROR is the engine's turn or a start, and records the cursor as it began. -/
theorem step_errPos {s t : State} (h : s.Inv) (hst : step s = .next t) (hte : t.status = .error)
    (hse : s.status ≠ .error) : t.errPos = s.cursor := by
  have hpop : ∀ rest, State.Inv { s with inbox := rest } := fun rest => h.withHostSide rest s.reply s.draws
  rcases step_cases hst with ⟨s', rfl | ⟨rest, -, rfl⟩, he⟩ | ⟨a, v, rest, -, -, -, rfl⟩ | ⟨rest, v, d, rfl⟩ |
    ⟨v, rest, -, -, -, rfl⟩ | ⟨rest, -, rfl⟩ | ⟨rest, i, hc, he⟩
  · exact engineTurn_errPos h hse he hte
  · exact engineTurn_errPos (s := { s with inbox := rest }) (hpop rest) hse he hte
  · exact absurd hte hse
  · exact absurd hte hse
  · exact absurd hte hse
  · nomatch hte
  · exact exec_start_errPos (s := { s with inbox := rest }) (hpop rest) hse (hc.imp And.right And.right) he hte

/-- Settles O41: the invariant after the step says all that ERROR implies (R24, R245, R28); the step says where. -/
theorem errorEntryState : Obligations.ErrorEntryState := by
  intro s t h hst hte hse
  have hinv := stepKeepsInvariant s t h hst
  have hnotBusy : t.status ≠ .busy := by simp [hte]
  exact ⟨hinv.coherent.errStatus.1 hte, hinv.coherent.outLenZero (.inr hte), hinv.mode_none hnotBusy,
    step_errPos h hst hte hse⟩

end Sys2Proof.Machine
end

section
/-! The reset and hazards family: what the host's port does not provide (R21, R71, R245, R301), and reset in any state (R290,
R291). -/

namespace Sys2Proof.Machine

/-! ### A buffer access the port does not provide (R71, R301) -/

section
variable {s : State} {a : Nat}

theorem hostWriteIbuf_busy (v : Byte) (hb : s.status = .busy) :
    hostWriteIbuf a v s = .refused .bufferAccessWhileBusy := by
  rw [hostWriteIbuf, if_pos hb]

theorem hostReadObuf_busy (hb : s.status = .busy) : hostReadObuf a s = .refused .bufferAccessWhileBusy := by
  rw [hostReadObuf, if_pos hb]

theorem hostWriteIbuf_noOffset (v : Byte) (hb : s.status ≠ .busy) (ha : hasOffset s.cfg.inCap a = false) :
    hostWriteIbuf a v s = .fault .noSuchOffset := by
  rw [hostWriteIbuf, if_neg hb, if_neg (Bool.eq_false_iff.1 ha)]

theorem hostReadObuf_noOffset (hb : s.status ≠ .busy) (ha : hasOffset s.cfg.outCap a = false) :
    hostReadObuf a s = .fault .noSuchOffset := by
  rw [hostReadObuf, if_neg hb, if_neg (Bool.eq_false_iff.1 ha)]

end

/-! ### A register number that does not exist (R21) -/

theorem regOfNumber_add_six (a : Nat) : regOfNumber (a + 6) = none := rfl

theorem hostWriteReg_add_six (a v : Nat) (s : State) : hostWriteReg (a + 6) v s = .refused .noSuchRegister := by
  rw [hostWriteReg, regOfNumber_add_six]

theorem hostReadReg_add_six (a : Nat) (s : State) : hostReadReg (a + 6) s = .refused .noSuchRegister := by
  rw [hostReadReg, regOfNumber_add_six]

/-- Settles O36, access by access: the pending one is the next step, and what it tests is not changed by taking it off. -/
theorem outsideTheInterface : Obligations.OutsideTheInterface := by
  intro s a v b rest
  refine ⟨fun h hb => ?_, fun h hb => ?_, step_pending, fun h => ?_, fun h => ?_, fun h hb ha => ?_, fun h hb ha => ?_⟩
  · rw [step_pending h]
    exact hostWriteIbuf_busy (s := { s with inbox := rest }) b hb
  · rw [step_pending h]
    exact hostReadObuf_busy (s := { s with inbox := rest }) hb
  · rw [step_writeReg h, hostWriteReg_add_six]
  · rw [step_pending h, hostTurn, hostReadReg_add_six]
  · rw [step_pending h]
    exact hostWriteIbuf_noOffset (s := { s with inbox := rest }) b hb ha
  · rw [step_pending h]
    exact hostReadObuf_noOffset (s := { s with inbox := rest }) hb ha

/-! ### Reset (R290, R291) -/

/-- A machine that is not BUSY and has no pending access stays as it is. -/
theorem step_idle {s : State} (hin : s.inbox = []) (hb : s.status ≠ .busy) : step s = .next s :=
  (step_engine hin).trans (engineTurn_notBusy hb)

theorem applyReset_status (s : State) : (applyReset s).status = .idle := rfl

theorem applyReset_inbox (s : State) : (applyReset s).inbox = s.inbox := rfl

/-- After reset no engine runs, so a machine without a pending access stays as it is. -/
theorem step_applyReset {s : State} (hin : s.inbox = []) : step (applyReset s) = .next (applyReset s) :=
  step_idle ((applyReset_inbox s).trans hin) (by simp [applyReset_status])

/-- Settles O37: no test stands before the reset, and the machine it leaves is IDLE. -/
theorem resetFromAnyState : Obligations.ResetFromAnyState := by
  intro s rest h
  exact ⟨applyReset { s with inbox := rest }, step_pending h, applyReset_status _, rfl, rfl, rfl, rfl, rfl, rfl,
    applyReset_inbox _, step_applyReset (s := { s with inbox := rest })⟩

end Sys2Proof.Machine
end
